-- ==== Sys2Proof/Word.lean ====
section
/-! DEFINITION. The words, levels and directions of SCCB-BB, and the events of its line trace.

A level is a `Bool`: `true` is 1 (high, released), `false` is 0 (low) (00_scope.md R7). -/

namespace Sys2Proof

/-- A byte on the wire or in RDATA. -/
abbrev Byte := BitVec 8

/-- A host register or a command word (00_scope.md R6: host data width 32). -/
abbrev Word := BitVec 32

/-- DATA's direction (00_scope.md R7, 10_state.md R33). -/
inductive Dir where
  | out  -- open-drain output, encoded 1
  | inp  -- tri-stated input, encoded 0
deriving DecidableEq, Repr

/-- `dirbit` of 20_memory.md R54: OUT is 1, IN is 0. -/
def Dir.bit : Dir → Bool
  | .out => true
  | .inp => false

/-- The inverse of `Dir.bit`: operand `L` of SET_DIR (30_encoding.md R73). -/
def Dir.ofBit (l : Bool) : Dir := if l then .out else .inp

/-- The `op` entry of a trace event (00_scope.md R11, 40_line_control.md R91 to R95). -/
inductive EventOp where
  | scl
  | sda
  | dir
  | smp (b : Bool)
  | wait (n : Nat)
deriving DecidableEq, Repr

/-- One event `(t, op, scl_o, sda_o, dir)` of the line trace (00_scope.md R11). The values are those
after the micro-op. -/
structure Event where
  t   : Nat
  op  : EventOp
  scl : Bool
  sda : Bool
  dir : Dir
deriving DecidableEq, Repr

end Sys2Proof
end

