-- ==== Sys2Proof/Syntax.lean ====
section
/-! DEFINITION. The fourteen commands of SCCB-CMD version 1: one constructor for each row of
spec/opcode_table.json (30_encoding.md R77). -/

namespace Sys2Proof

/-- A command with its operands, each of the width its field has (30_encoding.md R71 to R76). -/
inductive Instr where
  | writeReg (reg value : Byte)    -- WRITE_REG reg, value    42_transactions.md R140
  | readReg (reg : Byte)           -- READ_REG reg            42_transactions.md R141
  | start                          -- START                   42_transactions.md R130
  | stop                           -- STOP                    42_transactions.md R131
  | writeByte (v : Byte)           -- WRITE_BYTE byte         41_codec.md R112
  | readByte                       -- READ_BYTE               41_codec.md R113
  | writeBit (b : Bool)            -- WRITE_BIT bit           41_codec.md R110
  | readBit                        -- READ_BIT                41_codec.md R111
  | idle                           -- IDLE                    40_line_control.md R100
  | setClk (level : Bool)          -- SET_CLK level           40_line_control.md R101
  | setData (level : Bool)         -- SET_DATA level          40_line_control.md R102
  | setDir (d : Dir)               -- SET_DIR OUT or IN       40_line_control.md R103
  | sample                         -- SAMPLE                  40_line_control.md R104
  | delay (n : BitVec 16)          -- DELAY n                 40_line_control.md R105
deriving DecidableEq, Repr

end Sys2Proof
end

