-- ==== Sys2Proof/WellFormed.lean ====
section
/-! DEFINITION. Well-formed commands as an assembler reads them (30_encoding.md R81): operands are
numbers, and one out of its range is refused, never truncated. An `Instr` holds its operands at their
fields' widths, so it is the checked form. -/

namespace Sys2Proof

/-- A command as R81 writes it, its operands plain numbers. -/
inductive AsmCommand where
  | writeReg (reg value : Nat)
  | readReg (reg : Nat)
  | start
  | stop
  | writeByte (byte : Nat)
  | readByte
  | writeBit (bit : Nat)
  | readBit
  | idle
  | setClk (level : Nat)
  | setData (level : Nat)
  | setDir (d : Dir)
  | sample
  | delay (n : Nat)
deriving DecidableEq, Repr

/-- The operand ranges of R81. -/
def AsmCommand.wellFormed : AsmCommand → Bool
  | .writeReg reg value => reg < 256 && value < 256
  | .readReg reg => reg < 256
  | .writeByte byte => byte < 256
  | .writeBit bit => bit < 2
  | .setClk level => level < 2
  | .setData level => level < 2
  | .delay n => n < 65536
  | .start | .stop | .readByte | .readBit | .idle | .setDir _ | .sample => true

/-- The command whose operands are the given numbers; read through `AsmCommand.assemble`. -/
def AsmCommand.toInstr : AsmCommand → Instr
  | .writeReg reg value => .writeReg (BitVec.ofNat 8 reg) (BitVec.ofNat 8 value)
  | .readReg reg => .readReg (BitVec.ofNat 8 reg)
  | .start => .start
  | .stop => .stop
  | .writeByte byte => .writeByte (BitVec.ofNat 8 byte)
  | .readByte => .readByte
  | .writeBit bit => .writeBit (bit == 1)
  | .readBit => .readBit
  | .idle => .idle
  | .setClk level => .setClk (level == 1)
  | .setData level => .setData (level == 1)
  | .setDir d => .setDir d
  | .sample => .sample
  | .delay n => .delay (BitVec.ofNat 16 n)

/-- "An assembler refuses an operand out of range; it never truncates one." (R81) -/
def AsmCommand.assemble (c : AsmCommand) : Option Instr :=
  if c.wellFormed then some c.toInstr else none

/-- A command written back as R81 writes it. -/
def Instr.toAsm : Instr → AsmCommand
  | .writeReg reg value => .writeReg reg.toNat value.toNat
  | .readReg reg => .readReg reg.toNat
  | .start => .start
  | .stop => .stop
  | .writeByte v => .writeByte v.toNat
  | .readByte => .readByte
  | .writeBit b => .writeBit b.toNat
  | .readBit => .readBit
  | .idle => .idle
  | .setClk level => .setClk level.toNat
  | .setData level => .setData level.toNat
  | .setDir d => .setDir d
  | .sample => .sample
  | .delay n => .delay n.toNat

/-- A command is well formed when what R81 writes for it is. -/
def Instr.wellFormed (i : Instr) : Bool := i.toAsm.wellFormed

end Sys2Proof
end

