-- ==== Sys2Proof/Decode.lean ====
section
/-! DEFINITION. Decoding and encoding of command words (30_encoding.md R70 to R81). -/

namespace Sys2Proof

/-- What a command word is (R80): one of the 14 commands, or a reserved opcode, by its name. -/
inductive Decoded where
  | instr (i : Instr)
  | reservedOpcode (opc : BitVec 4)
deriving DecidableEq, Repr

/-- `OPC = w[3:0]` (R71). -/
def opcodeOf (w : Word) : BitVec 4 := w.extractLsb' 0 4

/-- `A = w[15:8]` (R74). -/
def fieldA (w : Word) : Byte := w.extractLsb' 8 8

/-- `B = w[23:16]` (R75). -/
def fieldB (w : Word) : Byte := w.extractLsb' 16 8

/-- `L = w[8]` (R73). -/
def fieldL (w : Word) : Bool := w.getLsbD 8

/-- `N = w[23:8]` (R75). -/
def fieldN (w : Word) : BitVec 16 := w.extractLsb' 8 16

/-- The opcode map of R77. Opcodes 0x0 and 0xF are reserved (R78); every bit a format does not name
is ignored (R79). -/
def decode (w : Word) : Decoded :=
  match (opcodeOf w).toNat with
  | 0x1 => .instr (.writeReg (fieldA w) (fieldB w))
  | 0x2 => .instr (.readReg (fieldA w))
  | 0x3 => .instr .start
  | 0x4 => .instr .stop
  | 0x5 => .instr (.writeByte (fieldA w))
  | 0x6 => .instr .readByte
  | 0x7 => .instr (.writeBit (fieldL w))
  | 0x8 => .instr .readBit
  | 0x9 => .instr .idle
  | 0xA => .instr (.setClk (fieldL w))
  | 0xB => .instr (.setData (fieldL w))
  | 0xC => .instr (.setDir (Dir.ofBit (fieldL w)))
  | 0xD => .instr .sample
  | 0xE => .instr (.delay (fieldN w))
  | _ => .reservedOpcode (opcodeOf w)

/-- `match` of R77: the opcode of a command. -/
def Instr.opcode : Instr → BitVec 4
  | .writeReg _ _ => 0x1#4
  | .readReg _ => 0x2#4
  | .start => 0x3#4
  | .stop => 0x4#4
  | .writeByte _ => 0x5#4
  | .readByte => 0x6#4
  | .writeBit _ => 0x7#4
  | .readBit => 0x8#4
  | .idle => 0x9#4
  | .setClk _ => 0xA#4
  | .setData _ => 0xB#4
  | .setDir _ => 0xC#4
  | .sample => 0xD#4
  | .delay _ => 0xE#4

/-- The layout all formats share (R71), reserved bits 0: `{8'h00, w[23:16], w[15:8], 4'h0, OPC}`. -/
def layoutWord (hi lo : Byte) (opc : BitVec 4) : Word := 0#8 ++ hi ++ lo ++ 0#4 ++ opc

/-- Bits 15:8 of format L: `{7'h0, L}` (R71, R73). -/
def bitByte (l : Bool) : Byte := 0#7 ++ BitVec.ofBool l

/-- The encoding column of R81. -/
def encode (i : Instr) : Word :=
  match i with
  | .writeReg reg value => layoutWord value reg 0x1#4
  | .readReg reg => layoutWord 0#8 reg 0x2#4
  | .start => layoutWord 0#8 0#8 0x3#4
  | .stop => layoutWord 0#8 0#8 0x4#4
  | .writeByte v => layoutWord 0#8 v 0x5#4
  | .readByte => layoutWord 0#8 0#8 0x6#4
  | .writeBit b => layoutWord 0#8 (bitByte b) 0x7#4
  | .readBit => layoutWord 0#8 0#8 0x8#4
  | .idle => layoutWord 0#8 0#8 0x9#4
  | .setClk level => layoutWord 0#8 (bitByte level) 0xA#4
  | .setData level => layoutWord 0#8 (bitByte level) 0xB#4
  | .setDir d => layoutWord 0#8 (bitByte d.bit) 0xC#4
  | .sample => layoutWord 0#8 0#8 0xD#4
  | .delay n => layoutWord (n.extractLsb' 8 8) (n.extractLsb' 0 8) 0xE#4

/-- The bits a command's format does not reserve (R71): OPC and its operands. -/
def Instr.usedBits : Instr → Word
  | .writeReg _ _ | .delay _ => 0x00FFFF0F#32
  | .readReg _ | .writeByte _ => 0x0000FF0F#32
  | .writeBit _ | .setClk _ | .setData _ | .setDir _ => 0x0000010F#32
  | .start | .stop | .readByte | .readBit | .idle | .sample => 0x0000000F#32

/-- The instruction the decoder reads from a word of spec/opcode_table.json's numbering: one 32-bit
word (R70), the bits from `nbits` on being 0. -/
def decodeTableWord (nbits w : Nat) : Option Instr :=
  match decode (BitVec.ofNat 32 (w % 2 ^ nbits)) with
  | .instr i => some i
  | .reservedOpcode _ => none

end Sys2Proof
end

