-- ==== Sys2Proof/Config.lean ====
section
/-! DEFINITION. The implementation parameters of 00_scope.md R6 and the free DATA levels of R10.

A constant without a body is OPEN: nothing in Lean can evaluate it, so what is proved holds for every
value it may have. -/

namespace Sys2Proof

/-- `TICK_COUNTS - 1`, as an element of its range: `TICK_COUNTS` is a parameter from 1 to 65535
(00_scope.md R6; log 1). -/
opaque Config.tickCountsPred : Fin 65535

/-- `TICK_COUNTS`: timer counts in one Timing Tick (00_scope.md R6). -/
def Config.tickCounts : Nat := Config.tickCountsPred.val + 1

/-- `TIMER_DIV - 1`, as an element of its range: `TIMER_DIV` is a parameter from 1 to 2^16 - 1
(00_scope.md R6; log 1). -/
opaque Config.timerDivPred : Fin 65535

/-- `TIMER_DIV`: system-clock cycles in one timer count (00_scope.md R6). -/
def Config.timerDiv : Nat := Config.timerDivPred.val + 1

/-- `DEV_ADDR_RESET`, an OPEN parameter (00_scope.md R6, 93_implementation_defined.md U10; log 1). -/
opaque Config.devAddrReset : BitVec 7

/-- `SCCB_BASE_ADDR`, an OPEN parameter of the platform with no effect inside the block
(00_scope.md R6, 60_exceptions.md R163; log 1). -/
opaque Config.sccbBaseAddr : Nat

/-- The host address of the register window's byte at offset `off` (60_exceptions.md R163). -/
def Config.hostAddress (off : BitVec 5) : Nat := Config.sccbBaseAddr + off.toNat

/-- `SYNC_STAGES` (00_scope.md R6): State has one field for each stage. -/
def Config.syncStages : Nat := 2

/-- The level the bus device gives DATA in one `clk` cycle: `true` released, `false` pulled low. A
free value under no law (00_scope.md R10, 93_implementation_defined.md U7). It is applied to the line
trace so far, since a device may answer what it saw on the bus, and to the cycle's number
(log 4; DESIGN CHOICE). -/
opaque Config.deviceLevel : List Event → Nat → Bool

end Sys2Proof
end

