-- ==== Sys2Proof/Machine/State.lean ====
section
/-! DEFINITION. The state of SCCB-BB (10_state.md), the reasons a step can stop, and reset. -/

namespace Sys2Proof.Machine

/-- A micro-op of the sequencer (00_scope.md R8, 40_line_control.md R91 to R95). -/
inductive MicroOp where
  | scl (l : Bool)
  | sda (l : Bool)
  | dir (d : Dir)
  | smp
  | wait (n : Nat)
deriving DecidableEq, Repr

/-- What the block's input pins carry in one `clk` cycle (10_state.md R45). DATA's pin is not among
them: its level is the bus's (`Config.deviceLevel`). -/
structure PortIn where
  rstN    : Bool
  psel    : Bool
  penable : Bool
  pwrite  : Bool
  paddr   : BitVec 5
  pwdata  : Word
deriving DecidableEq, Repr

/-- The whole state. INVENTORY.md names the rule of each field. -/
structure State where
  timerEn   : Bool          -- CTRL.TIMER_EN (R21)
  busy      : Bool          -- STATUS.BUSY (R23)
  done      : Bool          -- STATUS.DONE (R24)
  errBusy   : Bool          -- STATUS.ERR_BUSY (R25)
  errOpcode : Bool          -- STATUS.ERR_OPCODE (R25)
  errTimer  : Bool          -- STATUS.ERR_TIMER (R25)
  errState  : Bool          -- STATUS.ERR_STATE (R25)
  base      : BitVec 7      -- DEV_ADDR.BASE (R27)
  rdata     : Byte          -- RDATA.DATA (R29)
  sclO      : Bool          -- CLOCK level `scl_o` (R33)
  dir       : Dir           -- DATA direction (R33)
  lvl       : Bool          -- DATA output level (R33)
  sync0     : Bool          -- first synchronizer stage (R35)
  sync1     : Bool          -- last synchronizer stage, `sda_s` (R35)
  cmd       : Word          -- word of the accepted command (R37)
  prog      : List MicroOp  -- its micro-program (R37)
  mpc       : Nat           -- sequencer position (R38)
  buf       : Byte          -- byte buffer (R39)
  wcnt      : Nat           -- cycles left in the running WAIT (R40)
  pre       : Nat           -- prescaler `PRE` (R41)
  tmr       : Word          -- timer `TMR` (R41)
  tick      : Nat           -- MODEL: the command's tick clock `t` (00_scope.md R9)
  trace     : List Event    -- MODEL: the line trace, oldest first (00_scope.md R11)
  now       : Nat           -- MODEL: `clk` cycles so far, the counter of the free DATA levels
  host      : List PortIn   -- MODEL: the coming port activity, one entry a cycle; idle after it
  pwdata    : Word          -- MODEL: the word of the latest host write (R45)
  reads     : List Word     -- MODEL: what host reads returned on `prdata`, oldest first (R54)
deriving DecidableEq, Repr

/-- No fault exists: "the block never hangs and never faults" (93_implementation_defined.md
section 1; 60_exceptions.md R150). -/
inductive Fault where
deriving DecidableEq, Repr

/-- Why a step has no meaning. -/
inductive Refusal where
  /-- Raised by an arm of `exec` whose instruction has no meaning yet; no arm does. Safe. -/
  | notModelled (mnemonic : String)
deriving DecidableEq, Repr

/-- The machine right after reset (10_state.md R44, 70_reset_and_hazards.md R170). The last six fields
are the model's own; their values are DESIGN CHOICE (log 9). -/
def State.reset : State where
  timerEn   := false
  busy      := false
  done      := false
  errBusy   := false
  errOpcode := false
  errTimer  := false
  errState  := false
  base      := Config.devAddrReset
  rdata     := 0#8
  sclO      := true
  dir       := .out
  lvl       := true
  sync0     := true
  sync1     := true
  cmd       := 0#32
  prog      := []
  mpc       := 0
  buf       := 0#8
  wcnt      := 0
  pre       := 0
  tmr       := 0#32
  tick      := 0
  trace     := []
  now       := 0
  host      := []
  pwdata    := 0#32
  reads     := []

end Sys2Proof.Machine
end

