-- ==== Sys2Proof/Machine/Operands.lean ====
section
/-! DEFINITION. Values built from registers and operands (30_encoding.md R76, 00_scope.md R12,
10_state.md R36). -/

namespace Sys2Proof.Machine

/-- `aw = {BASE, 1'b0}`, the device write address (30_encoding.md R76). -/
def writeAddress (base : BitVec 7) : Byte := base ++ 0#1

/-- `ar = {BASE, 1'b1}`, the device read address (30_encoding.md R76). -/
def readAddress (base : BitVec 7) : Byte := base ++ 1#1

/-- `sda_oe` (10_state.md R36). -/
def State.sdaOe (s : State) : Bool := s.dir == .out

/-- `sda_o`: 0 exactly when the controller pulls DATA low (10_state.md R36). -/
def State.sdaO (s : State) : Bool := !(s.sdaOe && !s.lvl)

/-- What the device can have seen of a trace: `WAIT(0)` takes no time and changes no line (R95). -/
def deviceView (es : List Event) : List Event := es.filter fun e => e.op != .wait 0

/-- DATA's level on the wire `j` cycles from now, the lines and the trace staying as they are: low if
the controller or the device pulls it low, else high (00_scope.md R12; log 5). -/
def State.wire (s : State) (j : Nat) : Bool :=
  s.sdaO && Config.deviceLevel (deviceView s.trace) (s.now + j)

/-- The command word CMD latches for `i` (10_state.md R37): the word on the write port, reserved bits
and all, where it spells `i`; `i`'s encoding in a state whose port holds another word (log 10). -/
def commandWord (i : Instr) (s : State) : Word :=
  if decode s.pwdata = .instr i then s.pwdata else encode i

/-- Bits `v[7] … v[0]` of a byte, in the order of the wire: MSB first (20_memory.md R51). -/
def bitsOf (v : Byte) : List Bool :=
  [v.getLsbD 7, v.getLsbD 6, v.getLsbD 5, v.getLsbD 4,
   v.getLsbD 3, v.getLsbD 2, v.getLsbD 1, v.getLsbD 0]

/-- `{v[6:0], b}`: one bit received (40_line_control.md R94). -/
def shiftIn (v : Byte) (b : Bool) : Byte := v.extractLsb' 0 7 ++ BitVec.ofBool b

end Sys2Proof.Machine
end

