-- ==== Sys2Proof/Machine/Flags.lean ====
section
/-! DEFINITION. The STATUS register: its flags, its word, and the refusal of a host write
(10_state.md R22 to R26, 60_exceptions.md R151, R154). -/

namespace Sys2Proof.Machine

/-- The causes of a refusal (60_exceptions.md R154). -/
inductive Cause where
  | busy
  | opcode
  | timer
  | state
deriving DecidableEq, Repr

/-- The cause code of R154. -/
def Cause.code : Cause → Nat
  | .busy => 1
  | .opcode => 2
  | .timer => 3
  | .state => 4

/-- `flag(c)`: the STATUS bit of a cause (60_exceptions.md R151). -/
def Cause.flagBit : Cause → Nat
  | .busy => 2
  | .opcode => 3
  | .timer => 4
  | .state => 5

/-- `raise Refuse(c)`: the flag of `c` is set and nothing else changes (60_exceptions.md R151). This is
the block's only exception; there is no handler and no return (R156). -/
def refuse (c : Cause) (s : State) : State :=
  match c with
  | .busy => { s with errBusy := true }
  | .opcode => { s with errOpcode := true }
  | .timer => { s with errTimer := true }
  | .state => { s with errState := true }

/-- A write to STATUS clears each of bits 5:1 that is written 1 (20_memory.md R55, 10_state.md R22). -/
def clearFlags (v : Word) (s : State) : State :=
  { s with
    done := s.done && !v.getLsbD 1
    errBusy := s.errBusy && !v.getLsbD 2
    errOpcode := s.errOpcode && !v.getLsbD 3
    errTimer := s.errTimer && !v.getLsbD 4
    errState := s.errState && !v.getLsbD 5 }

/-- The STATUS word (20_memory.md R54, 10_state.md R22, R26). -/
def statusWord (s : State) : Word :=
  0#19 ++ BitVec.ofBool s.lvl ++ BitVec.ofBool s.dir.bit ++ BitVec.ofBool s.sync1
    ++ BitVec.ofBool s.sdaO ++ BitVec.ofBool s.sclO ++ 0#2
    ++ BitVec.ofBool s.errState ++ BitVec.ofBool s.errTimer ++ BitVec.ofBool s.errOpcode
    ++ BitVec.ofBool s.errBusy ++ BitVec.ofBool s.done ++ BitVec.ofBool s.busy

end Sys2Proof.Machine
end

