-- ==== Sys2Proof/Machine/Ops.lean ====
section
/-! DEFINITION. The shared operations: time (timer and synchronizer), the micro-ops, one sequencer cycle,
the register window, command acceptance, one `clk` cycle, and a command from acceptance to completion. -/

namespace Sys2Proof.Machine

/-! ### Time -/

/-- One `clk` cycle of the running timer, on `(PRE, TMR)` (40_line_control.md R90). -/
def timerTick (c : Nat × Word) : Nat × Word :=
  if c.1 = Config.timerDiv - 1 then (0, c.2 + 1#32) else (c.1 + 1, c.2)

/-- `(PRE, TMR)` after `k` cycles: counting while TIMER_EN = 1, held while it is 0 (R90). -/
def timerAfter (k : Nat) (s : State) : Nat × Word :=
  if s.timerEn then timerTick^[k] (s.pre, s.tmr) else (s.pre, s.tmr)

/-- The synchronizer's stages `(first, last)` after `k` cycles in which the wire carries
`level 0, level 1, …` (10_state.md R35). -/
def syncAfter (level : Nat → Bool) : Nat → Bool × Bool → Bool × Bool
  | 0, c => c
  | k + 1, c => (level k, (syncAfter level k c).1)

/-- `k` cycles of time pass in state `s` while the sequencer and the host bring it to `q`: timer and
synchronizer advance from their values in `s`, with the wire of `s` (10_state.md R45: "every state
change happens on its rising edge"; log 6). -/
def advance (k : Nat) (s q : State) : State :=
  { q with
    pre := (timerAfter k s).1
    tmr := (timerAfter k s).2
    sync0 := (syncAfter s.wire k (s.sync0, s.sync1)).1
    sync1 := (syncAfter s.wire k (s.sync0, s.sync1)).2
    now := s.now + k }

/-! ### Micro-ops (40_line_control.md R91 to R95) -/

/-- `emit (t, op, scl_o, sda_o, dir)` (00_scope.md R8, R11). -/
def emit (op : EventOp) (s : State) : State :=
  { s with trace := s.trace ++ [⟨s.tick, op, s.sclO, s.sdaO, s.dir⟩] }

/-- `SCL(l)` (R91). -/
def opScl (l : Bool) (s : State) : State := emit .scl { s with sclO := l }

/-- `SDA(l)` (R92). Its precondition `dir = OUT` holds wherever the sequencer runs it (R96; log 15). -/
def opSda (l : Bool) (s : State) : State := emit .sda { s with lvl := l }

/-- `DIR(d)`: the level is released in both directions (R93). -/
def opDir (d : Dir) (s : State) : State := emit .dir { s with dir := d, lvl := true }

/-- `SMP`: the bit is `sda_s` (R94). Its precondition `dir = IN` holds wherever the sequencer runs it
(R96; log 15). -/
def opSmp (s : State) : State := emit (.smp s.sync1) { s with buf := shiftIn s.buf s.sync1 }

/-- The end of `WAIT(n)`: the counter is 0, the tick clock has grown by `n`, the event is emitted (R95). -/
def opWaitEnd (n : Nat) (s : State) : State :=
  emit (.wait n) { s with wcnt := 0, tick := s.tick + n }

/-- `S.mpc <- S.mpc + 1` after a micro-op (20_memory.md R58). -/
def nextOp (s : State) : State := { s with mpc := s.mpc + 1 }

/-- A micro-op with its whole effect but the passing of time, then the next position. -/
def microOp (op : MicroOp) (s : State) : State :=
  match op with
  | .scl l => nextOp (opScl l s)
  | .sda l => nextOp (opSda l s)
  | .dir d => nextOp (opDir d s)
  | .smp => nextOp (opSmp s)
  | .wait n => nextOp (opWaitEnd n s)

/-- `n * TICK_COUNTS * TIMER_DIV`, the length of `WAIT(n)` in cycles (R95). -/
def waitCycles (n : Nat) : Nat := n * Config.tickCounts * Config.timerDiv

/-- The cycles `WAIT(n)` has still to run: all of them where it is only beginning (R95; log 7). -/
def waitLeft (n : Nat) (s : State) : Nat :=
  if n = 0 then 0 else if s.wcnt = 0 then waitCycles n else s.wcnt

/-- One cycle of `WAIT(n)`, `n > 0`: the down-counter moves only while TIMER_EN = 1, and the micro-op
ends in the cycle that brings it to 0 (R95, 70_reset_and_hazards.md R187; log 7). -/
def waitCycle (n : Nat) (s : State) : State :=
  if s.timerEn then
    if waitLeft n s = 1 then microOp (.wait n) s else { s with wcnt := waitLeft n s - 1 }
  else { s with wcnt := waitLeft n s }

/-- `Complete()` (20_memory.md R59). -/
def complete (s : State) : State :=
  { s with
    rdata :=
      match (opcodeOf s.cmd).toNat with
      | 0x2 | 0x6 => s.buf
      | 0x8 | 0xD => 0#7 ++ BitVec.ofBool (s.buf.getLsbD 0)
      | _ => s.rdata
    busy := false
    done := true
    mpc := 0 }

/-- What the sequencer does in one cycle, the micro-ops still to run given: one micro-op, or one cycle
of a `WAIT`, or the completion. `WAIT(0)` takes no cycle (R58, R59, R95; R187). -/
def sequencerCycle : List MicroOp → State → State
  | [], s => complete s
  | .wait n :: rest, s =>
    if n = 0 then sequencerCycle rest (microOp (.wait 0) s) else waitCycle n s
  | .scl l :: _, s => microOp (.scl l) s
  | .sda l :: _, s => microOp (.sda l) s
  | .dir d :: _, s => microOp (.dir d) s
  | .smp :: _, s => microOp .smp s

/-- The micro-ops still to run (R58). -/
def State.remaining (s : State) : List MicroOp := s.prog.drop s.mpc

/-- The sequencer's part of a cycle that began with BUSY = `running` (60_exceptions.md R155: the
sequencer step follows the host access). -/
def sequencerPart (running : Bool) (s : State) : State :=
  if running then sequencerCycle s.remaining s else s

/-! ### Acceptance (20_memory.md R57, 60_exceptions.md R153) -/

/-- A command's row of R77 and R153, and the micro-program its rule gives. -/
structure Command where
  needsTimer : Bool
  needDir    : Option Dir
  prog       : List MicroOp
deriving DecidableEq, Repr

/-- Whether DATA's direction meets a requirement; `none` is "any" (R153). -/
def dirMeets (need : Option Dir) (d : Dir) : Bool :=
  match need with
  | none => true
  | some n => n == d

/-- `CheckCommand` of a word with a defined opcode: the first cause that applies, in the order BUSY,
TIMER, STATE (R153). -/
def checkCommand (c : Command) (s : State) : Option Cause :=
  if s.busy then some .busy
  else if c.needsTimer && !s.timerEn then some .timer
  else if !dirMeets c.needDir s.dir then some .state
  else none

/-- `CheckCommand` of a word with a reserved opcode: BUSY comes first (R153, 30_encoding.md R78). -/
def checkReserved (s : State) : Cause := if s.busy then .busy else .opcode

/-- Acceptance of the command word `w` (R57); the tick clock is 0 when its first micro-op runs
(00_scope.md R9). -/
def accept (w : Word) (c : Command) (s : State) : State :=
  { s with cmd := w, prog := c.prog, mpc := 0, busy := true, done := false, tick := 0 }

end Sys2Proof.Machine
end

