-- ==== Sys2Proof/Machine/MicroProgram.lean ====
section
/-! DEFINITION. The micro-programs (40_line_control.md R100 to R105, 41_codec.md R110 to R113,
42_transactions.md R130, R131, R140, R141), each command's acceptance row (60_exceptions.md R153), and
`Expand` (20_memory.md R57). -/

namespace Sys2Proof.Machine

/-! ### Micro-programs -/

/-- `WBIT(b)` (41_codec.md R110). -/
def wbit (b : Bool) : List MicroOp := [.scl false, .sda b, .wait 1, .scl true, .wait 1]

/-- `RBIT` (41_codec.md R111). -/
def rbit : List MicroOp := [.scl false, .wait 1, .scl true, .smp, .wait 1]

/-- `NINTH_W` (41_codec.md R112). -/
def ninthWrite : List MicroOp :=
  [.scl false, .wait 1, .dir .inp, .wait 1, .scl true, .dir .out, .wait 1]

/-- `WBYTE(v)`: bits 7 down to 0, then the don't-care cycle (41_codec.md R112). -/
def wbyte (v : Byte) : List MicroOp := (bitsOf v).flatMap wbit ++ ninthWrite

/-- `NINTH_R` (41_codec.md R113). -/
def ninthRead : List MicroOp := [.scl false, .dir .out, .sda true, .wait 1, .scl true, .wait 1]

/-- `RBYTE` (41_codec.md R113). -/
def rbyte : List MicroOp :=
  [.dir .inp] ++ rbit ++ rbit ++ rbit ++ rbit ++ rbit ++ rbit ++ rbit ++ rbit ++ ninthRead

/-- `STARTC` (42_transactions.md R130). -/
def startC : List MicroOp :=
  [.sda true, .scl true, .wait 1, .sda false, .wait 1, .scl false, .wait 1]

/-- `STOPC` (42_transactions.md R131). -/
def stopC : List MicroOp := [.sda false, .wait 1, .scl true, .wait 1, .sda true, .wait 1]

/-- `WREG(r, v)` (42_transactions.md R140). -/
def wreg (base : BitVec 7) (r v : Byte) : List MicroOp :=
  startC ++ wbyte (writeAddress base) ++ wbyte r ++ wbyte v ++ stopC

/-- `RREG(r)` (42_transactions.md R141). -/
def rreg (base : BitVec 7) (r : Byte) : List MicroOp :=
  startC ++ wbyte (writeAddress base) ++ wbyte r ++ startC ++ wbyte (readAddress base)
    ++ rbyte ++ stopC

/-! ### The commands -/

/-- WRITE_REG (42_transactions.md R140). -/
def writeRegCommand (base : BitVec 7) (r v : Byte) : Command := ⟨true, some .out, wreg base r v⟩

/-- READ_REG (42_transactions.md R141). -/
def readRegCommand (base : BitVec 7) (r : Byte) : Command := ⟨true, some .out, rreg base r⟩

/-- START (42_transactions.md R130). -/
def startCommand : Command := ⟨true, some .out, startC⟩

/-- STOP (42_transactions.md R131). -/
def stopCommand : Command := ⟨true, some .out, stopC⟩

/-- WRITE_BYTE (41_codec.md R112). -/
def writeByteCommand (v : Byte) : Command := ⟨true, some .out, wbyte v⟩

/-- READ_BYTE (41_codec.md R113). -/
def readByteCommand : Command := ⟨true, none, rbyte⟩

/-- WRITE_BIT (41_codec.md R110). -/
def writeBitCommand (b : Bool) : Command := ⟨true, some .out, wbit b⟩

/-- READ_BIT (41_codec.md R111). -/
def readBitCommand : Command := ⟨true, some .inp, rbit⟩

/-- IDLE (40_line_control.md R100). -/
def idleCommand : Command := ⟨false, none, [.dir .out, .scl true]⟩

/-- SET_CLK (40_line_control.md R101). -/
def setClkCommand (l : Bool) : Command := ⟨false, none, [.scl l]⟩

/-- SET_DATA (40_line_control.md R102). -/
def setDataCommand (l : Bool) : Command := ⟨false, some .out, [.sda l]⟩

/-- SET_DIR (40_line_control.md R103). -/
def setDirCommand (d : Dir) : Command := ⟨false, none, [.dir d]⟩

/-- SAMPLE (40_line_control.md R104). -/
def sampleCommand : Command := ⟨false, some .inp, [.smp]⟩

/-- DELAY (40_line_control.md R105). -/
def delayCommand (n : BitVec 16) : Command := ⟨true, none, [.wait n.toNat]⟩

/-- The command of an instruction, the device address being BASE at acceptance (20_memory.md R57). -/
def commandOf (i : Instr) (base : BitVec 7) : Command :=
  match i with
  | .writeReg r v => writeRegCommand base r v
  | .readReg r => readRegCommand base r
  | .start => startCommand
  | .stop => stopCommand
  | .writeByte v => writeByteCommand v
  | .readByte => readByteCommand
  | .writeBit b => writeBitCommand b
  | .readBit => readBitCommand
  | .idle => idleCommand
  | .setClk l => setClkCommand l
  | .setData l => setDataCommand l
  | .setDir d => setDirCommand d
  | .sample => sampleCommand
  | .delay n => delayCommand n

/-! ### The transaction state machine (42_transactions.md R143, 10_state.md R42) -/

/-- The source's per-transaction states. -/
inductive TState where
  | idle
  | started
  | addrSent
  | regSent
  | dataSent
  | restarted
  | readAddrSent
  | byteRead
  | stopped
deriving DecidableEq, Repr

/-- `tstate(S)`: a function of `busy`, `cmd[3:0]` and `mpc` (42_transactions.md R143). -/
def State.tstate (s : State) : TState :=
  if !s.busy then .idle
  else match (opcodeOf s.cmd).toNat with
    | 0x1 =>
      if s.mpc ≤ 6 then .idle
      else if s.mpc ≤ 53 then .started
      else if s.mpc ≤ 100 then .addrSent
      else if s.mpc ≤ 147 then .regSent
      else if s.mpc ≤ 153 then .dataSent
      else .stopped
    | 0x2 =>
      if s.mpc ≤ 6 then .idle
      else if s.mpc ≤ 53 then .started
      else if s.mpc ≤ 100 then .addrSent
      else if s.mpc ≤ 107 then .regSent
      else if s.mpc ≤ 154 then .restarted
      else if s.mpc ≤ 201 then .readAddrSent
      else if s.mpc ≤ 207 then .byteRead
      else .stopped
    | _ => .idle

/-! ### The exposed window (41_codec.md R119) -/

/-- Where the `WBYTE`s of the running command begin, as micro-op indices (R112, R140, R141). -/
def writeByteStarts (opc : BitVec 4) : List Nat :=
  match opc.toNat with
  | 0x1 => [7, 54, 101]
  | 0x2 => [7, 54, 108]
  | 0x5 => [0]
  | _ => []

/-- The exposed window: the micro-op the sequencer stands at is one of 42 to 44 of a `WBYTE`, counting
from 0 (41_codec.md R119). -/
def State.exposedWindow (s : State) : Bool :=
  s.busy && (writeByteStarts (opcodeOf s.cmd)).any fun k => k + 42 ≤ s.mpc && s.mpc ≤ k + 44

end Sys2Proof.Machine
end

