-- ==== Sys2Proof/Machine/Port.lean ====
section
/-! DEFINITION. The host port: the register window (20_memory.md R52 to R55), one `clk` cycle of the
whole block (60_exceptions.md R155, 70_reset_and_hazards.md R170, R187), and a command taken from
acceptance to completion as one step. -/

namespace Sys2Proof.Machine

/-! ### The pins (10_state.md R45) -/

/-- A cycle in which the host performs no access. -/
def PortIn.idle : PortIn := ⟨true, false, false, false, 0#5, 0#32⟩

/-- A cycle in which the host reads offset `off` (20_memory.md R53). -/
def PortIn.read (off : BitVec 5) : PortIn := ⟨true, true, true, false, off, 0#32⟩

/-- A cycle in which the host writes `v` to offset `off` (20_memory.md R53). -/
def PortIn.write (off : BitVec 5) (v : Word) : PortIn := ⟨true, true, true, true, off, v⟩

/-- A cycle in which `rst_n` is 0 (70_reset_and_hazards.md R170). -/
def PortIn.reset : PortIn := ⟨false, false, false, false, 0#5, 0#32⟩

/-- A host access. -/
inductive Access where
  | read (off : BitVec 5)
  | write (off : BitVec 5) (v : Word)
deriving DecidableEq, Repr

/-- The access a cycle performs: one where `psel` and `penable` are 1, a write where `pwrite` is 1
(20_memory.md R53). Host accesses have no effect in reset (R170). -/
def PortIn.access (p : PortIn) : Option Access :=
  if p.rstN && p.psel && p.penable then
    some (if p.pwrite then .write p.paddr p.pwdata else .read p.paddr)
  else none

/-- The word of the window an offset names: `paddr[1:0]` are ignored (20_memory.md R52). -/
def wordIndex (off : BitVec 5) : Nat := (off.extractLsb' 2 3).toNat

/-- The word a cycle writes to CMD, if it writes CMD (10_state.md R20, R28). -/
def PortIn.commandWrite (p : PortIn) : Option Word :=
  match p.access with
  | some (.write off v) => if wordIndex off = 3 then some v else none
  | _ => none

/-- The output pins of the state (10_state.md R36, R45). `pready` is tied to 1, `pslverr` to 0. -/
structure PortOut where
  sclO    : Bool
  sdaOe   : Bool
  sdaOut  : Bool
  pready  : Bool
  pslverr : Bool
deriving DecidableEq, Repr

/-- The output pins (10_state.md R36, R45). -/
def State.pins (s : State) : PortOut := ⟨s.sclO, s.sdaOe, s.lvl, true, false⟩

/-- The output pins in a cycle: a reset brings the lines to idle at once (70_reset_and_hazards.md R170,
R171). -/
def State.pinsDuring (p : PortIn) (s : State) : PortOut :=
  if p.rstN then s.pins else State.reset.pins

/-! ### The register window -/

/-- `zext_32(v)` of one bit, and the DEV_ADDR word `{8'h00, ar, aw, 1'b0, BASE}` (10_state.md R27). -/
def devAddrWord (s : State) : Word :=
  0#8 ++ readAddress s.base ++ writeAddress s.base ++ 0#1 ++ s.base

/-- The PARAM word: TICK_COUNTS and VERSION = 0x01 (10_state.md R31). -/
def paramWord : Word := 0#8 ++ 0x01#8 ++ BitVec.ofNat 16 Config.tickCounts

/-- `MemRead(off)` (20_memory.md R54). -/
def memRead (off : BitVec 5) (s : State) : Word :=
  match wordIndex off with
  | 0 => 0#31 ++ BitVec.ofBool s.timerEn
  | 1 => statusWord s
  | 2 => devAddrWord s
  | 4 => 0#24 ++ s.rdata
  | 5 => s.tmr
  | 6 => paramWord
  | _ => 0#32

/-- `prdata` in a cycle: 0 in reset (70_reset_and_hazards.md R170), the word of the window in the cycle of
a read (20_memory.md R54). The spec gives it no value in any other cycle (log 12). -/
def prdata (p : PortIn) (s : State) : Option Word :=
  if p.rstN then
    match p.access with
    | some (.read off) => some (memRead off s)
    | _ => none
  else some 0#32

/-- `IssueCommand(w)` (20_memory.md R57, 60_exceptions.md R153). -/
def issueCommand (w : Word) (s : State) : State :=
  match decode w with
  | .reservedOpcode _ => refuse (checkReserved s) s
  | .instr i =>
    match checkCommand (commandOf i s.base) s with
    | some c => refuse c s
    | none => accept w (commandOf i s.base) s

/-- `MemWrite(off, v)` (20_memory.md R55). -/
def memWrite (off : BitVec 5) (v : Word) (s : State) : State :=
  match wordIndex off with
  | 0 => if s.busy then refuse .busy s else { s with timerEn := v.getLsbD 0 }
  | 1 => clearFlags v s
  | 2 => if s.busy then refuse .busy s else { s with base := v.extractLsb' 0 7 }
  | 3 => issueCommand v s
  | _ => s

/-- The host's part of a cycle (20_memory.md R53 to R55). A read changes nothing but the model's record
of what was read. -/
def hostAccess (p : PortIn) (s : State) : State :=
  match p.access with
  | none => s
  | some (.read off) => { s with reads := s.reads ++ [memRead off s] }
  | some (.write off v) => memWrite off v { s with pwdata := v }

/-! ### One `clk` cycle -/

/-- A cycle in which `rst_n` is 0: every state element holds its reset value (70_reset_and_hazards.md
R170, R171). The observer's record and the inputs to come are not the block's (log 8). -/
def resetCycle (s : State) : State :=
  { State.reset with
    trace := s.trace, now := s.now + 1, host := s.host, reads := s.reads, pwdata := s.pwdata }

/-- One `clk` cycle: the host access against the state at its start, then the sequencer step of a
command that was already running, then the timer and the synchronizer (60_exceptions.md R155, 92 D33).
-/
def cycle (p : PortIn) (s : State) : State :=
  if p.rstN then advance 1 s (sequencerPart s.busy (hostAccess p s)) else resetCycle s

/-- The cycles of a list of port activity, one after the other. -/
def runCycles (ps : List PortIn) (s : State) : State := ps.foldl (fun s p => cycle p s) s

/-! ### A command from acceptance to completion (70_reset_and_hazards.md R187: "the functional model
may take each command as one atomic step from acceptance to completion") -/

/-- A micro-op with all its cycles, no host access falling in them. -/
def timedOp (op : MicroOp) (s : State) : State :=
  match op with
  | .wait n => advance (waitLeft n s) s (microOp (.wait n) s)
  | op => advance 1 s (microOp op s)

/-- Micro-ops in list order, with nothing between them (20_memory.md R58). -/
def runOps (ops : List MicroOp) (s : State) : State := ops.foldl (fun s op => timedOp op s) s

/-- The completion with its cycle (20_memory.md R59). -/
def completeCycle (s : State) : State := advance 1 s (complete s)

/-- The rest of the running command, no host access falling in its cycles. -/
def finish (s : State) : State := completeCycle (runOps s.remaining s)

/-- The rest of the running command while the host port carries `ps` and is idle after it: cycle by
cycle while there is port activity. It stops at the completion, or at a reset (R171), and leaves what
is left of `ps` to the next step. -/
def drain : List PortIn → State → State
  | [], s => if s.busy then finish s else s
  | p :: ps, s => if s.busy then drain ps (cycle p { s with host := ps }) else s

/-- The host writes the word of `i` to CMD in this cycle: the refusal R153 asks for, or acceptance and
then the whole command, up to its completion (20_memory.md R57 to R59). -/
def runCommand (i : Instr) (c : Command) (s : State) : State :=
  match checkCommand c s with
  | some cause => advance 1 s (sequencerPart s.busy (refuse cause s))
  | none => drain s.host (advance 1 s (accept (commandWord i s) c s))

end Sys2Proof.Machine
end

