-- ==== Sys2Proof/Machine/Codec.lean ====
section
/-! DEFINITION. The bit and byte codec commands (41_codec.md R110 to R113). -/

namespace Sys2Proof.Machine

/-- WRITE_BIT (41_codec.md R110). -/
def execWriteBit (b : Bool) (s : State) : Host.Outcome State Fault Refusal :=
  .next (runCommand (.writeBit b) (writeBitCommand b) s)

/-- READ_BIT: RDATA gets the sampled bit (41_codec.md R111). -/
def execReadBit (s : State) : Host.Outcome State Fault Refusal :=
  .next (runCommand .readBit readBitCommand s)

/-- WRITE_BYTE: eight bits MSB first, then the don't-care cycle (41_codec.md R112). -/
def execWriteByte (v : Byte) (s : State) : Host.Outcome State Fault Refusal :=
  .next (runCommand (.writeByte v) (writeByteCommand v) s)

/-- READ_BYTE: RDATA gets the assembled byte (41_codec.md R113, R114). -/
def execReadByte (s : State) : Host.Outcome State Fault Refusal :=
  .next (runCommand .readByte readByteCommand s)

end Sys2Proof.Machine
end

