-- ==== Sys2Proof/Machine/LineControl.lean ====
section
/-! DEFINITION. The line-level commands (40_line_control.md R100 to R105). -/

namespace Sys2Proof.Machine

/-- IDLE: DATA to output, released, then CLOCK high (40_line_control.md R100). -/
def execIdle (s : State) : Host.Outcome State Fault Refusal := .next (runCommand .idle idleCommand s)

/-- SET_CLK (40_line_control.md R101). -/
def execSetClk (level : Bool) (s : State) : Host.Outcome State Fault Refusal :=
  .next (runCommand (.setClk level) (setClkCommand level) s)

/-- SET_DATA (40_line_control.md R102). -/
def execSetData (level : Bool) (s : State) : Host.Outcome State Fault Refusal :=
  .next (runCommand (.setData level) (setDataCommand level) s)

/-- SET_DIR (40_line_control.md R103). -/
def execSetDir (d : Dir) (s : State) : Host.Outcome State Fault Refusal :=
  .next (runCommand (.setDir d) (setDirCommand d) s)

/-- SAMPLE: RDATA gets the sampled bit (40_line_control.md R104). -/
def execSample (s : State) : Host.Outcome State Fault Refusal :=
  .next (runCommand .sample sampleCommand s)

/-- DELAY (40_line_control.md R105). -/
def execDelay (n : BitVec 16) (s : State) : Host.Outcome State Fault Refusal :=
  .next (runCommand (.delay n) (delayCommand n) s)

end Sys2Proof.Machine
end

