-- ==== Sys2Proof/Machine/Transaction.lean ====
section
/-! DEFINITION. The conditions and the transactions (42_transactions.md R130, R131, R140, R141). -/

namespace Sys2Proof.Machine

/-- START (42_transactions.md R130). -/
def execStart (s : State) : Host.Outcome State Fault Refusal :=
  .next (runCommand .start startCommand s)

/-- STOP (42_transactions.md R131). -/
def execStop (s : State) : Host.Outcome State Fault Refusal :=
  .next (runCommand .stop stopCommand s)

/-- WRITE_REG, with the device address BASE holds at acceptance (42_transactions.md R140). -/
def execWriteReg (r v : Byte) (s : State) : Host.Outcome State Fault Refusal :=
  .next (runCommand (.writeReg r v) (writeRegCommand s.base r v) s)

/-- READ_REG, with the device address BASE holds at acceptance; RDATA gets the byte read
(42_transactions.md R141). -/
def execReadReg (r : Byte) (s : State) : Host.Outcome State Fault Refusal :=
  .next (runCommand (.readReg r) (readRegCommand s.base r) s)

end Sys2Proof.Machine
end

