-- ==== Sys2Proof/Machine/Dispatch.lean ====
section
/-! DEFINITION. One arm for each command of SCCB-CMD (30_encoding.md R77). -/

namespace Sys2Proof.Machine

def exec (i : Instr) (s : State) : Host.Outcome State Fault Refusal :=
  match i with
  | .writeReg r v => Sys2Proof.Machine.execWriteReg r v s
  | .readReg r => Sys2Proof.Machine.execReadReg r s
  | .start => Sys2Proof.Machine.execStart s
  | .stop => Sys2Proof.Machine.execStop s
  | .writeByte v => Sys2Proof.Machine.execWriteByte v s
  | .readByte => Sys2Proof.Machine.execReadByte s
  | .writeBit b => Sys2Proof.Machine.execWriteBit b s
  | .readBit => Sys2Proof.Machine.execReadBit s
  | .idle => Sys2Proof.Machine.execIdle s
  | .setClk level => Sys2Proof.Machine.execSetClk level s
  | .setData level => Sys2Proof.Machine.execSetData level s
  | .setDir d => Sys2Proof.Machine.execSetDir d s
  | .sample => Sys2Proof.Machine.execSample s
  | .delay n => Sys2Proof.Machine.execDelay n s

end Sys2Proof.Machine
end

