-- ==== Sys2Proof/Machine/Step.lean ====
section
/-! DEFINITION. One step: what the host port carries next, with everything the block does about it. -/

namespace Sys2Proof.Machine

/-- One step. A write of a command's word to CMD runs that command (20_memory.md R57 to R59,
70_reset_and_hazards.md R187; log 2). Anything else, a cycle of reset and a reserved opcode included,
is one `clk` cycle. With no port activity to come, the port is idle. -/
def step (s : State) : Host.Outcome State Fault Refusal :=
  match s.host with
  | [] => .next (cycle PortIn.idle s)
  | p :: ps =>
    match p.commandWrite with
    | none => .next (cycle p { s with host := ps })
    | some w =>
      match decode w with
      | .instr i => exec i { s with host := ps, pwdata := w }
      | .reservedOpcode _ => .next (cycle p { s with host := ps })

/-- The host's next access is a write of the word `w` to CMD (20_memory.md R65: "A command is the word
written to CMD"). Its bits from `nbits` on are 0. -/
def State.withFetchWord (s : State) (nbits w : Nat) : State :=
  { s with host := PortIn.write 0x0C#5 (BitVec.ofNat 32 (w % 2 ^ nbits)) :: s.host }

end Sys2Proof.Machine
end

