-- ==== Sys2Proof/Machine/HostProgram.lean ====
section
/-! DEFINITION. Host programs: the statements of 30_encoding.md R82 and the pseudo-instructions of R83.
Labels and branches are the host's own control flow, outside the block (R82). -/

namespace Sys2Proof.Machine

/-- The named words of the window (10_state.md R20). -/
inductive HostReg where
  | ctrl
  | status
  | devAddr
  | cmd
  | rdata
  | timer
  | param
deriving DecidableEq, Repr

/-- `offset(NAME)` (10_state.md R20). -/
def HostReg.offset : HostReg → BitVec 5
  | .ctrl => 0x00#5
  | .status => 0x04#5
  | .devAddr => 0x08#5
  | .cmd => 0x0C#5
  | .rdata => 0x10#5
  | .timer => 0x14#5
  | .param => 0x18#5

/-- A host statement (R82). `poll` is R83's `WAIT`: read STATUS until BUSY = 0. -/
inductive HostStmt where
  | wr (r : HostReg) (v : Word)
  | rd (r : HostReg)
  | poll
deriving DecidableEq, Repr

/-- A command of R81 as a host statement: `wr CMD, encoding` (R82). -/
def HostStmt.command (i : Instr) : HostStmt := .wr .cmd (encode i)

/-- The pseudo-instructions of R83. -/
inductive Pseudo where
  | timerOn
  | timerOff
  | setAddr (base : BitVec 7)
  | clear
  | wait
  | doCommand (i : Instr)
  | wreg (r v : Byte)
  | rreg (r : Byte)
deriving DecidableEq, Repr

/-- `DO c` (R83). -/
def doStmts (i : Instr) : List HostStmt := [.wr .status 0x00000002#32, .command i, .poll]

/-- The expansion column of R83. -/
def Pseudo.expand : Pseudo → List HostStmt
  | .timerOn => [.wr .ctrl 0x00000001#32]
  | .timerOff => [.wr .ctrl 0x00000000#32]
  | .setAddr base => [.wr .devAddr (0#25 ++ base)]
  | .clear => [.wr .status 0x0000003E#32]
  | .wait => [.poll]
  | .doCommand i => doStmts i
  | .wreg r v => doStmts (.writeReg r v)
  | .rreg r => doStmts (.readReg r) ++ [.rd .rdata]

/-! ### Running host statements

The block sees a host program cycle by cycle, one access a cycle (20_memory.md R53, R61), so a statement is
`cycle`s and can fall in the middle of a command. When the host makes its accesses is open
(93_implementation_defined.md U21): `gaps` gives the idle cycles before each access to come, and after its
end the accesses come back to back (log 18). -/

/-- The idle cycles before the host's next access. -/
def beforeAccess (gaps : List Nat) (s : State) : State :=
  runCycles (List.replicate (gaps.headD 0) PortIn.idle) s

/-- The `clk` cycles the running command has still to take (70_reset_and_hazards.md R187). -/
def State.cyclesLeft (s : State) : Nat := if s.busy then (finish s).now - s.now else 0

/-- R83's `WAIT`: read STATUS, again while the word read has BUSY = 1, `k` reads at most. `none`: all `k`
of them had BUSY = 1. -/
def pollStatus : Nat → List Nat → State → Option (List Nat × State)
  | 0, _, _ => none
  | k + 1, gaps, s =>
    let a := beforeAccess gaps s
    let t := cycle (PortIn.read HostReg.status.offset) a
    if (memRead HostReg.status.offset a).getLsbD 0 then pollStatus k gaps.tail t
    else some (gaps.tail, t)

/-- One host statement (R82), with the gaps that are left after it. A `WAIT` reads once for each cycle the
command may still take and once more, so `none` is a `WAIT` without an end; R186 rules it out (log 18). -/
def HostStmt.run (h : HostStmt) (gaps : List Nat) (s : State) : Option (List Nat × State) :=
  match h with
  | .wr r v => some (gaps.tail, cycle (PortIn.write r.offset v) (beforeAccess gaps s))
  | .rd r => some (gaps.tail, cycle (PortIn.read r.offset) (beforeAccess gaps s))
  | .poll => pollStatus (s.cyclesLeft + 1) gaps s

/-- Host statements one after the other. -/
def runStmts : List HostStmt → List Nat → State → Option (List Nat × State)
  | [], gaps, s => some (gaps, s)
  | h :: hs, gaps, s =>
    match h.run gaps s with
    | none => none
    | some (left, t) => runStmts hs left t

end Sys2Proof.Machine
end

