-- ==== Sys2Proof/Machine/Trace.lean ====
section
/-! DEFINITION. Reading the line trace: transitions, edges, signatures, samples, tick spacing
(00_scope.md R11, R13, 41_codec.md R114 to R117, 42_transactions.md R132, R147). -/

namespace Sys2Proof.Machine

/-- The two observed line values, CLOCK `scl_o` and the controller's DATA output `sda_o` (R11). -/
structure Lines where
  scl : Bool
  sda : Bool
deriving DecidableEq, Repr

/-- The lines as the state drives them. -/
def State.lines (s : State) : Lines := ⟨s.sclO, s.sdaO⟩

/-- Both lines high (00_scope.md R13, "idle"). -/
def Lines.idle : Lines := ⟨true, true⟩

/-- The lines after an event (R11). -/
def linesAfter (e : Event) : Lines := ⟨e.scl, e.sda⟩

/-- A transition: the event changes `scl_o` or `sda_o` (R11). `l` is the lines before it. -/
def isTransition (l : Lines) (e : Event) : Bool := l.scl != e.scl || l.sda != e.sda

/-- A logical transition: one of `scl_o`, or one of `sda_o` while `scl_o = 1` (R11; 90 C3). -/
def isLogical (l : Lines) (e : Event) : Bool := l.scl != e.scl || (l.sda != e.sda && e.scl)

/-- A rising edge: `scl_o` from 0 to 1 (R11). -/
def isRisingEdge (l : Lines) (e : Event) : Bool := !l.scl && e.scl

/-- A falling edge: `scl_o` from 1 to 0 (41_codec.md R117). -/
def isFallingEdge (l : Lines) (e : Event) : Bool := l.scl && !e.scl

/-- A Start signature: `sda_o` from 1 to 0 while `scl_o = 1` (42_transactions.md R132). -/
def isStartSignature (l : Lines) (e : Event) : Bool := l.scl && e.scl && l.sda && !e.sda

/-- A Stop signature: `sda_o` from 0 to 1 while `scl_o = 1` (42_transactions.md R132). -/
def isStopSignature (l : Lines) (e : Event) : Bool := l.scl && e.scl && !l.sda && e.sda

/-- The events of a trace that `f` picks, the lines before each event given to it; `l` is the lines
before the first one. -/
def pick (f : Lines → Event → Bool) : Lines → List Event → List Event
  | _, [] => []
  | l, e :: es => if f l e then e :: pick f (linesAfter e) es else pick f (linesAfter e) es

/-- The ticks at which `f` picks an event. -/
def ticksOf (f : Lines → Event → Bool) (l : Lines) (es : List Event) : List Nat :=
  (pick f l es).map (·.t)

/-- The controller's DATA output at each rising edge (41_codec.md R115). -/
def levelsAtRisingEdges (l : Lines) (es : List Event) : List Bool :=
  (pick isRisingEdge l es).map (·.sda)

/-- Each tick is at least one later than the one before. -/
def spaced : List Nat → Bool
  | t1 :: t2 :: ts => t1 + 1 ≤ t2 && spaced (t2 :: ts)
  | _ => true

/-- Any two consecutive logical transitions are at least one tick apart (42_transactions.md R147). -/
def tickSpaced (l : Lines) (es : List Event) : Bool := spaced (ticksOf isLogical l es)

/-- The bits the `SMP`s of a trace read, in order (40_line_control.md R94). -/
def samples (es : List Event) : List Bool :=
  es.filterMap fun e => match e.op with
    | .smp b => some b
    | _ => none

/-- Bits assembled MSB first into a byte (41_codec.md R114). -/
def byteOf (bits : List Bool) : Byte := bits.foldl shiftIn 0#8

/-- `decode` of 41_codec.md R116 with no device pulling DATA low: the levels at the first eight rising
edges, MSB first. -/
def byteOnWire (l : Lines) (es : List Event) : Byte := byteOf ((levelsAtRisingEdges l es).take 8)

end Sys2Proof.Machine
end

