-- ==== Sys2Proof/Safety.lean ====
section
/-! DEFINITION. What a sound state is and what a safe run is, in the terms the statements use. -/

namespace Sys2Proof.Machine

/-- Every `SDA` of a micro-program begun with direction `d` runs with `dir = OUT` and every `SMP` with
`dir = IN` (40_line_control.md R96). -/
def opsOk : Dir → List MicroOp → Bool
  | _, [] => true
  | d, .sda _ :: ops => d == .out && opsOk d ops
  | d, .smp :: ops => d == .inp && opsOk d ops
  | _, .dir d :: ops => opsOk d ops
  | d, .scl _ :: ops => opsOk d ops
  | d, .wait _ :: ops => opsOk d ops

/-- A micro-program contains a `WAIT` (60_exceptions.md R153). -/
def hasWait (ops : List MicroOp) : Bool :=
  ops.any fun op => match op with
    | .wait _ => true
    | _ => false

/-- What holds in every state a run reaches. -/
structure State.Inv (s : State) : Prop where
  /-- `dir = IN` implies `lvl = 1` (10_state.md R34). -/
  released : s.dir = .inp → s.lvl = true
  /-- `PRE` counts from 0 to `TIMER_DIV - 1` (10_state.md R41). -/
  preBound : s.pre < Config.timerDiv
  /-- `mpc` indexes `prog`, whose longest is READ_REG's (10_state.md R38). -/
  mpcBound : s.mpc ≤ s.prog.length
  progBound : s.prog.length ≤ 208
  /-- `mpc` and `wcnt` are 0 with no command running (20_memory.md R59, 40_line_control.md R95). -/
  atRest : s.busy = false → s.mpc = 0 ∧ s.wcnt = 0
  /-- `prog` is what the rule of the accepted command gives for the BASE now held: the address cannot
  change inside a transaction (10_state.md R37, R27). -/
  progOfCmd : s.busy = true →
    ∃ i, decode s.cmd = .instr i ∧ s.prog = (commandOf i s.base).prog
  /-- The preconditions of the micro-ops still to run hold (40_line_control.md R96). -/
  preconditions : s.busy = true → opsOk s.dir s.remaining = true
  /-- The timer runs while a command that waits does (40_line_control.md R90). -/
  timerRuns : s.busy = true → hasWait s.prog = true → s.timerEn = true
  /-- The down-counter is the rest of the `WAIT` the sequencer stands at (40_line_control.md R95). -/
  waiting : s.wcnt ≠ 0 →
    ∃ n, s.remaining.head? = some (.wait n) ∧ s.wcnt < waitCycles n

/-- `rst_n` stays 1 in all the port activity to come (70_reset_and_hazards.md R171: reset is the only
way to stop an accepted command). -/
def NoReset (ps : List PortIn) : Prop := ∀ p ∈ ps, p.rstN = true

/-- The state without what the host can change while BUSY = 1: the W1C flags, what it has read, its
port and its coming activity (20_memory.md R60). -/
def State.blockPart (s : State) : State :=
  { s with
    done := false, errBusy := false, errOpcode := false, errTimer := false, errState := false
    host := [], pwdata := 0#32, reads := [] }

/-- OPS of 70_reset_and_hazards.md R187: the micro-ops of a command that are no `WAIT`. -/
def commandOps : Instr → Nat
  | .writeReg _ _ => 91
  | .readReg _ => 124
  | .start => 4
  | .stop => 3
  | .writeByte _ => 28
  | .readByte => 29
  | .writeBit _ => 3
  | .readBit => 3
  | .idle => 2
  | .setClk _ | .setData _ | .setDir _ | .sample => 1
  | .delay _ => 0

/-- TICKS of 70_reset_and_hazards.md R187. -/
def commandTicks : Instr → Nat
  | .writeReg _ _ => 63
  | .readReg _ => 84
  | .start => 3
  | .stop => 3
  | .writeByte _ => 19
  | .readByte => 18
  | .writeBit _ => 2
  | .readBit => 2
  | .idle | .setClk _ | .setData _ | .setDir _ | .sample => 0
  | .delay n => n.toNat

/-- `D = OPS + TICKS * TICK_COUNTS * TIMER_DIV + 1`: the cycles in which BUSY reads 1 (R187). -/
def busyCycles (i : Instr) : Nat :=
  commandOps i + commandTicks i * Config.tickCounts * Config.timerDiv + 1

/-- The trace event of a micro-op names that micro-op (40_line_control.md R91 to R95). -/
def eventOf (op : MicroOp) (e : Event) : Bool :=
  match op, e.op with
  | .scl l, .scl => e.scl == l
  | .sda l, .sda => e.sda == l
  | .dir d, .dir => e.dir == d && e.sda
  | .smp, .smp _ => true
  | .wait n, .wait m => n == m
  | _, _ => false

/-- What every command leaves when it has completed, its lines, RDATA and `buf` apart: BUSY and DONE
(20_memory.md R59), the latched word and its program (R57), and what no command changes: TIMER_EN,
BASE (R60) and, with no port activity of the host's, the error flags (10_state.md R25). The latched word is
the one on the write port or, where `exec` is called by itself, the encoding (`commandWord`, log 10); that
`cmd` and `prog` are kept after the completion is log 16. -/
structure CommandDone (i : Instr) (s t : State) : Prop where
  busy : t.busy = false
  done : t.done = true
  mpc : t.mpc = 0
  cmd : t.cmd = commandWord i s
  prog : t.prog = (commandOf i s.base).prog
  timerEn : t.timerEn = s.timerEn
  base : t.base = s.base
  quiet : s.host = [] → t.errBusy = s.errBusy ∧ t.errOpcode = s.errOpcode ∧
    t.errTimer = s.errTimer ∧ t.errState = s.errState ∧ t.reads = s.reads ∧ t.host = []

/-- The commands of 60_exceptions.md R153 with "needs timer". -/
def timerCommands : Instr → Bool
  | .writeReg _ _ | .readReg _ | .start | .stop | .writeByte _ | .readByte | .writeBit _ | .readBit
  | .delay _ => true
  | .idle | .setClk _ | .setData _ | .setDir _ | .sample => false

/-- The commands of 60_exceptions.md R153 with "DATA direction required" OUT. -/
def outCommands : Instr → Bool
  | .writeReg _ _ | .readReg _ | .start | .stop | .writeByte _ | .writeBit _ | .setData _ => true
  | .readByte | .readBit | .idle | .setClk _ | .setDir _ | .sample | .delay _ => false

/-- The commands of 60_exceptions.md R153 with "DATA direction required" IN. -/
def inpCommands : Instr → Bool
  | .readBit | .sample => true
  | .writeReg _ _ | .readReg _ | .start | .stop | .writeByte _ | .readByte | .writeBit _ | .idle
  | .setClk _ | .setData _ | .setDir _ | .delay _ => false

/-- A command would be accepted: no check of 60_exceptions.md R153 refuses it. -/
def Accepted (i : Instr) (s : State) : Prop :=
  s.busy = false ∧ (timerCommands i = true → s.timerEn = true) ∧
    (outCommands i = true → s.dir = .out) ∧ (inpCommands i = true → s.dir = .inp)

/-- The transitions of the source's state machine (42_transactions.md R143). -/
def tstateEdges : List (TState × TState) :=
  [(.idle, .started), (.started, .addrSent), (.addrSent, .regSent), (.regSent, .dataSent),
   (.dataSent, .stopped), (.regSent, .restarted), (.restarted, .readAddrSent),
   (.readAddrSent, .byteRead), (.byteRead, .stopped), (.stopped, .idle)]

/-- The number of error flags that are 1. -/
def errorFlags (s : State) : Nat :=
  s.errBusy.toNat + s.errOpcode.toNat + s.errTimer.toNat + s.errState.toNat

/-- A safe step: the machine goes on. -/
def Safe (s : State) : Prop := ∃ t, step s = .next t

/-- The bus is idle and DATA is an output (42_transactions.md R144). -/
def State.busIdle (s : State) : Prop := s.sclO = true ∧ s.dir = .out ∧ s.lvl = true

end Sys2Proof.Machine
end

