-- ==== Sys2Proof/Certificates/Slice0/Obligations.lean ====
section
/-! DEFINITION. The statements about SCCB-BB, for the provers. Each docstring names the rules of spec/
it formalises. `OBLIGATIONS.json` lists them. -/

open Sys2Proof Sys2Proof.Machine

/-! ### Encoding -/

/-- Words of 95_test_vectors.md section 2, and of each family's rule, decode to their commands
(30_encoding.md R77, R78, R79, R81). -/
def Obligations.SpecWordsDecode : Prop :=
  decode 0x00000000#32 = .reservedOpcode 0x0#4 ∧
  decode 0xFFFFFFFF#32 = .reservedOpcode 0xF#4 ∧
  decode 0x12345671#32 = .instr (.writeReg 0x56#8 0x34#8) ∧
  decode 0x00000A02#32 = .instr (.readReg 0x0A#8) ∧
  decode 0xFFFFFFF3#32 = .instr .start ∧
  decode 0x00001234#32 = .instr .stop ∧
  decode 0x0000A505#32 = .instr (.writeByte 0xA5#8) ∧
  decode 0x00000006#32 = .instr .readByte ∧
  decode 0x0000FE07#32 = .instr (.writeBit false) ∧
  decode 0x00000008#32 = .instr .readBit ∧
  decode 0x00000009#32 = .instr .idle ∧
  decode 0x0000010A#32 = .instr (.setClk true) ∧
  decode 0x0000000B#32 = .instr (.setData false) ∧
  decode 0x0000020C#32 = .instr (.setDir .inp) ∧
  decode 0x0000000D#32 = .instr .sample ∧
  decode 0x00FFFF0E#32 = .instr (.delay 0xFFFF#16)

/-- Decoding a command's encoding gives the command back, every operand at every value
(30_encoding.md R71 to R77, R81). -/
def Obligations.EncodeThenDecode : Prop :=
  ∀ i : Instr, decode (encode i) = .instr i

/-- A word decodes to a command exactly when the bits its format uses are those of the encoding: a
reserved bit changes nothing, a used bit always counts (30_encoding.md R79). -/
def Obligations.ReservedBitsIgnored : Prop :=
  ∀ (w : Word) (i : Instr), decode w = .instr i ↔ w &&& i.usedBits = encode i

/-- Every word is one of the 14 commands or a reserved opcode, and `w[3:0]` alone decides which
(30_encoding.md R80, R78). -/
def Obligations.DecodingIsTotal : Prop :=
  ∀ w : Word,
    (decode w = .reservedOpcode (opcodeOf w) ∧ (opcodeOf w = 0x0#4 ∨ opcodeOf w = 0xF#4)) ∨
    (opcodeOf w ≠ 0x0#4 ∧ opcodeOf w ≠ 0xF#4 ∧
      ∃ i, decode w = .instr i ∧ i.opcode = opcodeOf w)

/-- The assembler refuses exactly the commands with an operand out of range, and never truncates: what
it accepts reads back as written, and its word decodes to it. It accepts every command, every operand at
every value of its range (30_encoding.md R81). -/
def Obligations.AssemblerNeverTruncates : Prop :=
  (∀ c : AsmCommand,
    (c.assemble = none ↔ c.wellFormed = false) ∧
    ∀ i, c.assemble = some i → i.toAsm = c ∧ i.wellFormed = true ∧ decode (encode i) = .instr i) ∧
  ∀ i : Instr, i.toAsm.assemble = some i

/-! ### Steps and the host port -/

/-- A write of a command's word to CMD at the head of the port's activity: the step is `exec` of that
command, the activity moved on and the word on the write port; that a step is cut so is the model's choice,
log 21 (20_memory.md R57, R65). -/
def Obligations.StepRunsTheDecodedCommand : Prop :=
  ∀ (s : State) (p : PortIn) (ps : List PortIn) (w : Word) (i : Instr),
    s.host = p :: ps → p.commandWrite = some w → decode w = .instr i →
    step s = exec i { s with host := ps, pwdata := w }

/-- A step always gives a next state: nothing on the port or on the bus stops the block
(60_exceptions.md R150, 93_implementation_defined.md section 1). -/
def Obligations.NoStepStops : Prop := ∀ s : State, Safe s

/-- The register window's reads, word by word and field by field; bits 1:0 of the offset do not count, and
a read has no side effect (20_memory.md R54, 10_state.md R21, R22, R26 to R32). -/
def Obligations.RegisterReads : Prop :=
  ∀ s : State,
    (memRead 0x00#5 s).getLsbD 0 = s.timerEn ∧
    (∀ k, 1 ≤ k → (memRead 0x00#5 s).getLsbD k = false) ∧
    (memRead 0x04#5 s).getLsbD 0 = s.busy ∧
    (memRead 0x04#5 s).getLsbD 1 = s.done ∧
    (memRead 0x04#5 s).getLsbD 2 = s.errBusy ∧
    (memRead 0x04#5 s).getLsbD 3 = s.errOpcode ∧
    (memRead 0x04#5 s).getLsbD 4 = s.errTimer ∧
    (memRead 0x04#5 s).getLsbD 5 = s.errState ∧
    (memRead 0x04#5 s).getLsbD 6 = false ∧
    (memRead 0x04#5 s).getLsbD 7 = false ∧
    (memRead 0x04#5 s).getLsbD 8 = s.sclO ∧
    (memRead 0x04#5 s).getLsbD 9 = s.sdaO ∧
    (memRead 0x04#5 s).getLsbD 10 = s.sync1 ∧
    (memRead 0x04#5 s).getLsbD 11 = (s.dir == .out) ∧
    (memRead 0x04#5 s).getLsbD 12 = s.lvl ∧
    (∀ k, 13 ≤ k → (memRead 0x04#5 s).getLsbD k = false) ∧
    (memRead 0x08#5 s).extractLsb' 0 7 = s.base ∧
    (memRead 0x08#5 s).getLsbD 7 = false ∧
    (memRead 0x08#5 s).extractLsb' 8 8 = s.base ++ 0#1 ∧
    (memRead 0x08#5 s).extractLsb' 16 8 = s.base ++ 1#1 ∧
    (memRead 0x08#5 s).extractLsb' 24 8 = 0#8 ∧
    memRead 0x0C#5 s = 0#32 ∧
    memRead 0x10#5 s = s.rdata.setWidth 32 ∧
    memRead 0x14#5 s = s.tmr ∧
    (memRead 0x18#5 s).toNat = Config.tickCounts + 0x00010000 ∧
    memRead 0x1C#5 s = 0#32 ∧
    (∀ off : BitVec 5, memRead off s = memRead (off &&& 0x1C#5) s) ∧
    ∀ off : BitVec 5, cycle (PortIn.read off) s =
      { cycle PortIn.idle s with reads := s.reads ++ [memRead off s] }

/-- Bits 1:0 of the offset are ignored, in reads and in writes, and no access reports an error
(20_memory.md R52). -/
def Obligations.AccessIgnoresLowOffsetBits : Prop :=
  ∀ (s : State) (p : PortIn) (off : BitVec 5),
    off.extractLsb' 2 3 = p.paddr.extractLsb' 2 3 →
    cycle { p with paddr := off } s = cycle p s ∧
      (cycle p s).pins.pslverr = false ∧ (cycle p s).pins.pready = true

/-- A host read has no side effect: the cycle is the idle cycle, and the host has the word the window
holds at the cycle's start. Any other cycle without a write is the idle cycle. The idle cycle with BUSY = 0
changes only PRE, TMR, the synchronizer's stages and the model's cycle number: the lines hold what the last
command left, each flag is sticky, every register keeps its value. How PRE, TMR and the stages move is log 6
(20_memory.md R54, R61, 10_state.md R23, R25, 60_exceptions.md R166). -/
def Obligations.HostReadsChangeNothing : Prop :=
  (∀ (s : State) (ps : List PortIn) (off : BitVec 5),
    s.host = PortIn.read off :: ps →
    step s = .next { cycle PortIn.idle { s with host := ps } with
      reads := s.reads ++ [memRead off s] }) ∧
  (∀ (s : State) (p : PortIn) (ps : List PortIn),
    s.host = p :: ps → p.rstN = true → p.access = none →
    step s = .next (cycle PortIn.idle { s with host := ps })) ∧
  (∀ s : State, s.host = [] → step s = .next (cycle PortIn.idle s)) ∧
  ∀ s : State, s.busy = false →
    cycle PortIn.idle s =
      { s with
        pre := (timerAfter 1 s).1, tmr := (timerAfter 1 s).2
        sync0 := s.wire 0, sync1 := s.sync0, now := s.now + 1 }

/-- A write to CTRL with no command running stores bit 0 in TIMER_EN and changes nothing else; the
timer's counters are not reset. That PRE and TMR of the write's cycle are those of the idle cycle, counting
with the old TIMER_EN, is the model's choice, log 6 (20_memory.md R55, 10_state.md R21,
40_line_control.md R90). -/
def Obligations.CtrlWriteSetsTimerEn : Prop :=
  ∀ (s : State) (ps : List PortIn) (v : Word),
    s.host = PortIn.write 0x00#5 v :: ps → s.busy = false →
    step s = .next { cycle PortIn.idle { s with host := ps } with
      timerEn := v.getLsbD 0, pwdata := v }

/-- A write to DEV_ADDR with no command running stores bits 6:0 in BASE and changes nothing else
(20_memory.md R55, 10_state.md R27). -/
def Obligations.DevAddrWriteSetsBase : Prop :=
  ∀ (s : State) (ps : List PortIn) (v : Word),
    s.host = PortIn.write 0x08#5 v :: ps → s.busy = false →
    step s = .next { cycle PortIn.idle { s with host := ps } with
      base := v.extractLsb' 0 7, pwdata := v }

/-- A write to STATUS clears each flag of bits 5:1 written 1, also while a command runs, and changes
nothing else; a command that completes in that cycle leaves DONE = 1 (20_memory.md R55, 10_state.md
R22, R24, R25, 60_exceptions.md R155). -/
def Obligations.StatusWriteClearsFlags : Prop :=
  ∀ (s : State) (ps : List PortIn) (v : Word),
    s.host = PortIn.write 0x04#5 v :: ps →
    ∃ t, step s = .next t ∧
      t.blockPart = (cycle PortIn.idle { s with host := ps }).blockPart ∧
      t.host = ps ∧ t.reads = s.reads ∧
      t.errBusy = (s.errBusy && !v.getLsbD 2) ∧
      t.errOpcode = (s.errOpcode && !v.getLsbD 3) ∧
      t.errTimer = (s.errTimer && !v.getLsbD 4) ∧
      t.errState = (s.errState && !v.getLsbD 5) ∧
      ((s.busy = false ∨ t.busy = true) → t.done = (s.done && !v.getLsbD 1)) ∧
      (s.busy = true → t.busy = false → t.done = true)

/-- A write to a read-only or reserved word changes nothing and is not refused (20_memory.md R55,
10_state.md R30 to R32). -/
def Obligations.ReadOnlyWritesIgnored : Prop :=
  ∀ (s : State) (ps : List PortIn) (off : BitVec 5) (v : Word),
    s.host = PortIn.write off v :: ps → 0x10#5 ≤ off →
    step s = .next { cycle PortIn.idle { s with host := ps } with pwdata := v }

/-! ### Refusals -/

/-- While BUSY = 1 a write to CMD, CTRL or DEV_ADDR sets ERR_BUSY and changes nothing else: the running
command goes on as in an idle cycle (60_exceptions.md R151, R152). -/
def Obligations.BusyWritesRefused : Prop :=
  ∀ (s : State) (ps : List PortIn) (off : BitVec 5) (v : Word),
    s.host = PortIn.write off v :: ps → s.busy = true →
    (wordIndex off = 0 ∨ wordIndex off = 2 ∨ wordIndex off = 3) →
    step s = .next { cycle PortIn.idle { s with host := ps } with errBusy := true, pwdata := v }

/-- A CMD write with a reserved opcode and no command running sets ERR_OPCODE and has no other effect
(30_encoding.md R78, 60_exceptions.md R151). -/
def Obligations.ReservedOpcodeRefused : Prop :=
  ∀ (s : State) (ps : List PortIn) (w : Word),
    s.host = PortIn.write 0x0C#5 w :: ps → s.busy = false →
    (w.extractLsb' 0 4 = 0x0#4 ∨ w.extractLsb' 0 4 = 0xF#4) →
    step s = .next { cycle PortIn.idle { s with host := ps } with errOpcode := true, pwdata := w }

/-- Each command that needs the timer is refused with ERR_TIMER, and that flag only, while the timer is
stopped and no command runs; the direction does not matter (60_exceptions.md R153, R155). -/
def Obligations.TimerStoppedRefused : Prop :=
  ∀ (i : Instr) (s : State), timerCommands i = true → s.busy = false → s.timerEn = false →
    exec i s = .next { cycle PortIn.idle s with errTimer := true }

/-- Each command that needs a DATA direction is refused with ERR_STATE, and that flag only, in the
other direction, no command running and the timer check passed (60_exceptions.md R153, R155,
70_reset_and_hazards.md R190). -/
def Obligations.WrongDirectionRefused : Prop :=
  ∀ (i : Instr) (s : State), s.busy = false → (timerCommands i = true → s.timerEn = true) →
    ((outCommands i = true ∧ s.dir = .inp) ∨ (inpCommands i = true ∧ s.dir = .out)) →
    exec i s = .next { cycle PortIn.idle s with errState := true }

/-- The busy check comes first: while a command runs every command is refused with ERR_BUSY, and that
flag only (60_exceptions.md R153, R155). -/
def Obligations.BusyCommandRefused : Prop :=
  ∀ (i : Instr) (s : State), s.busy = true →
    exec i s = .next { cycle PortIn.idle s with errBusy := true }

/-- The checks of R153 ask of a command just what its micro-program needs: the timer exactly when it
contains a `WAIT`, a direction exactly when every `SDA` and `SMP` then runs within its precondition
(60_exceptions.md R153, 40_line_control.md R96). -/
def Obligations.ChecksMatchThePrograms : Prop :=
  ∀ (i : Instr) (base : BitVec 7),
    (commandOf i base).needsTimer = hasWait (commandOf i base).prog ∧
    ∀ d, dirMeets (commandOf i base).needDir d = opsOk d (commandOf i base).prog

/-- Checking acceptance: STATUS bits 5:1 cleared, then CMD written. DONE or BUSY then reads 1 if and
only if the command was accepted, and otherwise exactly one error flag is 1
(70_reset_and_hazards.md R180). -/
def Obligations.AcceptanceIsVisible : Prop :=
  ∀ (s : State) (i : Instr), s.busy = false →
    s.host = [PortIn.write 0x04#5 0x0000003E#32, PortIn.write 0x0C#5 (encode i)] →
    ∃ a b, step s = .next a ∧ step a = .next b ∧
      ((b.busy = true ∨ b.done = true) ↔ Accepted i s) ∧
      (¬ Accepted i s → b.busy = false ∧ b.done = false ∧ errorFlags b = 1)

/-! ### Time -/

/-- `PRE` and `TMR`: 0 at reset; in a cycle with TIMER_EN = 1 `PRE` counts and wraps from TIMER_DIV - 1 to
0, and TMR increments, modulo 2^32, when it wraps; both hold while TIMER_EN = 0; TMR is what TIMER reads.
The TIMER_EN of a cycle is the one at its start, log 6 (10_state.md R41, 40_line_control.md R90). -/
def Obligations.TimerCounts : Prop :=
  State.reset.pre = 0 ∧ State.reset.tmr = 0#32 ∧
  ∀ (s : State) (p : PortIn), p.rstN = true →
    let t := cycle p s
    (s.timerEn = true → s.pre = Config.timerDiv - 1 → t.pre = 0 ∧ t.tmr = s.tmr + 1#32) ∧
    (s.timerEn = true → s.pre ≠ Config.timerDiv - 1 → t.pre = s.pre + 1 ∧ t.tmr = s.tmr) ∧
    (s.timerEn = false → t.pre = s.pre ∧ t.tmr = s.tmr) ∧
    (s.pre < Config.timerDiv → t.pre < Config.timerDiv) ∧ memRead 0x14#5 s = s.tmr

/-- The synchronizer: each stage takes the one before it, the first one DATA's level on the wire at the
cycle's start (log 6): 0 while the controller pulls DATA low (log 5), else the device's own level, which is
free (log 4); `sda_s` is what STATUS.SDA_I reads (10_state.md R35, 00_scope.md R12, R10). -/
def Obligations.SynchronizerShifts : Prop :=
  ∀ (s : State) (p : PortIn), p.rstN = true →
    let t := cycle p s
    t.sync1 = s.sync0 ∧ t.sync0 = s.wire 0 ∧
      (s.dir = .out → s.lvl = false → s.wire 0 = false) ∧
      ((s.dir = .inp ∨ s.lvl = true) →
        s.wire 0 = Config.deviceLevel (deviceView s.trace) s.now) ∧
      (memRead 0x04#5 s).getLsbD 10 = s.sync1

/-- DELAY N completes, no line changed: the tick clock reads N, N Timing Ticks and two cycles have passed
(the cycle of the CMD write and the completion cycle), and TMR has advanced by N * TICK_COUNTS and by
what those two cycles give; log 7 (40_line_control.md R90, R95, R105, 70_reset_and_hazards.md R187). -/
def Obligations.DelayCompletes : Prop :=
  ∀ (n : BitVec 16) (s : State), s.busy = false → s.timerEn = true → NoReset s.host →
    ∃ t, exec (.delay n) s = .next t ∧ CommandDone (.delay n) s t ∧
      t.trace = s.trace ++ [⟨n.toNat, .wait n.toNat, s.sclO, s.sdaO, s.dir⟩] ∧
      t.sclO = s.sclO ∧ t.dir = s.dir ∧ t.lvl = s.lvl ∧ t.rdata = s.rdata ∧ t.buf = s.buf ∧
      (s.wcnt = 0 → s.pre < Config.timerDiv →
        t.now = s.now + (n.toNat * Config.tickCounts * Config.timerDiv + 2) ∧
        t.tmr = s.tmr +
          BitVec.ofNat 32 (n.toNat * Config.tickCounts + (s.pre + 2) / Config.timerDiv))

/-- Every accepted command takes D cycles after the cycle of its CMD write, D being the table's
(log 7; 70_reset_and_hazards.md R187). -/
def Obligations.CommandDuration : Prop :=
  ∀ (i : Instr) (s : State), Accepted i s → s.wcnt = 0 → NoReset s.host →
    ∃ t, exec i s = .next t ∧ t.now = s.now + 1 + busyCycles i ∧ t.wcnt = 0 ∧
      (t.pre, t.tmr) = timerAfter (1 + busyCycles i) s

/-- A command taken in one step is the block run cycle by cycle: the cycle of the CMD write, then D
cycles with the host's activity in them, BUSY = 1 until the last and 0 after it; log 2 and log 7. The
two runs are on one device, which answers one bus history in one way, log 4: RDATA, the byte buffer and the
synchronizer agree only by that (20_memory.md R57 to R60, 70_reset_and_hazards.md R187). -/
def Obligations.OneStepIsItsCycles : Prop :=
  ∀ (w : Word) (i : Instr) (s : State) (ps : List PortIn),
    decode w = .instr i → Accepted i s → s.wcnt = 0 → NoReset ps → s.host = [] →
    ∃ t, exec i { s with host := ps, pwdata := w } = .next t ∧
      (∀ k, k < busyCycles i →
        (runCycles ((ps ++ List.replicate (busyCycles i) PortIn.idle).take k)
          (cycle (PortIn.write 0x0C#5 w) s)).busy = true) ∧
      t.busy = false ∧
      runCycles ((ps ++ List.replicate (busyCycles i) PortIn.idle).take (busyCycles i))
        (cycle (PortIn.write 0x0C#5 w) s) = { t with host := [] } ∧
      t.host = ps.drop (busyCycles i)

/-! ### Line-level commands -/

/-- IDLE releases DATA, then CLOCK: both lines high, DATA an output (40_line_control.md R100). -/
def Obligations.IdleCompletes : Prop :=
  ∀ s : State, s.busy = false → NoReset s.host →
    ∃ t, exec .idle s = .next t ∧ CommandDone .idle s t ∧
      t.trace = s.trace ++ [⟨0, .dir, s.sclO, true, .out⟩, ⟨0, .scl, true, true, .out⟩] ∧
      t.busIdle ∧ t.rdata = s.rdata ∧ t.buf = s.buf

/-- SET_CLK sets CLOCK and nothing else (40_line_control.md R101). -/
def Obligations.SetClkCompletes : Prop :=
  ∀ (l : Bool) (s : State), s.busy = false → NoReset s.host →
    ∃ t, exec (.setClk l) s = .next t ∧ CommandDone (.setClk l) s t ∧
      t.trace = s.trace ++ [⟨0, .scl, l, s.sdaO, s.dir⟩] ∧
      t.sclO = l ∧ t.dir = s.dir ∧ t.lvl = s.lvl ∧ t.rdata = s.rdata ∧ t.buf = s.buf

/-- SET_DATA sets DATA's output level and nothing else (40_line_control.md R102). -/
def Obligations.SetDataCompletes : Prop :=
  ∀ (l : Bool) (s : State), s.busy = false → s.dir = .out → NoReset s.host →
    ∃ t, exec (.setData l) s = .next t ∧ CommandDone (.setData l) s t ∧
      t.trace = s.trace ++ [⟨0, .sda, s.sclO, l, .out⟩] ∧
      t.sclO = s.sclO ∧ t.dir = .out ∧ t.lvl = l ∧ t.rdata = s.rdata ∧ t.buf = s.buf

/-- SET_DIR sets DATA's direction and releases it (40_line_control.md R103). -/
def Obligations.SetDirCompletes : Prop :=
  ∀ (d : Dir) (s : State), s.busy = false → NoReset s.host →
    ∃ t, exec (.setDir d) s = .next t ∧ CommandDone (.setDir d) s t ∧
      t.trace = s.trace ++ [⟨0, .dir, s.sclO, true, d⟩] ∧
      t.sclO = s.sclO ∧ t.dir = d ∧ t.lvl = true ∧ t.rdata = s.rdata ∧ t.buf = s.buf

/-- SAMPLE puts the bit it samples into RDATA and shifts it into the byte buffer, and changes no line. That
the bit is the one in the first synchronizer stage at the CMD write, the micro-op running one cycle later, is
the model's timing, log 6; the rules let the bit be a draw (40_line_control.md R94, R104, 20_memory.md R59,
10_state.md R35, 70_reset_and_hazards.md R187). -/
def Obligations.SampleCompletes : Prop :=
  ∀ s : State, s.busy = false → s.dir = .inp → NoReset s.host →
    ∃ t b, exec .sample s = .next t ∧ CommandDone .sample s t ∧
      t.trace = s.trace ++ [⟨0, .smp b, s.sclO, true, .inp⟩] ∧
      t.rdata = (if b then 1#8 else 0#8) ∧ t.buf = s.buf.extractLsb' 0 7 ++ BitVec.ofBool b ∧
      b = s.sync0 ∧ t.sclO = s.sclO ∧ t.dir = .inp ∧ t.lvl = s.lvl

/-! ### Bit and byte codec -/

/-- WRITE_BIT: CLOCK low, DATA to the bit, a tick, CLOCK high, a tick (41_codec.md R110). -/
def Obligations.WriteBitCompletes : Prop :=
  ∀ (b : Bool) (s : State), s.busy = false → s.timerEn = true → s.dir = .out → NoReset s.host →
    ∃ t, exec (.writeBit b) s = .next t ∧ CommandDone (.writeBit b) s t ∧
      t.trace = s.trace ++ [⟨0, .scl, false, s.lvl, .out⟩, ⟨0, .sda, false, b, .out⟩,
        ⟨1, .wait 1, false, b, .out⟩, ⟨1, .scl, true, b, .out⟩, ⟨2, .wait 1, true, b, .out⟩] ∧
      t.sclO = true ∧ t.dir = .out ∧ t.lvl = b ∧ t.rdata = s.rdata ∧ t.buf = s.buf

/-- READ_BIT: CLOCK low, a tick, CLOCK high, the sample, a tick; RDATA is the sampled bit and the
direction stays IN (41_codec.md R111, R120). -/
def Obligations.ReadBitCompletes : Prop :=
  ∀ s : State, s.busy = false → s.timerEn = true → s.dir = .inp → NoReset s.host →
    ∃ t b, exec .readBit s = .next t ∧ CommandDone .readBit s t ∧
      t.trace = s.trace ++ [⟨0, .scl, false, true, .inp⟩, ⟨1, .wait 1, false, true, .inp⟩,
        ⟨1, .scl, true, true, .inp⟩, ⟨1, .smp b, true, true, .inp⟩,
        ⟨2, .wait 1, true, true, .inp⟩] ∧
      t.rdata = (if b then 1#8 else 0#8) ∧ t.buf = s.buf.extractLsb' 0 7 ++ BitVec.ofBool b ∧
      t.sclO = true ∧ t.dir = .inp ∧ t.lvl = s.lvl

/-- WRITE_BYTE completes with CLOCK high and DATA an output, released: 47 events, 19 ticks, a rising
edge at each odd tick to 15 and at 18 (41_codec.md R112, R118, R120). -/
def Obligations.WriteByteCompletes : Prop :=
  ∀ (v : Byte) (s : State), s.busy = false → s.timerEn = true → s.dir = .out → NoReset s.host →
    ∃ t evs, exec (.writeByte v) s = .next t ∧ CommandDone (.writeByte v) s t ∧
      t.trace = s.trace ++ evs ∧ evs.length = 47 ∧ t.tick = 19 ∧ t.busIdle ∧
      ticksOf isRisingEdge s.lines evs = [1, 3, 5, 7, 9, 11, 13, 15, 18] ∧
      samples evs = [] ∧ t.rdata = s.rdata ∧ t.buf = s.buf

/-- READ_BYTE completes from either direction with CLOCK high and DATA an output, released: 47 events,
18 ticks, a rising edge at each odd tick to 17 (41_codec.md R113, R118, R120). -/
def Obligations.ReadByteCompletes : Prop :=
  ∀ s : State, s.busy = false → s.timerEn = true → NoReset s.host →
    ∃ t evs, exec .readByte s = .next t ∧ CommandDone .readByte s t ∧
      t.trace = s.trace ++ evs ∧ evs.length = 47 ∧ t.tick = 18 ∧ t.busIdle ∧
      ticksOf isRisingEdge s.lines evs = [1, 3, 5, 7, 9, 11, 13, 15, 17]

/-- The byte a read returns is its eight samples, the first one bit 7, whatever the buffer held before
(41_codec.md R114). -/
def Obligations.ByteAssembly : Prop :=
  ∀ (i : Instr) (s : State), (i = .readByte ∨ ∃ r, i = .readReg r) → Accepted i s →
    NoReset s.host →
    ∃ t evs b0 b1 b2 b3 b4 b5 b6 b7, exec i s = .next t ∧ t.trace = s.trace ++ evs ∧
      samples evs = [b0, b1, b2, b3, b4, b5, b6, b7] ∧
      bitsOf t.buf = [b0, b1, b2, b3, b4, b5, b6, b7] ∧ t.rdata = t.buf

/-- At the rising edges of a written byte DATA carries its bits, MSB first, at the ticks 1, 3, … 15, and is
released at the ninth, at tick 18; DATA does not change while CLOCK is high, and nothing but the lines is
left of the byte (41_codec.md R115). -/
def Obligations.ByteEmission : Prop :=
  ∀ (v : Byte) (s : State), s.busy = false → s.timerEn = true → s.dir = .out → NoReset s.host →
    ∃ t evs, exec (.writeByte v) s = .next t ∧ t.trace = s.trace ++ evs ∧
      levelsAtRisingEdges s.lines evs = bitsOf v ++ [true] ∧
      ticksOf isRisingEdge s.lines evs = [1, 3, 5, 7, 9, 11, 13, 15, 18] ∧
      pick (fun l e => l.scl && e.scl && l.sda != e.sda) s.lines evs = [] ∧
      t.buf = s.buf ∧ t.rdata = s.rdata

/-- Reading the wire at the first eight rising edges of a written byte gives the byte, no device
pulling DATA low (41_codec.md R116). -/
def Obligations.WriteRoundTrip : Prop :=
  ∀ (v : Byte) (s : State), s.busy = false → s.timerEn = true → s.dir = .out → NoReset s.host →
    ∃ t evs, exec (.writeByte v) s = .next t ∧ t.trace = s.trace ++ evs ∧
      byteOnWire s.lines evs = v

/-- A byte's program sets CLOCK nine times low and then high, so a byte has nine rising edges, whatever its
value and whatever CLOCK's level on entry, and nine falling edges, or eight if CLOCK is low on entry
(41_codec.md R117). -/
def Obligations.NineRisingEdges : Prop :=
  ∀ (i : Instr) (s : State), ((∃ v, i = .writeByte v ∧ s.dir = .out) ∨ i = .readByte) →
    s.busy = false → s.timerEn = true → NoReset s.host →
    ((commandOf i s.base).prog.filter fun op => op == .scl false || op == .scl true) =
      (List.replicate 9 [MicroOp.scl false, .scl true]).flatten ∧
    ∃ t evs, exec i s = .next t ∧ t.trace = s.trace ++ evs ∧
      (pick isRisingEdge s.lines evs).length = 9 ∧
      (pick isFallingEdge s.lines evs).length = (if s.sclO then 9 else 8)

/-- Inside the codec two logical transitions are at least a tick apart, and each codec command ends at
least a tick after its last one; the one exception is READ_BYTE entered with CLOCK high and DATA pulled
low, where two of them fall at tick 0 (41_codec.md R121). -/
def Obligations.CodecTickSpacing : Prop :=
  ∀ (i : Instr) (s : State),
    ((∃ v, i = .writeByte v) ∨ (∃ b, i = .writeBit b) ∨ i = .readBit ∨ i = .readByte) →
    Accepted i s → NoReset s.host →
    ∃ t evs, exec i s = .next t ∧ t.trace = s.trace ++ evs ∧
      (∀ k ∈ ticksOf isLogical s.lines evs, k + 1 ≤ t.tick) ∧
      (¬ (i = .readByte ∧ s.sclO = true ∧ s.sdaO = false) → tickSpaced s.lines evs = true) ∧
      (i = .readByte → s.sclO = true → s.sdaO = false →
        (ticksOf isLogical s.lines evs).take 2 = [0, 0] ∧
          spaced ((ticksOf isLogical s.lines evs).drop 1) = true)

/-- The exposed window of a written byte: it opens with `DIR(IN)` at micro-op 42, CLOCK low, and
`DIR(OUT)` at 45 closes it, with nothing but a tick and the ninth rising edge between. WRITE_BYTE has one,
WRITE_REG and READ_REG have three each, their bytes beginning at 7, 54 and 101, and at 7, 54 and 108, and no
other command has one (41_codec.md R119, 42_transactions.md R140, R141). -/
def Obligations.ExposedWindowOfWriteByte : Prop :=
  (∀ v : Byte,
    ((wbyte v).drop 42).take 4 = [.dir .inp, .wait 1, .scl true, .dir .out] ∧
    ∀ op ∈ (wbyte v).take 42, ∀ d, op ≠ .dir d) ∧
  (∀ (base : BitVec 7) (r v : Byte),
    ((wreg base r v).drop 7).take 47 = wbyte (base ++ 0#1) ∧
    ((wreg base r v).drop 54).take 47 = wbyte r ∧
    ((wreg base r v).drop 101).take 47 = wbyte v) ∧
  (∀ (base : BitVec 7) (r : Byte),
    ((rreg base r).drop 7).take 47 = wbyte (base ++ 0#1) ∧
    ((rreg base r).drop 54).take 47 = wbyte r ∧
    ((rreg base r).drop 108).take 47 = wbyte (base ++ 1#1)) ∧
  ∀ (i : Instr) (s : State), s.busy = true → decode s.cmd = .instr i →
    (s.exposedWindow = true ↔
      ((∃ v, i = .writeByte v) ∧ 42 ≤ s.mpc ∧ s.mpc < 45) ∨
      ((∃ r v, i = .writeReg r v) ∧
        ((49 ≤ s.mpc ∧ s.mpc < 52) ∨ (96 ≤ s.mpc ∧ s.mpc < 99) ∨
          (143 ≤ s.mpc ∧ s.mpc < 146))) ∨
      ((∃ r, i = .readReg r) ∧
        ((49 ≤ s.mpc ∧ s.mpc < 52) ∨ (96 ≤ s.mpc ∧ s.mpc < 99) ∨
          (150 ≤ s.mpc ∧ s.mpc < 153))))

/-! ### Conditions and transactions -/

/-- START from any line levels: DATA released and CLOCK high, then DATA falls at tick 1 and CLOCK at
tick 2 (42_transactions.md R130). -/
def Obligations.StartCompletes : Prop :=
  ∀ s : State, s.busy = false → s.timerEn = true → s.dir = .out → NoReset s.host →
    ∃ t, exec .start s = .next t ∧ CommandDone .start s t ∧
      t.trace = s.trace ++ [⟨0, .sda, s.sclO, true, .out⟩, ⟨0, .scl, true, true, .out⟩,
        ⟨1, .wait 1, true, true, .out⟩, ⟨1, .sda, true, false, .out⟩,
        ⟨2, .wait 1, true, false, .out⟩, ⟨2, .scl, false, false, .out⟩,
        ⟨3, .wait 1, false, false, .out⟩] ∧
      t.sclO = false ∧ t.dir = .out ∧ t.lvl = false ∧ t.rdata = s.rdata ∧ t.buf = s.buf

/-- STOP from any line levels: DATA low, CLOCK high at tick 1, DATA rises at tick 2; the bus is idle
(42_transactions.md R131). -/
def Obligations.StopCompletes : Prop :=
  ∀ s : State, s.busy = false → s.timerEn = true → s.dir = .out → NoReset s.host →
    ∃ t, exec .stop s = .next t ∧ CommandDone .stop s t ∧
      t.trace = s.trace ++ [⟨0, .sda, s.sclO, false, .out⟩, ⟨1, .wait 1, s.sclO, false, .out⟩,
        ⟨1, .scl, true, false, .out⟩, ⟨2, .wait 1, true, false, .out⟩,
        ⟨2, .sda, true, true, .out⟩, ⟨3, .wait 1, true, true, .out⟩] ∧
      t.busIdle ∧ t.rdata = s.rdata ∧ t.buf = s.buf

/-- A START entered with DATA released has exactly one Start signature, at tick 1; every STOP has
exactly one Stop signature, at tick 2 (42_transactions.md R132). -/
def Obligations.OneSignatureEach : Prop :=
  ∀ s : State, s.busy = false → s.timerEn = true → s.dir = .out → NoReset s.host →
    (∃ t evs, exec .start s = .next t ∧ t.trace = s.trace ++ evs ∧
      (s.lvl = true → ticksOf isStartSignature s.lines evs = [1])) ∧
    (∃ t evs, exec .stop s = .next t ∧ t.trace = s.trace ++ evs ∧
      ticksOf isStopSignature s.lines evs = [2])

/-- START then STOP leaves both lines high, for any line levels with DATA an output and whatever the host
does meanwhile. From idle DATA falls at tick 1 and CLOCK at tick 2 of START, and CLOCK rises at tick 1 and
DATA at tick 2 of STOP, with no other transition (42_transactions.md R146). -/
def Obligations.StartThenStopIsIdle : Prop :=
  ∀ (s : State) (ps : List PortIn), s.busy = false → s.timerEn = true → s.dir = .out →
    NoReset s.host → NoReset ps →
    ∃ a b, exec .start s = .next a ∧ exec .stop { a with host := ps } = .next b ∧ b.busIdle ∧
      (s.lines = Lines.idle →
        ∃ ea eb, a.trace = s.trace ++ ea ∧ b.trace = a.trace ++ eb ∧
          ticksOf isTransition s.lines ea = [1, 2] ∧ ticksOf isStartSignature s.lines ea = [1] ∧
          ticksOf isFallingEdge s.lines ea = [2] ∧ a.tick = 3 ∧
          ticksOf isTransition a.lines eb = [1, 2] ∧ ticksOf isRisingEdge a.lines eb = [1] ∧
          ticksOf isStopSignature a.lines eb = [2] ∧ b.tick = 3)

/-- WRITE_REG completes with the bus idle, RDATA and the byte buffer untouched, after 154 micro-ops and
63 ticks. On the wire go the device write address of BASE, the register and the value, MSB first, each
with DATA released in its ninth clock; entered with CLOCK low, START's own rising edge comes first
(42_transactions.md R130, R140, R144). -/
def Obligations.WriteRegCompletes : Prop :=
  ∀ (r v : Byte) (s : State), s.busy = false → s.timerEn = true → s.dir = .out →
    NoReset s.host →
    ∃ t evs, exec (.writeReg r v) s = .next t ∧ CommandDone (.writeReg r v) s t ∧
      t.trace = s.trace ++ evs ∧ evs.length = 154 ∧ t.tick = 63 ∧ t.busIdle ∧
      t.rdata = s.rdata ∧ t.buf = s.buf ∧ samples evs = [] ∧
      levelsAtRisingEdges s.lines evs = (if s.sclO then [] else [true]) ++
        bitsOf (s.base ++ 0#1) ++ [true] ++ bitsOf r ++ [true] ++ bitsOf v ++ [true]

/-- READ_REG completes with the bus idle and RDATA the byte of its eight samples, after 208 micro-ops
and 84 ticks. On the wire go the device write address, the register and, after the restart, the device
read address; DATA is released in each ninth clock and in the nine of the byte read; entered with CLOCK low, START's
own rising edge comes first (42_transactions.md R130, R141, R144). -/
def Obligations.ReadRegCompletes : Prop :=
  ∀ (r : Byte) (s : State), s.busy = false → s.timerEn = true → s.dir = .out → NoReset s.host →
    ∃ t evs, exec (.readReg r) s = .next t ∧ CommandDone (.readReg r) s t ∧
      t.trace = s.trace ++ evs ∧ evs.length = 208 ∧ t.tick = 84 ∧ t.busIdle ∧
      (samples evs).length = 8 ∧ t.rdata = byteOf (samples evs) ∧ t.buf = t.rdata ∧
      levelsAtRisingEdges s.lines evs = (if s.sclO then [] else [true]) ++
        bitsOf (s.base ++ 0#1) ++ [true] ++ bitsOf r ++ [true] ++ bitsOf (s.base ++ 1#1) ++ [true]
          ++ List.replicate 9 true

/-- The shape of a transaction from idle: WRITE_REG has 27 rising and 27 falling edges, the Start
signature at tick 1, the one of its STOP at 60 and the Stop signature at 62; READ_REG has 36 and 36, the
restart's Start signature at 42, its STOP's at 81 and the Stop signature at 83
(42_transactions.md R140, R141, 70_reset_and_hazards.md R184). -/
def Obligations.TransactionShape : Prop :=
  ∀ s : State, s.busy = false → s.timerEn = true → s.busIdle → NoReset s.host →
    (∀ r v, ∃ t evs, exec (.writeReg r v) s = .next t ∧ t.trace = s.trace ++ evs ∧
      (pick isRisingEdge s.lines evs).length = 27 ∧ (pick isFallingEdge s.lines evs).length = 27 ∧
      ticksOf isStartSignature s.lines evs = [1, 60] ∧
      ticksOf isStopSignature s.lines evs = [62]) ∧
    (∀ r, ∃ t evs, exec (.readReg r) s = .next t ∧ t.trace = s.trace ++ evs ∧
      (pick isRisingEdge s.lines evs).length = 36 ∧ (pick isFallingEdge s.lines evs).length = 36 ∧
      ticksOf isStartSignature s.lines evs = [1, 42, 81] ∧
      ticksOf isStopSignature s.lines evs = [83])

/-- In the trace of a transaction entered with DATA an output, any two logical transitions are at least
one tick apart, whatever the line levels, the operands, the device address and the device's bits
(42_transactions.md R147). -/
def Obligations.TransactionTickSpacing : Prop :=
  ∀ (i : Instr) (s : State), ((∃ r v, i = .writeReg r v) ∨ ∃ r, i = .readReg r) →
    s.busy = false → s.timerEn = true → s.dir = .out → NoReset s.host →
    ∃ t evs, exec i s = .next t ∧ t.trace = s.trace ++ evs ∧ tickSpaced s.lines evs = true

/-- A cycle of a running command leaves the transaction state or moves it along one edge of the source's
state machine (42_transactions.md R143). -/
def Obligations.TransactionStateOrder : Prop :=
  ∀ (s : State) (p : PortIn), s.Inv → s.busy = true → p.rstN = true →
    (cycle p s).tstate = s.tstate ∨ (s.tstate, (cycle p s).tstate) ∈ tstateEdges

/-! ### All commands -/

/-- The events of an accepted command name its micro-ops, in list order, one each, with nothing between
them (20_memory.md R58, 42_transactions.md R142). -/
def Obligations.TraceFollowsTheProgram : Prop :=
  ∀ (i : Instr) (s : State), Accepted i s → NoReset s.host →
    ∃ t evs, exec i s = .next t ∧ t.trace = s.trace ++ evs ∧
      List.Forall₂ (fun op e => eventOf op e = true) (commandOf i s.base).prog evs

/-- In every accepted command every `SDA` runs with DATA an output and every `SMP` with DATA an input
(40_line_control.md R96). -/
def Obligations.PreconditionsAlwaysHold : Prop :=
  ∀ (i : Instr) (s : State), Accepted i s → NoReset s.host →
    ∃ t evs, exec i s = .next t ∧ t.trace = s.trace ++ evs ∧
      ∀ e ∈ evs, (e.op = .sda → e.dir = .out) ∧ (∀ b, e.op = .smp b → e.dir = .inp)

/-- The host cannot reach a running command: whatever it reads and writes meanwhile, reset kept high,
the lines, the trace, RDATA, the timing and all else but the flags come out the same, for one device that
answers one bus history in one way (log 4) (20_memory.md R60, 60_exceptions.md R158). -/
def Obligations.CommandAtomicAgainstHost : Prop :=
  ∀ (i : Instr) (s : State) (ps qs : List PortIn), Accepted i s → NoReset ps → NoReset qs →
    ∃ t u, exec i { s with host := ps } = .next t ∧ exec i { s with host := qs } = .next u ∧
      t.blockPart = u.blockPart ∧ t.done = true ∧ u.done = true

/-- RDATA changes only at a completion, and only at one of READ_REG, READ_BYTE, READ_BIT and SAMPLE: a
cycle that leaves BUSY = 1 leaves RDATA (10_state.md R29, 20_memory.md R59, 70_reset_and_hazards.md
R181). -/
def Obligations.RdataChangesAtCompletion : Prop :=
  ∀ (s : State) (p : PortIn), p.rstN = true → (cycle p s).rdata ≠ s.rdata →
    s.busy = true ∧ (cycle p s).busy = false ∧ (cycle p s).done = true ∧
      (opcodeOf s.cmd = 0x2#4 ∨ opcodeOf s.cmd = 0x6#4 ∨ opcodeOf s.cmd = 0x8#4 ∨
        opcodeOf s.cmd = 0xD#4)

/-- The host's `WAIT`, at every pace of its accesses (log 18): from every state in which the timer runs if
the running command waits, in the middle of a command too, it ends with BUSY = 0; each STATUS word it read but
the last showed BUSY = 1, the last BUSY = 0, and reading disturbed nothing. `DO c` of an accepted command ends
with that command complete and DONE = 1 read; `RREG` then reads the byte in RDATA (30_encoding.md R83,
20_memory.md R54, R59, 70_reset_and_hazards.md R186). -/
def Obligations.DoWaitsForCompletion : Prop :=
  (∀ (gaps : List Nat) (s : State),
    (s.busy = true → hasWait s.prog = true → s.timerEn = true) →
    ∃ left t ws w n, runStmts Pseudo.wait.expand gaps s = some (left, t) ∧
      t.busy = false ∧ t.done = (s.done || s.busy) ∧
      t.reads = s.reads ++ ws ++ [w] ∧ (∀ r ∈ ws, r.getLsbD 0 = true) ∧
      w.getLsbD 0 = false ∧ w.getLsbD 1 = t.done ∧
      t.blockPart = (runCycles (List.replicate n PortIn.idle) s).blockPart) ∧
  (∀ (gaps : List Nat) (i : Instr) (s : State), Accepted i s →
    ∃ left t ws w, runStmts (Pseudo.doCommand i).expand gaps s = some (left, t) ∧
      t.busy = false ∧ t.done = true ∧ t.cmd = encode i ∧ t.prog = (commandOf i s.base).prog ∧
      t.reads = s.reads ++ ws ++ [w] ∧ (∀ r ∈ ws, r.getLsbD 0 = true) ∧
      w.getLsbD 0 = false ∧ w.getLsbD 1 = true) ∧
  ∀ (gaps : List Nat) (r : Byte) (s : State), Accepted (.readReg r) s →
    ∃ left t ws, runStmts (Pseudo.rreg r).expand gaps s = some (left, t) ∧
      t.busy = false ∧ t.done = true ∧ t.cmd = encode (.readReg r) ∧
      t.reads = s.reads ++ ws ++ [t.rdata.setWidth 32]

/-! ### Reset and invariants -/

/-- The state after reset: every register at the value the rules give (10_state.md R44,
70_reset_and_hazards.md R170). -/
def Obligations.ResetValues : Prop :=
  let s := State.reset
  memRead 0x00#5 s = 0#32 ∧ memRead 0x04#5 s = 0x00001F00#32 ∧ memRead 0x10#5 s = 0#32 ∧
  memRead 0x14#5 s = 0#32 ∧ s.base = Config.devAddrReset ∧
  s.sclO = true ∧ s.dir = .out ∧ s.lvl = true ∧ s.sync0 = true ∧ s.sync1 = true ∧
  s.busy = false ∧ s.cmd = 0#32 ∧ s.prog = [] ∧ s.mpc = 0 ∧ s.buf = 0#8 ∧ s.wcnt = 0 ∧
  s.pre = 0 ∧ s.tmr = 0#32 ∧ s.tstate = .idle ∧ s.pins = ⟨true, true, true, true, false⟩

/-- Reset, whatever the port's other pins carry and whether or not a command runs: the cycle leaves the
reset state, the host's access has no effect, the output pins are the idle ones and `prdata` is 0; the model's
record of the past and the activity to come are kept (log 8). A reset in the middle of a command stops it at
once: its lines are idle, BUSY, DONE and RDATA are 0, the device address is the reset one, and what is left of
the port's activity is still to come (70_reset_and_hazards.md R170, R171). -/
def Obligations.ResetStopsACommand : Prop :=
  (∀ (s : State) (p : PortIn), p.rstN = false →
    cycle p s =
      { State.reset with
        trace := s.trace, now := s.now + 1, host := s.host, reads := s.reads, pwdata := s.pwdata } ∧
    s.pinsDuring p = ⟨true, true, true, true, false⟩ ∧ prdata p s = some 0#32 ∧
    ∀ ps, s.host = p :: ps → step s = .next (cycle p { s with host := ps })) ∧
  ∀ (i : Instr) (s : State) (ps qs : List PortIn), Accepted i s → s.wcnt = 0 → NoReset ps →
    ps.length < busyCycles i → s.host = ps ++ PortIn.reset :: qs →
    ∃ t evs, exec i s = .next t ∧ t.trace = s.trace ++ evs ∧
      evs.length ≤ (commandOf i s.base).prog.length ∧ t.host = qs ∧
      t = { State.reset with
        tick := t.tick, trace := t.trace, now := s.now + 2 + ps.length, host := qs
        pwdata := t.pwdata, reads := t.reads }

/-- The invariant holds at reset (10_state.md R34, R44). -/
def Obligations.ResetIsSound : Prop := State.reset.Inv

/-- Every `clk` cycle keeps the invariant, in the middle of a command too, whatever the port carries
(10_state.md R34, R37, R38, R41, 40_line_control.md R90, R96). -/
def Obligations.CycleKeepsTheInvariant : Prop :=
  ∀ (s : State) (p : PortIn), s.Inv → (cycle p s).Inv

/-- Every step keeps the invariant (10_state.md R34, R37, R38, R41, 40_line_control.md R90, R96). -/
def Obligations.StepKeepsTheInvariant : Prop :=
  ∀ s t : State, s.Inv → step s = .next t → t.Inv
end

