-- ==== Sys2Proof/Laws/Encoding.lean ====
section
/-! SUPPORT. The fields of a laid-out command word (30_encoding.md R71). -/

namespace Sys2Proof

@[simp] theorem opcodeOf_layoutWord (hi lo : Byte) (opc : BitVec 4) :
    opcodeOf (layoutWord hi lo opc) = opc := by
  ext k hk
  simp only [opcodeOf, layoutWord, BitVec.getElem_extractLsb', BitVec.getLsbD_append]
  simp [hk]

@[simp] theorem fieldA_layoutWord (hi lo : Byte) (opc : BitVec 4) :
    fieldA (layoutWord hi lo opc) = lo := by
  ext k hk
  simp only [fieldA, layoutWord, BitVec.getElem_extractLsb', BitVec.getLsbD_append]
  have h1 : ¬ 8 + k < 4 := by omega
  have h2 : ¬ 8 + k - 4 < 4 := by omega
  have h3 : 8 + k - 4 - 4 = k := by omega
  simp [h1, h2, h3, hk]

@[simp] theorem fieldB_layoutWord (hi lo : Byte) (opc : BitVec 4) :
    fieldB (layoutWord hi lo opc) = hi := by
  ext k hk
  simp only [fieldB, layoutWord, BitVec.getElem_extractLsb', BitVec.getLsbD_append]
  have h1 : ¬ 16 + k < 4 := by omega
  have h2 : ¬ 16 + k - 4 < 4 := by omega
  have h3 : ¬ 16 + k - 4 - 4 < 8 := by omega
  have h4 : 16 + k - 4 - 4 - 8 = k := by omega
  simp [h1, h2, h3, h4, hk]

@[simp] theorem fieldL_layoutWord (hi lo : Byte) (opc : BitVec 4) :
    fieldL (layoutWord hi lo opc) = lo.getLsbD 0 := by
  simp only [fieldL, layoutWord, BitVec.getLsbD_append]
  rfl

@[simp] theorem bitByte_bit (l : Bool) : (bitByte l)[0] = l := by cases l <;> rfl

@[simp] theorem bitByte_getLsbD_zero (l : Bool) : (bitByte l).getLsbD 0 = l := by cases l <;> rfl

theorem fieldN_eq (w : Word) : fieldN w = fieldB w ++ fieldA w := by
  refine BitVec.eq_of_getLsbD_eq fun k hk => ?_
  simp only [fieldN, fieldA, fieldB, BitVec.getLsbD_append, BitVec.getLsbD_extractLsb']
  split
  · simp [hk, ‹k < 8›]
  · simp [hk, show k - 8 < 8 by omega, show 16 + (k - 8) = 8 + k by omega]

@[simp] theorem fieldN_layoutWord (n : BitVec 16) (opc : BitVec 4) :
    fieldN (layoutWord (n.extractLsb' 8 8) (n.extractLsb' 0 8) opc) = n := by
  rw [fieldN_eq, fieldA_layoutWord, fieldB_layoutWord]
  refine BitVec.eq_of_getLsbD_eq fun k hk => ?_
  simp only [BitVec.getLsbD_append, BitVec.getLsbD_extractLsb']
  split
  · simp [‹k < 8›]
  · simp [show k - 8 < 8 by omega, show 8 + (k - 8) = k by omega]

@[simp] theorem ofBit_bit (d : Dir) : Dir.ofBit d.bit = d := by cases d <;> rfl

@[simp] theorem bit_ofBit (l : Bool) : (Dir.ofBit l).bit = l := by cases l <;> rfl

/-- Bit `k` of a laid-out word. -/
theorem getLsbD_layoutWord (hi lo : Byte) (opc : BitVec 4) (k : Nat) :
    (layoutWord hi lo opc).getLsbD k =
      if k < 4 then opc.getLsbD k else if k < 8 then false
      else if k < 16 then lo.getLsbD (k - 8) else if k < 24 then hi.getLsbD (k - 16) else false := by
  simp only [layoutWord, BitVec.getLsbD_append]
  by_cases h1 : k < 4
  · simp [h1]
  by_cases h2 : k < 8
  · simp [h1, h2, show k - 4 < 4 by omega]
  by_cases h3 : k < 16
  · rw [if_neg h1, if_neg h1, if_neg h2, if_pos h3, if_neg (by omega), if_pos (by omega),
      show k - 4 - 4 = k - 8 by omega]
  by_cases h4 : k < 24
  · rw [if_neg h1, if_neg h1, if_neg h2, if_neg h3, if_pos h4, if_neg (by omega),
      if_neg (by omega), if_pos (by omega), show k - 4 - 4 - 8 = k - 16 by omega]
  · rw [if_neg h1, if_neg h1, if_neg h2, if_neg h3, if_neg h4, if_neg (by omega),
      if_neg (by omega), if_neg (by omega), BitVec.getLsbD_zero]

/-- The bits of formats RV and D of a word. -/
theorem and_two_bytes (w : Word) :
    w &&& 0x00FFFF0F#32 = layoutWord (fieldB w) (fieldA w) (opcodeOf w) := by
  refine BitVec.eq_of_getLsbD_eq fun k hk => ?_
  have hm : ∀ j < 32, (0x00FFFF0F#32).getLsbD j = (j < 4 || (8 ≤ j && j < 24)) := by decide
  rw [BitVec.getLsbD_and, hm k hk, getLsbD_layoutWord]
  simp only [fieldA, fieldB, opcodeOf, BitVec.getLsbD_extractLsb']
  by_cases h1 : k < 4
  · simp [h1]
  by_cases h2 : k < 8
  · simp [h1, h2, show ¬ 8 ≤ k by omega]
  by_cases h3 : k < 16
  · simp [h1, h2, h3, show 8 ≤ k by omega, show k < 24 by omega, show k - 8 < 8 by omega,
      show 8 + (k - 8) = k by omega]
  by_cases h4 : k < 24
  · simp [h1, h2, h3, h4, show 8 ≤ k by omega, show k - 16 < 8 by omega,
      show 16 + (k - 16) = k by omega]
  · simp [h1, h2, h3, h4]

/-- The bits of format B of a word. -/
theorem and_one_byte (w : Word) :
    w &&& 0x0000FF0F#32 = layoutWord 0#8 (fieldA w) (opcodeOf w) := by
  refine BitVec.eq_of_getLsbD_eq fun k hk => ?_
  have hm : ∀ j < 32, (0x0000FF0F#32).getLsbD j = (j < 4 || (8 ≤ j && j < 16)) := by decide
  rw [BitVec.getLsbD_and, hm k hk, getLsbD_layoutWord]
  simp only [fieldA, opcodeOf, BitVec.getLsbD_extractLsb']
  by_cases h1 : k < 4
  · simp [h1]
  by_cases h2 : k < 8
  · simp [h1, h2, show ¬ 8 ≤ k by omega]
  by_cases h3 : k < 16
  · simp [h1, h2, h3, show 8 ≤ k by omega, show k - 8 < 8 by omega,
      show 8 + (k - 8) = k by omega]
  · simp [h1, h2, h3]

/-- The bits of format L of a word. -/
theorem and_one_bit (w : Word) :
    w &&& 0x0000010F#32 = layoutWord 0#8 (bitByte (fieldL w)) (opcodeOf w) := by
  refine BitVec.eq_of_getLsbD_eq fun k hk => ?_
  have hm : ∀ j < 32, (0x0000010F#32).getLsbD j = (j < 4 || j == 8) := by decide
  rw [BitVec.getLsbD_and, hm k hk, getLsbD_layoutWord]
  simp only [fieldL, opcodeOf, BitVec.getLsbD_extractLsb']
  by_cases h1 : k < 4
  · simp [h1]
  by_cases h2 : k < 8
  · simp [h1, h2, show k ≠ 8 by omega]
  by_cases h5 : k = 8
  · subst h5
    simp
  by_cases h3 : k < 16
  · simp only [bitByte, BitVec.getLsbD_append, if_neg (show ¬ k - 8 < 1 by omega)]
    simp [h1, h2, h3, h5]
  · simp [h1, h2, h3, h5]

/-- The bits of format N of a word. -/
theorem and_no_operand (w : Word) : w &&& 0x0000000F#32 = layoutWord 0#8 0#8 (opcodeOf w) := by
  refine BitVec.eq_of_getLsbD_eq fun k hk => ?_
  have hm : ∀ j < 32, (0x0000000F#32).getLsbD j = decide (j < 4) := by decide
  rw [BitVec.getLsbD_and, hm k hk, getLsbD_layoutWord]
  simp only [opcodeOf, BitVec.getLsbD_extractLsb']
  by_cases h1 : k < 4
  · simp [h1]
  · simp [h1]

/-- `N` as the two bytes of format RV (30_encoding.md R71). -/
theorem fieldN_bytes (w : Word) :
    (fieldN w).extractLsb' 8 8 = fieldB w ∧ (fieldN w).extractLsb' 0 8 = fieldA w := by
  constructor <;> refine BitVec.eq_of_getLsbD_eq fun k hk => ?_ <;>
    simp only [fieldN, fieldA, fieldB, BitVec.getLsbD_extractLsb']
  · simp [hk, show 8 + k < 16 by omega, show 8 + (8 + k) = 16 + k by omega]
  · simp [hk, show k < 16 by omega]

end Sys2Proof
end

