-- ==== Sys2Proof/Laws/State.lean ====
section
/-! SUPPORT. One lemma for each field of each named update of State, true by `rfl`, so that no later
proof unfolds a record update. -/

namespace Sys2Proof.Machine

variable (s q : State)

/-! ### `refuse` -/

@[simp] theorem refuse_timerEn (c : Cause) : (refuse c s).timerEn = s.timerEn :=
  by cases c <;> simp [refuse]
@[simp] theorem refuse_busy (c : Cause) : (refuse c s).busy = s.busy := by cases c <;> simp [refuse]
@[simp] theorem refuse_done (c : Cause) : (refuse c s).done = s.done := by cases c <;> simp [refuse]
@[simp] theorem refuse_errBusy (c : Cause) : (refuse c s).errBusy = (s.errBusy || c == .busy) :=
  by cases c <;> simp [refuse]
@[simp] theorem refuse_errOpcode (c : Cause) : (refuse c s).errOpcode = (s.errOpcode || c == .opcode) :=
  by cases c <;> simp [refuse]
@[simp] theorem refuse_errTimer (c : Cause) : (refuse c s).errTimer = (s.errTimer || c == .timer) :=
  by cases c <;> simp [refuse]
@[simp] theorem refuse_errState (c : Cause) : (refuse c s).errState = (s.errState || c == .state) :=
  by cases c <;> simp [refuse]
@[simp] theorem refuse_base (c : Cause) : (refuse c s).base = s.base := by cases c <;> simp [refuse]
@[simp] theorem refuse_rdata (c : Cause) : (refuse c s).rdata = s.rdata :=
  by cases c <;> simp [refuse]
@[simp] theorem refuse_sclO (c : Cause) : (refuse c s).sclO = s.sclO := by cases c <;> simp [refuse]
@[simp] theorem refuse_dir (c : Cause) : (refuse c s).dir = s.dir := by cases c <;> simp [refuse]
@[simp] theorem refuse_lvl (c : Cause) : (refuse c s).lvl = s.lvl := by cases c <;> simp [refuse]
@[simp] theorem refuse_sync0 (c : Cause) : (refuse c s).sync0 = s.sync0 :=
  by cases c <;> simp [refuse]
@[simp] theorem refuse_sync1 (c : Cause) : (refuse c s).sync1 = s.sync1 :=
  by cases c <;> simp [refuse]
@[simp] theorem refuse_cmd (c : Cause) : (refuse c s).cmd = s.cmd := by cases c <;> simp [refuse]
@[simp] theorem refuse_prog (c : Cause) : (refuse c s).prog = s.prog := by cases c <;> simp [refuse]
@[simp] theorem refuse_mpc (c : Cause) : (refuse c s).mpc = s.mpc := by cases c <;> simp [refuse]
@[simp] theorem refuse_buf (c : Cause) : (refuse c s).buf = s.buf := by cases c <;> simp [refuse]
@[simp] theorem refuse_wcnt (c : Cause) : (refuse c s).wcnt = s.wcnt := by cases c <;> simp [refuse]
@[simp] theorem refuse_pre (c : Cause) : (refuse c s).pre = s.pre := by cases c <;> simp [refuse]
@[simp] theorem refuse_tmr (c : Cause) : (refuse c s).tmr = s.tmr := by cases c <;> simp [refuse]
@[simp] theorem refuse_tick (c : Cause) : (refuse c s).tick = s.tick := by cases c <;> simp [refuse]
@[simp] theorem refuse_trace (c : Cause) : (refuse c s).trace = s.trace :=
  by cases c <;> simp [refuse]
@[simp] theorem refuse_now (c : Cause) : (refuse c s).now = s.now := by cases c <;> simp [refuse]
@[simp] theorem refuse_host (c : Cause) : (refuse c s).host = s.host := by cases c <;> simp [refuse]
@[simp] theorem refuse_pwdata (c : Cause) : (refuse c s).pwdata = s.pwdata :=
  by cases c <;> simp [refuse]
@[simp] theorem refuse_reads (c : Cause) : (refuse c s).reads = s.reads :=
  by cases c <;> simp [refuse]

/-! ### `clearFlags` -/

@[simp] theorem clearFlags_timerEn (v : Word) : (clearFlags v s).timerEn = s.timerEn := rfl
@[simp] theorem clearFlags_busy (v : Word) : (clearFlags v s).busy = s.busy := rfl
@[simp] theorem clearFlags_done (v : Word) : (clearFlags v s).done = (s.done && !v.getLsbD 1) := rfl
@[simp] theorem clearFlags_errBusy (v : Word) : (clearFlags v s).errBusy = (s.errBusy && !v.getLsbD 2) :=
  rfl
@[simp] theorem clearFlags_errOpcode (v : Word) : (clearFlags v s).errOpcode = (s.errOpcode && !v.getLsbD 3) :=
  rfl
@[simp] theorem clearFlags_errTimer (v : Word) : (clearFlags v s).errTimer = (s.errTimer && !v.getLsbD 4) :=
  rfl
@[simp] theorem clearFlags_errState (v : Word) : (clearFlags v s).errState = (s.errState && !v.getLsbD 5) :=
  rfl
@[simp] theorem clearFlags_base (v : Word) : (clearFlags v s).base = s.base := rfl
@[simp] theorem clearFlags_rdata (v : Word) : (clearFlags v s).rdata = s.rdata := rfl
@[simp] theorem clearFlags_sclO (v : Word) : (clearFlags v s).sclO = s.sclO := rfl
@[simp] theorem clearFlags_dir (v : Word) : (clearFlags v s).dir = s.dir := rfl
@[simp] theorem clearFlags_lvl (v : Word) : (clearFlags v s).lvl = s.lvl := rfl
@[simp] theorem clearFlags_sync0 (v : Word) : (clearFlags v s).sync0 = s.sync0 := rfl
@[simp] theorem clearFlags_sync1 (v : Word) : (clearFlags v s).sync1 = s.sync1 := rfl
@[simp] theorem clearFlags_cmd (v : Word) : (clearFlags v s).cmd = s.cmd := rfl
@[simp] theorem clearFlags_prog (v : Word) : (clearFlags v s).prog = s.prog := rfl
@[simp] theorem clearFlags_mpc (v : Word) : (clearFlags v s).mpc = s.mpc := rfl
@[simp] theorem clearFlags_buf (v : Word) : (clearFlags v s).buf = s.buf := rfl
@[simp] theorem clearFlags_wcnt (v : Word) : (clearFlags v s).wcnt = s.wcnt := rfl
@[simp] theorem clearFlags_pre (v : Word) : (clearFlags v s).pre = s.pre := rfl
@[simp] theorem clearFlags_tmr (v : Word) : (clearFlags v s).tmr = s.tmr := rfl
@[simp] theorem clearFlags_tick (v : Word) : (clearFlags v s).tick = s.tick := rfl
@[simp] theorem clearFlags_trace (v : Word) : (clearFlags v s).trace = s.trace := rfl
@[simp] theorem clearFlags_now (v : Word) : (clearFlags v s).now = s.now := rfl
@[simp] theorem clearFlags_host (v : Word) : (clearFlags v s).host = s.host := rfl
@[simp] theorem clearFlags_pwdata (v : Word) : (clearFlags v s).pwdata = s.pwdata := rfl
@[simp] theorem clearFlags_reads (v : Word) : (clearFlags v s).reads = s.reads := rfl

/-! ### `microOp (.scl l)` -/

@[simp] theorem microOp_scl_timerEn (l : Bool) : (microOp (.scl l) s).timerEn = s.timerEn := rfl
@[simp] theorem microOp_scl_busy (l : Bool) : (microOp (.scl l) s).busy = s.busy := rfl
@[simp] theorem microOp_scl_done (l : Bool) : (microOp (.scl l) s).done = s.done := rfl
@[simp] theorem microOp_scl_errBusy (l : Bool) : (microOp (.scl l) s).errBusy = s.errBusy := rfl
@[simp] theorem microOp_scl_errOpcode (l : Bool) : (microOp (.scl l) s).errOpcode = s.errOpcode :=
  rfl
@[simp] theorem microOp_scl_errTimer (l : Bool) : (microOp (.scl l) s).errTimer = s.errTimer := rfl
@[simp] theorem microOp_scl_errState (l : Bool) : (microOp (.scl l) s).errState = s.errState := rfl
@[simp] theorem microOp_scl_base (l : Bool) : (microOp (.scl l) s).base = s.base := rfl
@[simp] theorem microOp_scl_rdata (l : Bool) : (microOp (.scl l) s).rdata = s.rdata := rfl
@[simp] theorem microOp_scl_sclO (l : Bool) : (microOp (.scl l) s).sclO = l := rfl
@[simp] theorem microOp_scl_dir (l : Bool) : (microOp (.scl l) s).dir = s.dir := rfl
@[simp] theorem microOp_scl_lvl (l : Bool) : (microOp (.scl l) s).lvl = s.lvl := rfl
@[simp] theorem microOp_scl_sync0 (l : Bool) : (microOp (.scl l) s).sync0 = s.sync0 := rfl
@[simp] theorem microOp_scl_sync1 (l : Bool) : (microOp (.scl l) s).sync1 = s.sync1 := rfl
@[simp] theorem microOp_scl_cmd (l : Bool) : (microOp (.scl l) s).cmd = s.cmd := rfl
@[simp] theorem microOp_scl_prog (l : Bool) : (microOp (.scl l) s).prog = s.prog := rfl
@[simp] theorem microOp_scl_mpc (l : Bool) : (microOp (.scl l) s).mpc = s.mpc + 1 := rfl
@[simp] theorem microOp_scl_buf (l : Bool) : (microOp (.scl l) s).buf = s.buf := rfl
@[simp] theorem microOp_scl_wcnt (l : Bool) : (microOp (.scl l) s).wcnt = s.wcnt := rfl
@[simp] theorem microOp_scl_pre (l : Bool) : (microOp (.scl l) s).pre = s.pre := rfl
@[simp] theorem microOp_scl_tmr (l : Bool) : (microOp (.scl l) s).tmr = s.tmr := rfl
@[simp] theorem microOp_scl_tick (l : Bool) : (microOp (.scl l) s).tick = s.tick := rfl
@[simp] theorem microOp_scl_trace (l : Bool) : (microOp (.scl l) s).trace = s.trace ++ [⟨s.tick, .scl, l, s.sdaO, s.dir⟩] :=
  rfl
@[simp] theorem microOp_scl_now (l : Bool) : (microOp (.scl l) s).now = s.now := rfl
@[simp] theorem microOp_scl_host (l : Bool) : (microOp (.scl l) s).host = s.host := rfl
@[simp] theorem microOp_scl_pwdata (l : Bool) : (microOp (.scl l) s).pwdata = s.pwdata := rfl
@[simp] theorem microOp_scl_reads (l : Bool) : (microOp (.scl l) s).reads = s.reads := rfl

/-! ### `microOp (.sda l)` -/

@[simp] theorem microOp_sda_timerEn (l : Bool) : (microOp (.sda l) s).timerEn = s.timerEn := rfl
@[simp] theorem microOp_sda_busy (l : Bool) : (microOp (.sda l) s).busy = s.busy := rfl
@[simp] theorem microOp_sda_done (l : Bool) : (microOp (.sda l) s).done = s.done := rfl
@[simp] theorem microOp_sda_errBusy (l : Bool) : (microOp (.sda l) s).errBusy = s.errBusy := rfl
@[simp] theorem microOp_sda_errOpcode (l : Bool) : (microOp (.sda l) s).errOpcode = s.errOpcode :=
  rfl
@[simp] theorem microOp_sda_errTimer (l : Bool) : (microOp (.sda l) s).errTimer = s.errTimer := rfl
@[simp] theorem microOp_sda_errState (l : Bool) : (microOp (.sda l) s).errState = s.errState := rfl
@[simp] theorem microOp_sda_base (l : Bool) : (microOp (.sda l) s).base = s.base := rfl
@[simp] theorem microOp_sda_rdata (l : Bool) : (microOp (.sda l) s).rdata = s.rdata := rfl
@[simp] theorem microOp_sda_sclO (l : Bool) : (microOp (.sda l) s).sclO = s.sclO := rfl
@[simp] theorem microOp_sda_dir (l : Bool) : (microOp (.sda l) s).dir = s.dir := rfl
@[simp] theorem microOp_sda_lvl (l : Bool) : (microOp (.sda l) s).lvl = l := rfl
@[simp] theorem microOp_sda_sync0 (l : Bool) : (microOp (.sda l) s).sync0 = s.sync0 := rfl
@[simp] theorem microOp_sda_sync1 (l : Bool) : (microOp (.sda l) s).sync1 = s.sync1 := rfl
@[simp] theorem microOp_sda_cmd (l : Bool) : (microOp (.sda l) s).cmd = s.cmd := rfl
@[simp] theorem microOp_sda_prog (l : Bool) : (microOp (.sda l) s).prog = s.prog := rfl
@[simp] theorem microOp_sda_mpc (l : Bool) : (microOp (.sda l) s).mpc = s.mpc + 1 := rfl
@[simp] theorem microOp_sda_buf (l : Bool) : (microOp (.sda l) s).buf = s.buf := rfl
@[simp] theorem microOp_sda_wcnt (l : Bool) : (microOp (.sda l) s).wcnt = s.wcnt := rfl
@[simp] theorem microOp_sda_pre (l : Bool) : (microOp (.sda l) s).pre = s.pre := rfl
@[simp] theorem microOp_sda_tmr (l : Bool) : (microOp (.sda l) s).tmr = s.tmr := rfl
@[simp] theorem microOp_sda_tick (l : Bool) : (microOp (.sda l) s).tick = s.tick := rfl
@[simp] theorem microOp_sda_trace (l : Bool) : (microOp (.sda l) s).trace = s.trace ++ [⟨s.tick, .sda, s.sclO, (!(s.sdaOe && !l)), s.dir⟩] :=
  rfl
@[simp] theorem microOp_sda_now (l : Bool) : (microOp (.sda l) s).now = s.now := rfl
@[simp] theorem microOp_sda_host (l : Bool) : (microOp (.sda l) s).host = s.host := rfl
@[simp] theorem microOp_sda_pwdata (l : Bool) : (microOp (.sda l) s).pwdata = s.pwdata := rfl
@[simp] theorem microOp_sda_reads (l : Bool) : (microOp (.sda l) s).reads = s.reads := rfl

/-! ### `microOp (.dir d)` -/

@[simp] theorem microOp_dir_timerEn (d : Dir) : (microOp (.dir d) s).timerEn = s.timerEn := rfl
@[simp] theorem microOp_dir_busy (d : Dir) : (microOp (.dir d) s).busy = s.busy := rfl
@[simp] theorem microOp_dir_done (d : Dir) : (microOp (.dir d) s).done = s.done := rfl
@[simp] theorem microOp_dir_errBusy (d : Dir) : (microOp (.dir d) s).errBusy = s.errBusy := rfl
@[simp] theorem microOp_dir_errOpcode (d : Dir) : (microOp (.dir d) s).errOpcode = s.errOpcode :=
  rfl
@[simp] theorem microOp_dir_errTimer (d : Dir) : (microOp (.dir d) s).errTimer = s.errTimer := rfl
@[simp] theorem microOp_dir_errState (d : Dir) : (microOp (.dir d) s).errState = s.errState := rfl
@[simp] theorem microOp_dir_base (d : Dir) : (microOp (.dir d) s).base = s.base := rfl
@[simp] theorem microOp_dir_rdata (d : Dir) : (microOp (.dir d) s).rdata = s.rdata := rfl
@[simp] theorem microOp_dir_sclO (d : Dir) : (microOp (.dir d) s).sclO = s.sclO := rfl
@[simp] theorem microOp_dir_dir (d : Dir) : (microOp (.dir d) s).dir = d := rfl
@[simp] theorem microOp_dir_lvl (d : Dir) : (microOp (.dir d) s).lvl = true := rfl
@[simp] theorem microOp_dir_sync0 (d : Dir) : (microOp (.dir d) s).sync0 = s.sync0 := rfl
@[simp] theorem microOp_dir_sync1 (d : Dir) : (microOp (.dir d) s).sync1 = s.sync1 := rfl
@[simp] theorem microOp_dir_cmd (d : Dir) : (microOp (.dir d) s).cmd = s.cmd := rfl
@[simp] theorem microOp_dir_prog (d : Dir) : (microOp (.dir d) s).prog = s.prog := rfl
@[simp] theorem microOp_dir_mpc (d : Dir) : (microOp (.dir d) s).mpc = s.mpc + 1 := rfl
@[simp] theorem microOp_dir_buf (d : Dir) : (microOp (.dir d) s).buf = s.buf := rfl
@[simp] theorem microOp_dir_wcnt (d : Dir) : (microOp (.dir d) s).wcnt = s.wcnt := rfl
@[simp] theorem microOp_dir_pre (d : Dir) : (microOp (.dir d) s).pre = s.pre := rfl
@[simp] theorem microOp_dir_tmr (d : Dir) : (microOp (.dir d) s).tmr = s.tmr := rfl
@[simp] theorem microOp_dir_tick (d : Dir) : (microOp (.dir d) s).tick = s.tick := rfl
@[simp] theorem microOp_dir_now (d : Dir) : (microOp (.dir d) s).now = s.now := rfl
@[simp] theorem microOp_dir_host (d : Dir) : (microOp (.dir d) s).host = s.host := rfl
@[simp] theorem microOp_dir_pwdata (d : Dir) : (microOp (.dir d) s).pwdata = s.pwdata := rfl
@[simp] theorem microOp_dir_reads (d : Dir) : (microOp (.dir d) s).reads = s.reads := rfl
@[simp] theorem microOp_dir_trace (d : Dir) : (microOp (.dir d) s).trace
    = s.trace ++ [⟨s.tick, .dir, s.sclO, true, d⟩] := by
  cases d <;> rfl

/-! ### `microOp .smp` -/

@[simp] theorem microOp_smp_timerEn : (microOp .smp s).timerEn = s.timerEn := rfl
@[simp] theorem microOp_smp_busy : (microOp .smp s).busy = s.busy := rfl
@[simp] theorem microOp_smp_done : (microOp .smp s).done = s.done := rfl
@[simp] theorem microOp_smp_errBusy : (microOp .smp s).errBusy = s.errBusy := rfl
@[simp] theorem microOp_smp_errOpcode : (microOp .smp s).errOpcode = s.errOpcode := rfl
@[simp] theorem microOp_smp_errTimer : (microOp .smp s).errTimer = s.errTimer := rfl
@[simp] theorem microOp_smp_errState : (microOp .smp s).errState = s.errState := rfl
@[simp] theorem microOp_smp_base : (microOp .smp s).base = s.base := rfl
@[simp] theorem microOp_smp_rdata : (microOp .smp s).rdata = s.rdata := rfl
@[simp] theorem microOp_smp_sclO : (microOp .smp s).sclO = s.sclO := rfl
@[simp] theorem microOp_smp_dir : (microOp .smp s).dir = s.dir := rfl
@[simp] theorem microOp_smp_lvl : (microOp .smp s).lvl = s.lvl := rfl
@[simp] theorem microOp_smp_sync0 : (microOp .smp s).sync0 = s.sync0 := rfl
@[simp] theorem microOp_smp_sync1 : (microOp .smp s).sync1 = s.sync1 := rfl
@[simp] theorem microOp_smp_cmd : (microOp .smp s).cmd = s.cmd := rfl
@[simp] theorem microOp_smp_prog : (microOp .smp s).prog = s.prog := rfl
@[simp] theorem microOp_smp_mpc : (microOp .smp s).mpc = s.mpc + 1 := rfl
@[simp] theorem microOp_smp_buf : (microOp .smp s).buf = shiftIn s.buf s.sync1 := rfl
@[simp] theorem microOp_smp_wcnt : (microOp .smp s).wcnt = s.wcnt := rfl
@[simp] theorem microOp_smp_pre : (microOp .smp s).pre = s.pre := rfl
@[simp] theorem microOp_smp_tmr : (microOp .smp s).tmr = s.tmr := rfl
@[simp] theorem microOp_smp_tick : (microOp .smp s).tick = s.tick := rfl
@[simp] theorem microOp_smp_trace : (microOp .smp s).trace = s.trace ++ [⟨s.tick, (.smp s.sync1), s.sclO, s.sdaO, s.dir⟩] :=
  rfl
@[simp] theorem microOp_smp_now : (microOp .smp s).now = s.now := rfl
@[simp] theorem microOp_smp_host : (microOp .smp s).host = s.host := rfl
@[simp] theorem microOp_smp_pwdata : (microOp .smp s).pwdata = s.pwdata := rfl
@[simp] theorem microOp_smp_reads : (microOp .smp s).reads = s.reads := rfl

/-! ### `microOp (.wait n)` -/

@[simp] theorem microOp_wait_timerEn (n : Nat) : (microOp (.wait n) s).timerEn = s.timerEn := rfl
@[simp] theorem microOp_wait_busy (n : Nat) : (microOp (.wait n) s).busy = s.busy := rfl
@[simp] theorem microOp_wait_done (n : Nat) : (microOp (.wait n) s).done = s.done := rfl
@[simp] theorem microOp_wait_errBusy (n : Nat) : (microOp (.wait n) s).errBusy = s.errBusy := rfl
@[simp] theorem microOp_wait_errOpcode (n : Nat) : (microOp (.wait n) s).errOpcode = s.errOpcode :=
  rfl
@[simp] theorem microOp_wait_errTimer (n : Nat) : (microOp (.wait n) s).errTimer = s.errTimer := rfl
@[simp] theorem microOp_wait_errState (n : Nat) : (microOp (.wait n) s).errState = s.errState := rfl
@[simp] theorem microOp_wait_base (n : Nat) : (microOp (.wait n) s).base = s.base := rfl
@[simp] theorem microOp_wait_rdata (n : Nat) : (microOp (.wait n) s).rdata = s.rdata := rfl
@[simp] theorem microOp_wait_sclO (n : Nat) : (microOp (.wait n) s).sclO = s.sclO := rfl
@[simp] theorem microOp_wait_dir (n : Nat) : (microOp (.wait n) s).dir = s.dir := rfl
@[simp] theorem microOp_wait_lvl (n : Nat) : (microOp (.wait n) s).lvl = s.lvl := rfl
@[simp] theorem microOp_wait_sync0 (n : Nat) : (microOp (.wait n) s).sync0 = s.sync0 := rfl
@[simp] theorem microOp_wait_sync1 (n : Nat) : (microOp (.wait n) s).sync1 = s.sync1 := rfl
@[simp] theorem microOp_wait_cmd (n : Nat) : (microOp (.wait n) s).cmd = s.cmd := rfl
@[simp] theorem microOp_wait_prog (n : Nat) : (microOp (.wait n) s).prog = s.prog := rfl
@[simp] theorem microOp_wait_mpc (n : Nat) : (microOp (.wait n) s).mpc = s.mpc + 1 := rfl
@[simp] theorem microOp_wait_buf (n : Nat) : (microOp (.wait n) s).buf = s.buf := rfl
@[simp] theorem microOp_wait_wcnt (n : Nat) : (microOp (.wait n) s).wcnt = 0 := rfl
@[simp] theorem microOp_wait_pre (n : Nat) : (microOp (.wait n) s).pre = s.pre := rfl
@[simp] theorem microOp_wait_tmr (n : Nat) : (microOp (.wait n) s).tmr = s.tmr := rfl
@[simp] theorem microOp_wait_tick (n : Nat) : (microOp (.wait n) s).tick = s.tick + n := rfl
@[simp] theorem microOp_wait_trace (n : Nat) : (microOp (.wait n) s).trace = s.trace ++ [⟨s.tick + n, (.wait n), s.sclO, s.sdaO, s.dir⟩] :=
  rfl
@[simp] theorem microOp_wait_now (n : Nat) : (microOp (.wait n) s).now = s.now := rfl
@[simp] theorem microOp_wait_host (n : Nat) : (microOp (.wait n) s).host = s.host := rfl
@[simp] theorem microOp_wait_pwdata (n : Nat) : (microOp (.wait n) s).pwdata = s.pwdata := rfl
@[simp] theorem microOp_wait_reads (n : Nat) : (microOp (.wait n) s).reads = s.reads := rfl

/-! ### `complete` -/

@[simp] theorem complete_timerEn : (complete s).timerEn = s.timerEn := rfl
@[simp] theorem complete_busy : (complete s).busy = false := rfl
@[simp] theorem complete_done : (complete s).done = true := rfl
@[simp] theorem complete_errBusy : (complete s).errBusy = s.errBusy := rfl
@[simp] theorem complete_errOpcode : (complete s).errOpcode = s.errOpcode := rfl
@[simp] theorem complete_errTimer : (complete s).errTimer = s.errTimer := rfl
@[simp] theorem complete_errState : (complete s).errState = s.errState := rfl
@[simp] theorem complete_base : (complete s).base = s.base := rfl
@[simp] theorem complete_sclO : (complete s).sclO = s.sclO := rfl
@[simp] theorem complete_dir : (complete s).dir = s.dir := rfl
@[simp] theorem complete_lvl : (complete s).lvl = s.lvl := rfl
@[simp] theorem complete_sync0 : (complete s).sync0 = s.sync0 := rfl
@[simp] theorem complete_sync1 : (complete s).sync1 = s.sync1 := rfl
@[simp] theorem complete_cmd : (complete s).cmd = s.cmd := rfl
@[simp] theorem complete_prog : (complete s).prog = s.prog := rfl
@[simp] theorem complete_mpc : (complete s).mpc = 0 := rfl
@[simp] theorem complete_buf : (complete s).buf = s.buf := rfl
@[simp] theorem complete_wcnt : (complete s).wcnt = s.wcnt := rfl
@[simp] theorem complete_pre : (complete s).pre = s.pre := rfl
@[simp] theorem complete_tmr : (complete s).tmr = s.tmr := rfl
@[simp] theorem complete_tick : (complete s).tick = s.tick := rfl
@[simp] theorem complete_trace : (complete s).trace = s.trace := rfl
@[simp] theorem complete_now : (complete s).now = s.now := rfl
@[simp] theorem complete_host : (complete s).host = s.host := rfl
@[simp] theorem complete_pwdata : (complete s).pwdata = s.pwdata := rfl
@[simp] theorem complete_reads : (complete s).reads = s.reads := rfl

/-! ### `accept` -/

@[simp] theorem accept_timerEn (w : Word) (c : Command) : (accept w c s).timerEn = s.timerEn := rfl
@[simp] theorem accept_busy (w : Word) (c : Command) : (accept w c s).busy = true := rfl
@[simp] theorem accept_done (w : Word) (c : Command) : (accept w c s).done = false := rfl
@[simp] theorem accept_errBusy (w : Word) (c : Command) : (accept w c s).errBusy = s.errBusy := rfl
@[simp] theorem accept_errOpcode (w : Word) (c : Command) : (accept w c s).errOpcode = s.errOpcode :=
  rfl
@[simp] theorem accept_errTimer (w : Word) (c : Command) : (accept w c s).errTimer = s.errTimer :=
  rfl
@[simp] theorem accept_errState (w : Word) (c : Command) : (accept w c s).errState = s.errState :=
  rfl
@[simp] theorem accept_base (w : Word) (c : Command) : (accept w c s).base = s.base := rfl
@[simp] theorem accept_rdata (w : Word) (c : Command) : (accept w c s).rdata = s.rdata := rfl
@[simp] theorem accept_sclO (w : Word) (c : Command) : (accept w c s).sclO = s.sclO := rfl
@[simp] theorem accept_dir (w : Word) (c : Command) : (accept w c s).dir = s.dir := rfl
@[simp] theorem accept_lvl (w : Word) (c : Command) : (accept w c s).lvl = s.lvl := rfl
@[simp] theorem accept_sync0 (w : Word) (c : Command) : (accept w c s).sync0 = s.sync0 := rfl
@[simp] theorem accept_sync1 (w : Word) (c : Command) : (accept w c s).sync1 = s.sync1 := rfl
@[simp] theorem accept_cmd (w : Word) (c : Command) : (accept w c s).cmd = w := rfl
@[simp] theorem accept_prog (w : Word) (c : Command) : (accept w c s).prog = c.prog := rfl
@[simp] theorem accept_mpc (w : Word) (c : Command) : (accept w c s).mpc = 0 := rfl
@[simp] theorem accept_buf (w : Word) (c : Command) : (accept w c s).buf = s.buf := rfl
@[simp] theorem accept_wcnt (w : Word) (c : Command) : (accept w c s).wcnt = s.wcnt := rfl
@[simp] theorem accept_pre (w : Word) (c : Command) : (accept w c s).pre = s.pre := rfl
@[simp] theorem accept_tmr (w : Word) (c : Command) : (accept w c s).tmr = s.tmr := rfl
@[simp] theorem accept_tick (w : Word) (c : Command) : (accept w c s).tick = 0 := rfl
@[simp] theorem accept_trace (w : Word) (c : Command) : (accept w c s).trace = s.trace := rfl
@[simp] theorem accept_now (w : Word) (c : Command) : (accept w c s).now = s.now := rfl
@[simp] theorem accept_host (w : Word) (c : Command) : (accept w c s).host = s.host := rfl
@[simp] theorem accept_pwdata (w : Word) (c : Command) : (accept w c s).pwdata = s.pwdata := rfl
@[simp] theorem accept_reads (w : Word) (c : Command) : (accept w c s).reads = s.reads := rfl

/-! ### `advance` -/

@[simp] theorem advance_timerEn (k : Nat) : (advance k s q).timerEn = q.timerEn := rfl
@[simp] theorem advance_busy (k : Nat) : (advance k s q).busy = q.busy := rfl
@[simp] theorem advance_done (k : Nat) : (advance k s q).done = q.done := rfl
@[simp] theorem advance_errBusy (k : Nat) : (advance k s q).errBusy = q.errBusy := rfl
@[simp] theorem advance_errOpcode (k : Nat) : (advance k s q).errOpcode = q.errOpcode := rfl
@[simp] theorem advance_errTimer (k : Nat) : (advance k s q).errTimer = q.errTimer := rfl
@[simp] theorem advance_errState (k : Nat) : (advance k s q).errState = q.errState := rfl
@[simp] theorem advance_base (k : Nat) : (advance k s q).base = q.base := rfl
@[simp] theorem advance_rdata (k : Nat) : (advance k s q).rdata = q.rdata := rfl
@[simp] theorem advance_sclO (k : Nat) : (advance k s q).sclO = q.sclO := rfl
@[simp] theorem advance_dir (k : Nat) : (advance k s q).dir = q.dir := rfl
@[simp] theorem advance_lvl (k : Nat) : (advance k s q).lvl = q.lvl := rfl
@[simp] theorem advance_sync0 (k : Nat) : (advance k s q).sync0 = (syncAfter s.wire k (s.sync0, s.sync1)).1 :=
  rfl
@[simp] theorem advance_sync1 (k : Nat) : (advance k s q).sync1 = (syncAfter s.wire k (s.sync0, s.sync1)).2 :=
  rfl
@[simp] theorem advance_cmd (k : Nat) : (advance k s q).cmd = q.cmd := rfl
@[simp] theorem advance_prog (k : Nat) : (advance k s q).prog = q.prog := rfl
@[simp] theorem advance_mpc (k : Nat) : (advance k s q).mpc = q.mpc := rfl
@[simp] theorem advance_buf (k : Nat) : (advance k s q).buf = q.buf := rfl
@[simp] theorem advance_wcnt (k : Nat) : (advance k s q).wcnt = q.wcnt := rfl
@[simp] theorem advance_pre (k : Nat) : (advance k s q).pre = (timerAfter k s).1 := rfl
@[simp] theorem advance_tmr (k : Nat) : (advance k s q).tmr = (timerAfter k s).2 := rfl
@[simp] theorem advance_tick (k : Nat) : (advance k s q).tick = q.tick := rfl
@[simp] theorem advance_trace (k : Nat) : (advance k s q).trace = q.trace := rfl
@[simp] theorem advance_now (k : Nat) : (advance k s q).now = s.now + k := rfl
@[simp] theorem advance_host (k : Nat) : (advance k s q).host = q.host := rfl
@[simp] theorem advance_pwdata (k : Nat) : (advance k s q).pwdata = q.pwdata := rfl
@[simp] theorem advance_reads (k : Nat) : (advance k s q).reads = q.reads := rfl

/-! ### `resetCycle` -/

@[simp] theorem resetCycle_timerEn : (resetCycle s).timerEn = State.reset.timerEn := rfl
@[simp] theorem resetCycle_busy : (resetCycle s).busy = State.reset.busy := rfl
@[simp] theorem resetCycle_done : (resetCycle s).done = State.reset.done := rfl
@[simp] theorem resetCycle_errBusy : (resetCycle s).errBusy = State.reset.errBusy := rfl
@[simp] theorem resetCycle_errOpcode : (resetCycle s).errOpcode = State.reset.errOpcode := rfl
@[simp] theorem resetCycle_errTimer : (resetCycle s).errTimer = State.reset.errTimer := rfl
@[simp] theorem resetCycle_errState : (resetCycle s).errState = State.reset.errState := rfl
@[simp] theorem resetCycle_base : (resetCycle s).base = State.reset.base := rfl
@[simp] theorem resetCycle_rdata : (resetCycle s).rdata = State.reset.rdata := rfl
@[simp] theorem resetCycle_sclO : (resetCycle s).sclO = State.reset.sclO := rfl
@[simp] theorem resetCycle_dir : (resetCycle s).dir = State.reset.dir := rfl
@[simp] theorem resetCycle_lvl : (resetCycle s).lvl = State.reset.lvl := rfl
@[simp] theorem resetCycle_sync0 : (resetCycle s).sync0 = State.reset.sync0 := rfl
@[simp] theorem resetCycle_sync1 : (resetCycle s).sync1 = State.reset.sync1 := rfl
@[simp] theorem resetCycle_cmd : (resetCycle s).cmd = State.reset.cmd := rfl
@[simp] theorem resetCycle_prog : (resetCycle s).prog = State.reset.prog := rfl
@[simp] theorem resetCycle_mpc : (resetCycle s).mpc = State.reset.mpc := rfl
@[simp] theorem resetCycle_buf : (resetCycle s).buf = State.reset.buf := rfl
@[simp] theorem resetCycle_wcnt : (resetCycle s).wcnt = State.reset.wcnt := rfl
@[simp] theorem resetCycle_pre : (resetCycle s).pre = State.reset.pre := rfl
@[simp] theorem resetCycle_tmr : (resetCycle s).tmr = State.reset.tmr := rfl
@[simp] theorem resetCycle_tick : (resetCycle s).tick = State.reset.tick := rfl
@[simp] theorem resetCycle_trace : (resetCycle s).trace = s.trace := rfl
@[simp] theorem resetCycle_now : (resetCycle s).now = s.now + 1 := rfl
@[simp] theorem resetCycle_host : (resetCycle s).host = s.host := rfl
@[simp] theorem resetCycle_pwdata : (resetCycle s).pwdata = s.pwdata := rfl
@[simp] theorem resetCycle_reads : (resetCycle s).reads = s.reads := rfl

/-! ### `State.blockPart` -/

@[simp] theorem blockPart_timerEn : (s.blockPart).timerEn = s.timerEn := rfl
@[simp] theorem blockPart_busy : (s.blockPart).busy = s.busy := rfl
@[simp] theorem blockPart_done : (s.blockPart).done = false := rfl
@[simp] theorem blockPart_errBusy : (s.blockPart).errBusy = false := rfl
@[simp] theorem blockPart_errOpcode : (s.blockPart).errOpcode = false := rfl
@[simp] theorem blockPart_errTimer : (s.blockPart).errTimer = false := rfl
@[simp] theorem blockPart_errState : (s.blockPart).errState = false := rfl
@[simp] theorem blockPart_base : (s.blockPart).base = s.base := rfl
@[simp] theorem blockPart_rdata : (s.blockPart).rdata = s.rdata := rfl
@[simp] theorem blockPart_sclO : (s.blockPart).sclO = s.sclO := rfl
@[simp] theorem blockPart_dir : (s.blockPart).dir = s.dir := rfl
@[simp] theorem blockPart_lvl : (s.blockPart).lvl = s.lvl := rfl
@[simp] theorem blockPart_sync0 : (s.blockPart).sync0 = s.sync0 := rfl
@[simp] theorem blockPart_sync1 : (s.blockPart).sync1 = s.sync1 := rfl
@[simp] theorem blockPart_cmd : (s.blockPart).cmd = s.cmd := rfl
@[simp] theorem blockPart_prog : (s.blockPart).prog = s.prog := rfl
@[simp] theorem blockPart_mpc : (s.blockPart).mpc = s.mpc := rfl
@[simp] theorem blockPart_buf : (s.blockPart).buf = s.buf := rfl
@[simp] theorem blockPart_wcnt : (s.blockPart).wcnt = s.wcnt := rfl
@[simp] theorem blockPart_pre : (s.blockPart).pre = s.pre := rfl
@[simp] theorem blockPart_tmr : (s.blockPart).tmr = s.tmr := rfl
@[simp] theorem blockPart_tick : (s.blockPart).tick = s.tick := rfl
@[simp] theorem blockPart_trace : (s.blockPart).trace = s.trace := rfl
@[simp] theorem blockPart_now : (s.blockPart).now = s.now := rfl
@[simp] theorem blockPart_host : (s.blockPart).host = [] := rfl
@[simp] theorem blockPart_pwdata : (s.blockPart).pwdata = 0#32 := rfl
@[simp] theorem blockPart_reads : (s.blockPart).reads = [] := rfl

/-! ### Derived outputs -/

@[simp] theorem sdaO_of_inp (h : s.dir = .inp) : s.sdaO = true := by
  simp [State.sdaO, State.sdaOe, h]

@[simp] theorem sdaO_of_out (h : s.dir = .out) : s.sdaO = s.lvl := by
  simp [State.sdaO, State.sdaOe, h]

/-- A state is determined by its block part and the eight fields the host can reach while BUSY = 1. -/
theorem State.eq_of_blockPart {s q : State} (h : s.blockPart = q.blockPart)
    (hd : s.done = q.done) (h1 : s.errBusy = q.errBusy) (h2 : s.errOpcode = q.errOpcode)
    (h3 : s.errTimer = q.errTimer) (h4 : s.errState = q.errState) (hh : s.host = q.host)
    (hp : s.pwdata = q.pwdata) (hr : s.reads = q.reads) : s = q := by
  cases s; cases q
  simp_all [State.blockPart]

end Sys2Proof.Machine
end

