-- ==== Sys2Proof/Laws/Time.lean ====
section
/-! SUPPORT. Time: the parameters' ranges, the timer and the synchronizer over several cycles, and
`advance` cut into shorter stretches (40_line_control.md R90, 10_state.md R35, R41). -/

namespace Sys2Proof.Machine

theorem tickCounts_pos : 0 < Config.tickCounts := Nat.succ_pos _

theorem tickCounts_le : Config.tickCounts ≤ 65535 := Config.tickCountsPred.isLt

theorem timerDiv_pos : 0 < Config.timerDiv := Nat.succ_pos _

theorem timerDiv_le : Config.timerDiv ≤ 65535 := Config.timerDivPred.isLt

theorem waitCycles_pos {n : Nat} (h : n ≠ 0) : 0 < waitCycles n :=
  Nat.mul_pos (Nat.mul_pos (Nat.pos_of_ne_zero h) tickCounts_pos) timerDiv_pos

@[simp] theorem waitCycles_zero : waitCycles 0 = 0 := by simp [waitCycles]

theorem waitCycles_add (a b : Nat) : waitCycles (a + b) = waitCycles a + waitCycles b := by
  simp [waitCycles, Nat.add_mul]

/-- The timer's two counters as one count of cycles since `TMR = 0, PRE = 0`. -/
theorem timerTick_iterate (k p : Nat) (t : Word) (h : p < Config.timerDiv) :
    timerTick^[k] (p, t) =
      ((p + k) % Config.timerDiv, t + BitVec.ofNat 32 ((p + k) / Config.timerDiv)) := by
  have hd := timerDiv_pos
  induction k with
  | zero => simp [Nat.mod_eq_of_lt h, Nat.div_eq_of_lt h]
  | succ k ih =>
    rw [Function.iterate_succ_apply', ih, timerTick, ← Nat.add_assoc]
    by_cases hw : (p + k) % Config.timerDiv = Config.timerDiv - 1
    · have hdvd : Config.timerDiv ∣ p + k + 1 := by
        refine Nat.dvd_of_mod_eq_zero ?_
        rw [Nat.add_mod, hw]
        rcases Nat.lt_or_ge 1 Config.timerDiv with h1 | h1
        · rw [Nat.mod_eq_of_lt h1, Nat.sub_add_cancel hd, Nat.mod_self]
        · have : Config.timerDiv = 1 := by omega
          simp [this]
      simp only [hw, if_true, Nat.succ_div, if_pos hdvd, Nat.mod_eq_zero_of_dvd hdvd,
        BitVec.ofNat_add, BitVec.add_assoc]
    · have hlt : (p + k) % Config.timerDiv + 1 < Config.timerDiv := by
        have := Nat.mod_lt (p + k) hd
        omega
      have hmod : (p + k + 1) % Config.timerDiv = (p + k) % Config.timerDiv + 1 := by
        rw [Nat.add_mod, Nat.mod_eq_of_lt (show 1 < Config.timerDiv by omega),
          Nat.mod_eq_of_lt hlt]
      have hnd : ¬ Config.timerDiv ∣ p + k + 1 := fun hdvd => by
        have := Nat.mod_eq_zero_of_dvd hdvd
        omega
      simp only [hw, if_false, Nat.succ_div, if_neg hnd, hmod, Nat.add_zero]

/-- With the timer running, `PRE` and `TMR` after `k` cycles (R90). -/
theorem timerAfter_running {s : State} (he : s.timerEn = true) (hp : s.pre < Config.timerDiv)
    (k : Nat) : timerAfter k s = ((s.pre + k) % Config.timerDiv,
      s.tmr + BitVec.ofNat 32 ((s.pre + k) / Config.timerDiv)) := by
  rw [timerAfter, if_pos he, timerTick_iterate k _ _ hp]

/-- With the timer stopped both counters hold their values (R90). -/
theorem timerAfter_stopped {s : State} (he : s.timerEn = false) (k : Nat) :
    timerAfter k s = (s.pre, s.tmr) := by
  simp [timerAfter, he]

/-- `PRE` stays below `TIMER_DIV`. -/
theorem timerAfter_pre_lt {s : State} (hp : s.pre < Config.timerDiv) (k : Nat) :
    (timerAfter k s).1 < Config.timerDiv := by
  cases he : s.timerEn with
  | true => rw [timerAfter_running he hp]; exact Nat.mod_lt _ timerDiv_pos
  | false => rw [timerAfter_stopped he]; exact hp

/-- A timer over `a + b` cycles is the timer over `a` and then `b`. -/
theorem timerAfter_add (a b : Nat) (s q : State) (he : q.timerEn = s.timerEn)
    (hq : (q.pre, q.tmr) = timerAfter a s) : timerAfter (a + b) s = timerAfter b q := by
  cases hs : s.timerEn with
  | true =>
    simp only [timerAfter, he, hs, if_true] at hq ⊢
    rw [hq, Nat.add_comm, Function.iterate_add_apply]
  | false => simpa [timerAfter, he, hs] using hq.symm

/-- The synchronizer over `a + b` cycles is the synchronizer over `a` and then `b`. -/
theorem syncAfter_add (f : Nat → Bool) (a b : Nat) (c : Bool × Bool) :
    syncAfter f (a + b) c = syncAfter (fun j => f (a + j)) b (syncAfter f a c) := by
  induction b with
  | zero => rfl
  | succ b ih => simp [syncAfter, ih]

/-- After two cycles and more the synchronizer holds the wire's last two levels (R35). -/
theorem syncAfter_two (f : Nat → Bool) (k : Nat) (c : Bool × Bool) :
    syncAfter f (k + 2) c = (f (k + 1), f k) := rfl

/-! ### `advance` -/

@[simp] theorem advance_zero (s : State) : advance 0 s s = s := by
  cases s
  simp [advance, timerAfter, syncAfter]

/-- A stretch of `a + b` cycles is one of `a` and then one of `b`, where the state between them shows
the same wire, the same bus history and the same TIMER_EN. -/
theorem advance_add (a b : Nat) (s m q : State) (he : m.timerEn = s.timerEn)
    (ht : deviceView m.trace = deviceView s.trace) (ho : m.sdaO = s.sdaO) :
    advance (a + b) s q = advance b (advance a s m) q := by
  have hw : (fun j => s.wire (a + j)) = (advance a s m).wire := by
    funext j
    simp [State.wire, ht, Nat.add_assoc, State.sdaO, State.sdaOe] at ho ⊢
    simp [ho]
  have h1 := timerAfter_add a b s (advance a s m) (by simp [he]) (by simp)
  have h2 := syncAfter_add s.wire a b (s.sync0, s.sync1)
  rw [hw] at h2
  simp only [advance, h1, h2, Nat.add_assoc]

/-- Only the last end state of a stretch counts. -/
@[simp] theorem advance_advance_same (k j : Nat) (s r q : State) :
    advance k s (advance j r q) = advance k s q := rfl

/-- What a stretch needs of its beginning. -/
theorem advance_congr {s r : State} (k : Nat) (q : State) (he : s.timerEn = r.timerEn)
    (hp : s.pre = r.pre) (ht : s.tmr = r.tmr) (h0 : s.sync0 = r.sync0) (h1 : s.sync1 = r.sync1)
    (hn : s.now = r.now) (hc : deviceView s.trace = deviceView r.trace) (ho : s.sdaO = r.sdaO) :
    advance k s q = advance k r q := by
  have hw : s.wire = r.wire := by
    funext j
    simp [State.wire, hn, hc, ho]
  simp only [advance, timerAfter, he, hp, ht, h0, h1, hn, hw]

end Sys2Proof.Machine
end

