-- ==== Sys2Proof/Laws/Sequencer.lean ====
section
/-! SUPPORT. The sequencer: running a command in one step is running it cycle by cycle, and the host
cannot reach it while it runs (20_memory.md R58 to R60, 70_reset_and_hazards.md R187). -/

namespace Sys2Proof.Machine

/-! ### What the host can reach while BUSY = 1 -/

theorem sdaO_congr {s q : State} (hd : s.dir = q.dir) (hl : s.lvl = q.lvl) : s.sdaO = q.sdaO := by
  simp [State.sdaO, State.sdaOe, hd, hl]

@[simp] theorem blockPart_sdaO (s : State) : s.blockPart.sdaO = s.sdaO := rfl

@[simp] theorem blockPart_remaining (s : State) : s.blockPart.remaining = s.remaining := rfl

/-- Equal block parts have equal fields, the eight the host can reach apart. -/
theorem blockPart_fields {s q : State} (h : s.blockPart = q.blockPart) :
    s.timerEn = q.timerEn ∧ s.busy = q.busy ∧ s.base = q.base ∧ s.rdata = q.rdata ∧
    s.sclO = q.sclO ∧ s.dir = q.dir ∧ s.lvl = q.lvl ∧ s.sync0 = q.sync0 ∧ s.sync1 = q.sync1 ∧
    s.cmd = q.cmd ∧ s.prog = q.prog ∧ s.mpc = q.mpc ∧ s.buf = q.buf ∧ s.wcnt = q.wcnt ∧
    s.pre = q.pre ∧ s.tmr = q.tmr ∧ s.tick = q.tick ∧ s.trace = q.trace ∧ s.now = q.now := by
  simpa [State.blockPart] using h

theorem refuse_blockPart (c : Cause) (s : State) : (refuse c s).blockPart = s.blockPart := by
  cases c <;> rfl

theorem issueCommand_busy {w : Word} {s : State} (hb : s.busy = true) :
    issueCommand w s = refuse .busy s := by
  unfold issueCommand checkReserved checkCommand
  cases decode w <;> simp [hb]

/-- While BUSY = 1 a host write changes only what the host can reach (R60). -/
theorem memWrite_blockPart {off : BitVec 5} {v : Word} {s : State} (hb : s.busy = true) :
    (memWrite off v s).blockPart = s.blockPart := by
  unfold memWrite
  split
  · rw [if_pos hb, refuse_blockPart]
  · rfl
  · rw [if_pos hb, refuse_blockPart]
  · rw [issueCommand_busy hb, refuse_blockPart]
  · rfl

/-- While BUSY = 1 a host access changes only what the host can reach (R60). -/
theorem hostAccess_blockPart {p : PortIn} {s : State} (hb : s.busy = true) :
    (hostAccess p s).blockPart = s.blockPart := by
  unfold hostAccess
  split
  · rfl
  · rfl
  · exact memWrite_blockPart (s := { s with pwdata := _ }) hb

/-- What a read or a write does to DONE and the flags aside, a running block still runs. -/
theorem hostAccess_busy {p : PortIn} {s : State} (hb : s.busy = true) :
    (hostAccess p s).busy = true := by
  have := (blockPart_fields (hostAccess_blockPart (p := p) hb)).2.1
  rw [this, hb]

theorem microOp_blockPart (op : MicroOp) (s : State) :
    (microOp op s).blockPart = (microOp op s.blockPart).blockPart := by
  cases op <;> rfl

theorem complete_blockPart (s : State) :
    (complete s).blockPart = (complete s.blockPart).blockPart := rfl

theorem advance_blockPart (k : Nat) (s q : State) :
    (advance k s q).blockPart = (advance k s.blockPart q.blockPart).blockPart := rfl

theorem waitCycle_blockPart (n : Nat) (s : State) :
    (waitCycle n s).blockPart = (waitCycle n s.blockPart).blockPart := by
  have hl : waitLeft n s.blockPart = waitLeft n s := rfl
  unfold waitCycle
  rw [hl, blockPart_timerEn]
  by_cases h : s.timerEn = true
  · by_cases h1 : waitLeft n s = 1
    · simp only [h, h1, if_true]
      rfl
    · simp only [h, h1, if_true, if_false]
      rfl
  · simp only [h]
    rfl

theorem sequencerCycle_blockPart (ops : List MicroOp) : ∀ s : State,
    (sequencerCycle ops s).blockPart = (sequencerCycle ops s.blockPart).blockPart := by
  induction ops with
  | nil => exact fun _ => rfl
  | cons op ops ih =>
    intro s
    cases op with
    | wait n =>
      simp only [sequencerCycle]
      split
      · rw [ih, microOp_blockPart, ← ih]
      · exact waitCycle_blockPart n s
    | _ => exact microOp_blockPart _ s

theorem timedOp_blockPart (op : MicroOp) (s : State) :
    (timedOp op s).blockPart = (timedOp op s.blockPart).blockPart := by
  cases op <;> rfl

theorem runOps_blockPart (ops : List MicroOp) : ∀ s : State,
    (runOps ops s).blockPart = (runOps ops s.blockPart).blockPart := by
  induction ops with
  | nil => exact fun _ => rfl
  | cons op ops ih =>
    intro s
    show (runOps ops (timedOp op s)).blockPart = (runOps ops (timedOp op s.blockPart)).blockPart
    rw [ih, timedOp_blockPart, ← ih]

theorem finish_blockPart (s : State) : (finish s).blockPart = (finish s.blockPart).blockPart := by
  show (completeCycle (runOps s.remaining s)).blockPart
    = (completeCycle (runOps s.remaining s.blockPart)).blockPart
  unfold completeCycle
  rw [advance_blockPart, complete_blockPart, runOps_blockPart, ← complete_blockPart,
    ← advance_blockPart]

theorem finish_congr {s q : State} (h : s.blockPart = q.blockPart) :
    (finish s).blockPart = (finish q).blockPart := by
  rw [finish_blockPart, h, ← finish_blockPart]

/-! ### Running micro-ops -/

@[simp] theorem runOps_nil (s : State) : runOps [] s = s := rfl

@[simp] theorem runOps_cons (op : MicroOp) (ops : List MicroOp) (s : State) :
    runOps (op :: ops) s = runOps ops (timedOp op s) := rfl

theorem runOps_append (a b : List MicroOp) (s : State) :
    runOps (a ++ b) s = runOps b (runOps a s) := by
  simp [runOps, List.foldl_append]

/-- The micro-ops after the one the sequencer stands at. -/
theorem remaining_next {s t : State} {op : MicroOp} {ops : List MicroOp}
    (h : s.remaining = op :: ops) (hp : t.prog = s.prog) (hm : t.mpc = s.mpc + 1) :
    t.remaining = ops := by
  unfold State.remaining at *
  rw [hp, hm, ← List.drop_drop, h]
  rfl

theorem microOp_prog (op : MicroOp) (s : State) : (microOp op s).prog = s.prog := by
  cases op <;> rfl

theorem microOp_mpc (op : MicroOp) (s : State) : (microOp op s).mpc = s.mpc + 1 := by
  cases op <;> rfl

theorem microOp_busy (op : MicroOp) (s : State) : (microOp op s).busy = s.busy := by
  cases op <;> rfl

theorem microOp_timerEn (op : MicroOp) (s : State) : (microOp op s).timerEn = s.timerEn := by
  cases op <;> rfl

theorem timedOp_eq (op : MicroOp) (s : State) :
    ∃ k, timedOp op s = advance k s (microOp op s) := by
  cases op <;> exact ⟨_, rfl⟩

theorem timedOp_other {op : MicroOp} (h : ∀ n, op ≠ .wait n) (s : State) :
    timedOp op s = advance 1 s (microOp op s) := by
  cases op with
  | wait n => exact absurd rfl (h n)
  | _ => rfl

theorem timedOp_wait (n : Nat) (s : State) :
    timedOp (.wait n) s = advance (waitLeft n s) s (microOp (.wait n) s) := rfl

theorem finish_eq {s : State} {ops : List MicroOp} (h : s.remaining = ops) :
    finish s = completeCycle (runOps ops s) := by
  rw [finish, h]

/-- One cycle of a running command, no host access in it: either the command goes on and the rest of
it is the rest of the whole, or it has completed and is the whole (R58, R59, R187). -/
theorem finish_after_cycle (ops : List MicroOp) : ∀ s : State, s.remaining = ops →
    s.busy = true → (hasWait ops = true → s.timerEn = true) →
    let t := advance 1 s (sequencerCycle ops s)
    (t.busy = true ∧ finish t = finish s ∧ t.timerEn = s.timerEn ∧
        (hasWait t.remaining = true → hasWait ops = true)) ∨
      (t.busy = false ∧ t = finish s) := by
  induction ops with
  | nil =>
    intro s hrem _ _
    exact .inr ⟨rfl, by rw [finish_eq hrem]; rfl⟩
  | cons op ops ih =>
    intro s hrem hb ht
    have hmono : hasWait ops = true → hasWait (op :: ops) = true := by
      intro h; simp only [hasWait, List.any_cons] at h ⊢; simp [h]
    by_cases hop : ∀ n, op ≠ .wait n
    · have hseq : sequencerCycle (op :: ops) s = microOp op s := by
        cases op with
        | wait n => exact absurd rfl (hop n)
        | _ => rfl
      have hr : (advance 1 s (microOp op s)).remaining = ops :=
        remaining_next hrem (by simp [microOp_prog]) (by simp [microOp_mpc])
      refine .inl ⟨by simp [hseq, microOp_busy, hb], ?_, by simp [hseq, microOp_timerEn], ?_⟩
      · rw [hseq, finish_eq hr, finish_eq hrem, runOps_cons, timedOp_other hop]
      · rw [hseq, hr]; exact hmono
    · obtain ⟨n, rfl⟩ : ∃ n, op = .wait n := by
        by_contra hno
        exact hop fun n hn => hno ⟨n, hn⟩
      have hte : s.timerEn = true := ht rfl
      by_cases hn : n = 0
      · subst hn
        have hadv : ∀ k q, advance k s q = advance k (microOp (.wait 0) s) q := fun k q =>
          advance_congr k q rfl rfl rfl rfl rfl rfl (by simp [deviceView]) rfl
        have hr : (microOp (.wait 0) s).remaining = ops := remaining_next hrem rfl rfl
        have hfin : finish (microOp (.wait 0) s) = finish s := by
          rw [finish_eq hr, finish_eq hrem, runOps_cons, timedOp_wait,
            show waitLeft 0 s = 0 from rfl, hadv, advance_zero]
        have := ih (microOp (.wait 0) s) hr hb fun _ => hte
        simp only [sequencerCycle, if_true, hadv]
        rw [hfin] at this
        rcases this with ⟨h1, h2, h3, h4⟩ | h
        · exact .inl ⟨h1, h2, h3, fun h => hmono (h4 h)⟩
        · exact .inr h
      · have hpos : 0 < waitLeft n s := by
          have := waitCycles_pos hn
          simp only [waitLeft, hn, if_false]
          split <;> omega
        have hseq : sequencerCycle (.wait n :: ops) s = waitCycle n s := by
          simp [sequencerCycle, hn]
        rw [hseq, waitCycle, if_pos hte]
        by_cases h1 : waitLeft n s = 1
        · rw [if_pos h1]
          have hr : (advance 1 s (microOp (.wait n) s)).remaining = ops :=
            remaining_next hrem (by simp) (by simp)
          refine .inl ⟨by simp [hb], ?_, by simp, ?_⟩
          · rw [finish_eq hr, finish_eq hrem, runOps_cons, timedOp_wait, h1]
          · rw [hr]; exact hmono
        · rw [if_neg h1]
          have hr : (advance 1 s { s with wcnt := waitLeft n s - 1 }).remaining
              = .wait n :: ops := hrem
          refine .inl ⟨hb, ?_, rfl, fun _ => rfl⟩
          have hleft : waitLeft n (advance 1 s { s with wcnt := waitLeft n s - 1 })
              = waitLeft n s - 1 := by
            have : waitLeft n s - 1 ≠ 0 := by omega
            conv_lhs => rw [waitLeft]
            simp [hn, this]
          rw [finish_eq hr, finish_eq hrem, runOps_cons, runOps_cons, timedOp_wait, timedOp_wait,
            hleft]
          congr 2
          have hsum : waitLeft n s = 1 + (waitLeft n s - 1) := by omega
          conv_rhs => rw [hsum, advance_add 1 (waitLeft n s - 1) s
            { s with wcnt := waitLeft n s - 1 } _ rfl rfl rfl]
          rfl

/-! ### A whole command -/

/-- A cycle of the block with reset high, the command running: the host's access changes only what the
host can reach (R60). -/
theorem cycle_blockPart {p : PortIn} {s : State} (hp : p.rstN = true) (hb : s.busy = true) :
    (cycle p s).blockPart = (advance 1 s (sequencerCycle s.remaining s)).blockPart := by
  have h := hostAccess_blockPart (p := p) hb
  have hrem : (hostAccess p s).remaining = s.remaining := by
    rw [← blockPart_remaining, h, blockPart_remaining]
  rw [cycle, if_pos hp, sequencerPart, if_pos hb, hrem, advance_blockPart, sequencerCycle_blockPart, h,
    ← sequencerCycle_blockPart, ← advance_blockPart]

theorem drain_of_not_busy {ps : List PortIn} {s : State} (hb : s.busy = false) :
    drain ps s = s := by
  cases ps <;> simp [drain, hb]

/-- Whatever the host does while a command runs, reset kept high, the block ends as it ends with the
port idle (R60, R187). -/
theorem drain_blockPart (ps : List PortIn) : ∀ s : State, NoReset ps → s.busy = true →
    (hasWait s.remaining = true → s.timerEn = true) →
    (drain ps s).blockPart = (finish s).blockPart := by
  induction ps with
  | nil => intro s _ hb _; simp [drain, hb]
  | cons p ps ih =>
    intro s hps hb ht
    have hp : p.rstN = true := hps p (by simp)
    have hps' : NoReset ps := fun q hq => hps q (by simp [hq])
    rw [drain, if_pos hb]
    let s' : State := { s with host := ps }
    have hs' : s'.blockPart = s.blockPart := rfl
    have hc := cycle_blockPart (s := s') hp hb
    rw [← finish_congr hs']
    obtain ⟨h1, h2, h3, h4⟩ | ⟨h1, h2⟩ := finish_after_cycle s'.remaining s' rfl hb ht
    · have hf := blockPart_fields hc
      have hrem : (cycle p s').remaining = (advance 1 s' (sequencerCycle s'.remaining s')).remaining := by
        rw [← blockPart_remaining, hc, blockPart_remaining]
      rw [ih _ hps' (hf.2.1.trans h1) fun h => ?_, finish_congr hc, h2]
      rw [hf.1, h3]
      exact ht (h4 (hrem ▸ h))
    · have hbusy : (cycle p s').busy = false := (blockPart_fields hc).2.1.trans h1
      rw [drain_of_not_busy hbusy, hc, h2]

/-- A command that completes leaves DONE set, whatever the host writes to STATUS meanwhile
(60_exceptions.md R155). -/
theorem sequencerCycle_done (ops : List MicroOp) : ∀ s : State, s.busy = true →
    (sequencerCycle ops s).busy = false → (sequencerCycle ops s).done = true := by
  induction ops with
  | nil => intro s _ _; rfl
  | cons op ops ih =>
    intro s hb h
    cases op with
    | wait n =>
      simp only [sequencerCycle] at h ⊢
      split at h
      · rename_i h0
        rw [if_pos h0]
        exact ih _ (by simp [hb]) h
      · unfold waitCycle at h
        split at h <;> [split at h; skip] <;> simp [hb] at h
    | _ => simp [sequencerCycle, hb] at h

theorem drain_done (ps : List PortIn) : ∀ s : State, NoReset ps → s.busy = true →
    (drain ps s).done = true := by
  induction ps with
  | nil => intro s _ hb; simp [drain, hb, finish, completeCycle]
  | cons p ps ih =>
    intro s hps hb
    have hp : p.rstN = true := hps p (by simp)
    rw [drain, if_pos hb]
    cases hc : (cycle p { s with host := ps }).busy with
    | true => exact ih _ (fun q hq => hps q (by simp [hq])) hc
    | false =>
      rw [drain_of_not_busy hc]
      rw [cycle, if_pos hp, sequencerPart, if_pos (show ({ s with host := ps } : State).busy = true from hb),
        advance_busy] at hc
      rw [cycle, if_pos hp, sequencerPart, if_pos (show ({ s with host := ps } : State).busy = true from hb),
        advance_done]
      exact sequencerCycle_done _ _ (hostAccess_busy hb) hc

end Sys2Proof.Machine
end

