-- ==== Sys2Proof/Laws/Run.lean ====
section
/-! SUPPORT. What a command leaves: the acceptance check, the frame of a micro-program, and the state a
command accepted and run ends in (20_memory.md R57 to R60, 60_exceptions.md R153). -/

namespace Sys2Proof.Machine

/-! ### Acceptance -/

theorem checkCommand_eq_none {c : Command} {s : State} :
    checkCommand c s = none ↔ s.busy = false ∧ (c.needsTimer = true → s.timerEn = true) ∧
      dirMeets c.needDir s.dir = true := by
  unfold checkCommand
  cases s.busy <;> cases c.needsTimer <;> cases s.timerEn <;> cases dirMeets c.needDir s.dir <;>
    simp

theorem checkCommand_busy {c : Command} {s : State} (h : s.busy = true) :
    checkCommand c s = some .busy := by
  simp [checkCommand, h]

theorem checkCommand_timer {c : Command} {s : State} (hb : s.busy = false)
    (hn : c.needsTimer = true) (ht : s.timerEn = false) : checkCommand c s = some .timer := by
  simp [checkCommand, hb, hn, ht]

theorem checkCommand_state {c : Command} {s : State} (hb : s.busy = false)
    (ht : c.needsTimer = true → s.timerEn = true) (hd : dirMeets c.needDir s.dir = false) :
    checkCommand c s = some .state := by
  cases hn : c.needsTimer <;> simp_all [checkCommand]

/-! ### The dispatch, by the command of an instruction -/

/-- Every instruction's meaning is `runCommand` of its command. -/
theorem exec_eq (i : Instr) (s : State) :
    exec i s = .next (runCommand i (commandOf i s.base) s) := by
  cases i <;> rfl

theorem accepted_iff (i : Instr) (s : State) :
    Accepted i s ↔ checkCommand (commandOf i s.base) s = none := by
  rw [checkCommand_eq_none, Accepted]
  cases hd : s.dir <;> cases i <;>
    simp [timerCommands, outCommands, inpCommands, commandOf, dirMeets, writeRegCommand,
      readRegCommand, startCommand, stopCommand, writeByteCommand, readByteCommand,
      writeBitCommand, readBitCommand, idleCommand, setClkCommand, setDataCommand, setDirCommand,
      sampleCommand, delayCommand]

/-! ### The frame of a micro-program -/

/-- The micro-ops that sample. -/
def hasSample (ops : List MicroOp) : Bool :=
  ops.any fun op => match op with
    | .smp => true
    | _ => false

/-- What no micro-op changes, and the position after it (40_line_control.md R97, 20_memory.md R58). -/
theorem timedOp_frame (op : MicroOp) (s : State) :
    let t := timedOp op s
    t.timerEn = s.timerEn ∧ t.busy = s.busy ∧ t.done = s.done ∧ t.errBusy = s.errBusy ∧
      t.errOpcode = s.errOpcode ∧ t.errTimer = s.errTimer ∧ t.errState = s.errState ∧
      t.base = s.base ∧ t.rdata = s.rdata ∧ t.cmd = s.cmd ∧ t.prog = s.prog ∧
      t.mpc = s.mpc + 1 ∧ t.host = s.host ∧ t.pwdata = s.pwdata ∧ t.reads = s.reads := by
  cases op <;> simp [timedOp]

/-- What no micro-program changes, and the position after it (R97, R58). -/
theorem runOps_frame (ops : List MicroOp) : ∀ s : State,
    let t := runOps ops s
    t.timerEn = s.timerEn ∧ t.busy = s.busy ∧ t.done = s.done ∧ t.errBusy = s.errBusy ∧
      t.errOpcode = s.errOpcode ∧ t.errTimer = s.errTimer ∧ t.errState = s.errState ∧
      t.base = s.base ∧ t.rdata = s.rdata ∧ t.cmd = s.cmd ∧ t.prog = s.prog ∧
      t.mpc = s.mpc + ops.length ∧ t.host = s.host ∧ t.pwdata = s.pwdata ∧ t.reads = s.reads := by
  induction ops with
  | nil => simp
  | cons op ops ih =>
    intro s
    have h := ih (timedOp op s)
    have hf := timedOp_frame op s
    simp only [runOps_cons, List.length_cons] at h hf ⊢
    simp only [h, hf, true_and, and_true]
    omega

/-- A micro-program without `SMP` leaves the byte buffer (R97). -/
theorem runOps_buf (ops : List MicroOp) : ∀ s : State, hasSample ops = false →
    (runOps ops s).buf = s.buf := by
  induction ops with
  | nil => exact fun _ _ => rfl
  | cons op ops ih =>
    intro s h
    obtain ⟨k, hk⟩ := timedOp_eq op s
    rw [runOps_cons, ih _ (by cases op <;> simp_all [hasSample]), hk]
    cases op <;> simp_all [hasSample]

/-! ### A command accepted and run -/

/-- The state in which an accepted command's first micro-op runs: the cycle of the CMD write is over
(70_reset_and_hazards.md R187). -/
def accepted (i : Instr) (c : Command) (s : State) : State :=
  advance 1 s (accept (commandWord i s) c s)

/-- The state an accepted command ends in, no host access falling in it. -/
def completed (i : Instr) (c : Command) (s : State) : State :=
  completeCycle (runOps c.prog (accepted i c s))

theorem finish_accepted (i : Instr) (c : Command) (s : State) :
    finish (accepted i c s) = completed i c s := rfl

/-- A command's need of the timer is its having a `WAIT` (60_exceptions.md R153). -/
theorem hasWait_append (a b : List MicroOp) : hasWait (a ++ b) = (hasWait a || hasWait b) := by
  simp [hasWait]

theorem hasWait_commandOf (i : Instr) (base : BitVec 7)
    (h : hasWait (commandOf i base).prog = true) : (commandOf i base).needsTimer = true := by
  cases i <;> first | rfl | simp_all [commandOf, idleCommand, setClkCommand, setDataCommand,
    setDirCommand, sampleCommand, hasWait]

/-- A refused command: the flag, and the cycle. -/
theorem runCommand_refused {i : Instr} {c : Command} {s : State} {cause : Cause}
    (h : checkCommand c s = some cause) :
    runCommand i c s = advance 1 s (sequencerPart s.busy (refuse cause s)) := by
  simp [runCommand, h]

/-- An accepted command, with no host access while it runs. -/
theorem runCommand_quiet {i : Instr} {c : Command} {s : State} (h : checkCommand c s = none)
    (hh : s.host = []) : runCommand i c s = completed i c s := by
  simp [runCommand, h, hh, drain, ← finish_accepted, accepted]

/-- An accepted command, reset kept high: whatever the host does meanwhile, what the host cannot reach
comes out as with the port idle, and DONE is 1 (R60). -/
theorem runCommand_accepted {i : Instr} {c : Command} {s : State} (h : checkCommand c s = none)
    (hw : hasWait c.prog = true → c.needsTimer = true) (hr : NoReset s.host) :
    (runCommand i c s).blockPart = (completed i c s).blockPart ∧ (runCommand i c s).done = true := by
  have he : runCommand i c s = drain s.host (accepted i c s) := by simp [runCommand, h, accepted]
  rw [he, ← finish_accepted]
  exact ⟨drain_blockPart _ _ hr rfl fun hwait =>
    (checkCommand_eq_none.1 h).2.1 (hw hwait), drain_done _ _ hr rfl⟩

end Sys2Proof.Machine
end

