-- ==== Sys2Proof/Laws/Lines.lean ====
section
/-! SUPPORT. What a micro-program does to the lines, the trace and the byte buffer, as a function of its
micro-ops, the lines before it and the bits its `SMP`s read, whatever the timing
(40_line_control.md R91 to R97). -/

namespace Sys2Proof.Machine

/-- What an event shows: the tick clock, CLOCK, DATA's direction and its output level. -/
structure Pos where
  tick : Nat
  scl  : Bool
  dir  : Dir
  lvl  : Bool
deriving DecidableEq, Repr

/-- The position of a state. -/
def State.pos (s : State) : Pos := ⟨s.tick, s.sclO, s.dir, s.lvl⟩

/-- DATA's output at a position (10_state.md R36). -/
def Pos.sdaO (q : Pos) : Bool := !(q.dir == .out && !q.lvl)

/-- The position after a micro-op (R91 to R95). -/
def Pos.after (op : MicroOp) (q : Pos) : Pos :=
  match op with
  | .scl l => ⟨q.tick, l, q.dir, q.lvl⟩
  | .sda l => ⟨q.tick, q.scl, q.dir, l⟩
  | .dir d => ⟨q.tick, q.scl, d, true⟩
  | .smp => q
  | .wait n => ⟨q.tick + n, q.scl, q.dir, q.lvl⟩

/-- The event at a position. -/
def Pos.event (op : EventOp) (q : Pos) : Event := ⟨q.tick, op, q.scl, q.sdaO, q.dir⟩

/-- The events of micro-ops run from a position, their `SMP`s reading the bits given. -/
def eventsFrom : List MicroOp → List Bool → Pos → List Event
  | [], _, _ => []
  | .scl l :: ops, bs, q => (q.after (.scl l)).event .scl :: eventsFrom ops bs (q.after (.scl l))
  | .sda l :: ops, bs, q => (q.after (.sda l)).event .sda :: eventsFrom ops bs (q.after (.sda l))
  | .dir d :: ops, bs, q => (q.after (.dir d)).event .dir :: eventsFrom ops bs (q.after (.dir d))
  | .wait n :: ops, bs, q =>
    (q.after (.wait n)).event (.wait n) :: eventsFrom ops bs (q.after (.wait n))
  | .smp :: ops, [], q => q.event (.smp false) :: eventsFrom ops [] q
  | .smp :: ops, b :: bs, q => q.event (.smp b) :: eventsFrom ops bs q

/-- The position after micro-ops. -/
def posAfter (ops : List MicroOp) (q : Pos) : Pos := ops.foldl (fun q op => q.after op) q

/-- The number of `SMP`s. -/
def sampleCount : List MicroOp → Nat
  | [] => 0
  | .smp :: ops => sampleCount ops + 1
  | .scl _ :: ops | .sda _ :: ops | .dir _ :: ops | .wait _ :: ops => sampleCount ops

@[simp] theorem posAfter_nil (q : Pos) : posAfter [] q = q := rfl

@[simp] theorem posAfter_cons (op : MicroOp) (ops : List MicroOp) (q : Pos) :
    posAfter (op :: ops) q = posAfter ops (q.after op) := rfl

theorem posAfter_append (a b : List MicroOp) (q : Pos) :
    posAfter (a ++ b) q = posAfter b (posAfter a q) := by
  simp [posAfter, List.foldl_append]

theorem sdaO_pos (s : State) : s.sdaO = s.pos.sdaO := by
  simp [State.sdaO, State.sdaOe, Pos.sdaO, State.pos]

theorem timedOp_pos (op : MicroOp) (s : State) : (timedOp op s).pos = s.pos.after op := by
  cases op <;> simp [timedOp, State.pos, Pos.after]

/-- Micro-ops that sample nothing: their events do not depend on the bits given. -/
theorem eventsFrom_append (a b : List MicroOp) : ∀ (bs cs : List Bool) (q : Pos),
    bs.length = sampleCount a →
    eventsFrom (a ++ b) (bs ++ cs) q = eventsFrom a bs q ++ eventsFrom b cs (posAfter a q) := by
  induction a with
  | nil =>
    intro bs cs q h
    have : bs = [] := List.length_eq_zero_iff.1 h
    simp [this, eventsFrom]
  | cons op a ih =>
    intro bs cs q h
    cases op with
    | smp =>
      cases bs with
      | nil => simp [sampleCount] at h
      | cons x bs =>
        simp only [List.cons_append, eventsFrom, posAfter_cons, Pos.after]
        rw [ih bs cs q (by simpa [sampleCount] using h)]
    | _ =>
      simp only [List.cons_append, eventsFrom, posAfter_cons]
      rw [ih bs cs _ (by simpa [sampleCount] using h)]

theorem eventsFrom_length (ops : List MicroOp) : ∀ (bs : List Bool) (q : Pos),
    (eventsFrom ops bs q).length = ops.length := by
  induction ops with
  | nil => exact fun _ _ => rfl
  | cons op ops ih =>
    intro bs q
    cases op with
    | smp => cases bs <;> simp [eventsFrom, ih]
    | _ => simp [eventsFrom, ih]

/-- The bits read are those the trace shows. -/
theorem samples_eventsFrom (ops : List MicroOp) : ∀ (bs : List Bool) (q : Pos),
    bs.length = sampleCount ops → samples (eventsFrom ops bs q) = bs := by
  induction ops with
  | nil =>
    intro bs q h
    have : bs = [] := List.length_eq_zero_iff.1 h
    simp [this, eventsFrom, samples]
  | cons op ops ih =>
    intro bs q h
    cases op with
    | smp =>
      cases bs with
      | nil => simp [sampleCount] at h
      | cons x bs =>
        have := ih bs q (by simpa [sampleCount] using h)
        simp only [samples] at this ⊢
        simp [eventsFrom, Pos.event, this]
    | _ =>
      have := fun q => ih bs q (by simpa [sampleCount] using h)
      simp only [samples] at this ⊢
      simp [eventsFrom, Pos.event, this]

/-- The events of micro-ops name them, in list order, one each. -/
theorem eventsFrom_names (ops : List MicroOp) : ∀ (bs : List Bool) (q : Pos),
    opsOk q.dir ops = true →
    List.Forall₂ (fun op e => eventOf op e = true) ops (eventsFrom ops bs q) := by
  induction ops with
  | nil => exact fun _ _ _ => .nil
  | cons op ops ih =>
    intro bs q h
    cases op with
    | smp =>
      have h' : opsOk q.dir ops = true := by
        simp only [opsOk, Bool.and_eq_true] at h
        exact h.2
      cases bs <;> exact .cons rfl (ih _ _ h')
    | sda l =>
      simp only [opsOk, Bool.and_eq_true, beq_iff_eq] at h
      exact .cons (by simp [eventOf, Pos.event, Pos.after, Pos.sdaO, h.1]) (ih _ _ h.2)
    | dir d =>
      refine .cons ?_ (ih _ _ (by simp_all [opsOk, Pos.after]))
      simp [eventOf, Pos.event, Pos.after, Pos.sdaO]
    | _ =>
      refine .cons ?_ (ih _ _ (by simp_all [opsOk, Pos.after]))
      simp [eventOf, Pos.event, Pos.after]

/-- A micro-program's whole effect on the lines, the tick clock, the trace and the buffer: all of it is
given by its micro-ops and by the bits its `SMP`s read. -/
theorem runOps_lines (ops : List MicroOp) : ∀ s : State, ∃ bs : List Bool,
    bs.length = sampleCount ops ∧
    (runOps ops s).trace = s.trace ++ eventsFrom ops bs s.pos ∧
    (runOps ops s).pos = posAfter ops s.pos ∧
    (runOps ops s).buf = bs.foldl shiftIn s.buf := by
  induction ops with
  | nil => exact fun s => ⟨[], by simp [sampleCount, eventsFrom]⟩
  | cons op ops ih =>
    intro s
    obtain ⟨bs, hl, ht, hp, hb⟩ := ih (timedOp op s)
    rw [timedOp_pos] at ht hp
    cases op with
    | smp =>
      refine ⟨s.sync1 :: bs, by simp [sampleCount, hl], ?_, by simpa using hp, ?_⟩
      · rw [runOps_cons, ht]
        simp [timedOp, eventsFrom, Pos.event, Pos.after, State.pos, Pos.sdaO, State.sdaO,
          State.sdaOe]
      · rw [runOps_cons, hb]
        simp [timedOp]
    | _ =>
      refine ⟨bs, by simp [sampleCount, hl], ?_, by simpa using hp, ?_⟩
      · rw [runOps_cons, ht]
        simp [timedOp, eventsFrom, Pos.event, State.pos, Pos.after, Pos.sdaO, State.sdaO,
          State.sdaOe]
      · rw [runOps_cons, hb]
        simp [timedOp]

/-! ### Received bytes -/

/-- A bit received is bit 0 (40_line_control.md R94). -/
theorem shiftIn_getLsbD_zero (v : Byte) (b : Bool) : (shiftIn v b).getLsbD 0 = b := by
  simp only [shiftIn, BitVec.getLsbD_append, BitVec.getLsbD_ofBool]
  simp

/-- The bits received before move up by one (R94). -/
theorem shiftIn_getLsbD_succ (v : Byte) (b : Bool) (k : Nat) (h : k < 7) :
    (shiftIn v b).getLsbD (k + 1) = v.getLsbD k := by
  simp only [shiftIn, BitVec.getLsbD_append, BitVec.getLsbD_extractLsb']
  simp [h]

/-- Eight bits received: the first one is bit 7, the last one bit 0 (41_codec.md R114). -/
theorem bitsOf_shiftIn (v : Byte) (b7 b6 b5 b4 b3 b2 b1 b0 : Bool) :
    bitsOf ([b7, b6, b5, b4, b3, b2, b1, b0].foldl shiftIn v) = [b7, b6, b5, b4, b3, b2, b1, b0] := by
  simp [bitsOf, -BitVec.getLsbD_eq_getElem, shiftIn_getLsbD_zero, shiftIn_getLsbD_succ]

/-- A byte is given by its bits. -/
theorem bitsOf_injective {u v : Byte} (h : bitsOf u = bitsOf v) : u = v := by
  simp only [bitsOf, List.cons.injEq] at h
  apply BitVec.eq_of_getLsbD_eq
  intro k hk
  interval_cases k <;> simp only [h]

/-! ### A whole command -/

/-- Where an accepted command starts: the tick clock at 0, the lines as they are. -/
def State.startPos (s : State) : Pos := ⟨0, s.sclO, s.dir, s.lvl⟩

/-- RDATA after a completion, by the opcode of the command (20_memory.md R59). -/
def rdataAfter (opc : BitVec 4) (buf old : Byte) : Byte :=
  match opc.toNat with
  | 0x2 | 0x6 => buf
  | 0x8 | 0xD => 0#7 ++ BitVec.ofBool (buf.getLsbD 0)
  | _ => old

/-- A word that decodes to a command holds its opcode (30_encoding.md R71, R77). -/
theorem opcodeOf_of_decode {w : Word} {i : Instr} (h : decode w = .instr i) :
    opcodeOf w = i.opcode := by
  have h4 : ∀ n, (opcodeOf w).toNat = n → opcodeOf w = BitVec.ofNat 4 n := by
    intro n hn
    rw [← hn, BitVec.ofNat_toNat, BitVec.setWidth_eq]
  unfold decode at h
  split at h <;> cases h <;> rename_i ho <;> exact h4 _ ho

/-- The word CMD latches holds the opcode of the command it was accepted for (10_state.md R37). -/
theorem opcodeOf_commandWord (i : Instr) (s : State) : opcodeOf (commandWord i s) = i.opcode := by
  unfold commandWord
  split
  · exact opcodeOf_of_decode ‹_›
  · cases i <;> simp [encode, Instr.opcode]

theorem completed_fields (i : Instr) (c : Command) (s : State) :
    let t := completed i c s
    t.busy = false ∧ t.done = true ∧ t.mpc = 0 ∧ t.cmd = commandWord i s ∧ t.prog = c.prog ∧
      t.timerEn = s.timerEn ∧ t.base = s.base ∧ t.errBusy = s.errBusy ∧
      t.errOpcode = s.errOpcode ∧ t.errTimer = s.errTimer ∧ t.errState = s.errState ∧
      t.reads = s.reads ∧ t.host = s.host ∧
      t.rdata = rdataAfter (opcodeOf (commandWord i s)) t.buf s.rdata := by
  obtain ⟨h1, -, -, h4, h5, h6, h7, h8, h9, h10, h11, -, h13, -, h15⟩ :=
    runOps_frame c.prog (accepted i c s)
  refine ⟨rfl, rfl, rfl, h10, h11, h1, h8, h4, h5, h6, h7, h15, h13, ?_⟩
  show rdataAfter (opcodeOf (runOps c.prog (accepted i c s)).cmd) _
    (runOps c.prog (accepted i c s)).rdata = _
  rw [h9, h10]
  rfl

theorem completed_lines (i : Instr) (c : Command) (s : State) : ∃ bs : List Bool,
    bs.length = sampleCount c.prog ∧
    (completed i c s).trace = s.trace ++ eventsFrom c.prog bs s.startPos ∧
    (completed i c s).pos = posAfter c.prog s.startPos ∧
    (completed i c s).buf = bs.foldl shiftIn s.buf := by
  obtain ⟨bs, hl, ht, hp, hb⟩ := runOps_lines c.prog (accepted i c s)
  exact ⟨bs, hl, ht, hp, hb⟩

/-- Everything an accepted command does that does not depend on the timing, reset kept high
(20_memory.md R57 to R60, 40_line_control.md R91 to R97). -/
theorem exec_accepted {i : Instr} {s : State} (ha : Accepted i s) (hr : NoReset s.host) :
    ∃ (t : State) (bs : List Bool), exec i s = .next t ∧ CommandDone i s t ∧
      t.blockPart = (completed i (commandOf i s.base) s).blockPart ∧
      bs.length = sampleCount (commandOf i s.base).prog ∧
      t.trace = s.trace ++ eventsFrom (commandOf i s.base).prog bs s.startPos ∧
      t.pos = posAfter (commandOf i s.base).prog s.startPos ∧
      t.buf = bs.foldl shiftIn s.buf ∧
      t.rdata = rdataAfter i.opcode t.buf s.rdata := by
  have hc := (accepted_iff i s).1 ha
  obtain ⟨hb, hd⟩ := runCommand_accepted (i := i) hc (hasWait_commandOf i s.base) hr
  obtain ⟨bs, hl, ht, hp, hbuf⟩ := completed_lines i (commandOf i s.base) s
  have hf := completed_fields i (commandOf i s.base) s
  have hop : opcodeOf (commandWord i s) = i.opcode := opcodeOf_commandWord i s
  have hq := runCommand_quiet (i := i) hc
  rw [exec_eq]
  generalize completed i (commandOf i s.base) s = u at *
  generalize runCommand i (commandOf i s.base) s = t at *
  obtain ⟨h1, h2, h3, h4, h5, h6, h7, -, -, h8, h9, h10, h11, -, -, -, h12, h13, -⟩ :=
    blockPart_fields hb
  simp only [State.pos] at hp ⊢
  simp only at hf
  obtain ⟨f1, f2, f3, f4, f5, f6, f7, f8, f9, f10, f11, f12, f13, f14⟩ := hf
  refine ⟨t, bs, rfl, ⟨h2.trans f1, hd, h10.trans f3, h8.trans f4, h9.trans f5, h1.trans f6,
    h3.trans f7, fun hh => ?_⟩, hb, hl, h13.trans ht, ?_, h11.trans hbuf, ?_⟩
  · rw [hq hh]
    exact ⟨f8, f9, f10, f11, f12, f13.trans hh⟩
  · rw [h12, h5, h6, h7, hp]
  · rw [h4, f14, hop, h11]

end Sys2Proof.Machine
end

