-- ==== Sys2Proof/Laws/Duration.lean ====
section
/-! SUPPORT. How long micro-programs take, and what the timer shows after them (40_line_control.md R90,
R95, 70_reset_and_hazards.md R187). -/

namespace Sys2Proof.Machine

/-- The cycles of one micro-op begun with the down-counter at 0 (R95, R187). -/
def opCycles (op : MicroOp) : Nat :=
  match op with
  | .wait n => waitCycles n
  | .scl _ | .sda _ | .dir _ | .smp => 1

/-- The cycles of micro-ops, without a completion (R187). -/
def programCycles : List MicroOp → Nat
  | [] => 0
  | op :: ops => opCycles op + programCycles ops

theorem programCycles_append (a b : List MicroOp) :
    programCycles (a ++ b) = programCycles a + programCycles b := by
  induction a with
  | nil => simp [programCycles]
  | cons op a ih => simp [programCycles, ih, Nat.add_assoc]

theorem waitLeft_of_rest {n : Nat} {s : State} (h : s.wcnt = 0) : waitLeft n s = waitCycles n := by
  by_cases hn : n = 0 <;> simp [waitLeft, h, hn]

/-- One micro-op: its cycles pass, the down-counter is at 0 after it. -/
theorem timedOp_time (op : MicroOp) (s : State) (h : s.wcnt = 0) :
    let t := timedOp op s
    t.now = s.now + opCycles op ∧ t.wcnt = 0 ∧ (t.pre, t.tmr) = timerAfter (opCycles op) s := by
  cases op <;> simp [timedOp, opCycles, waitLeft_of_rest h, h]

/-- Micro-ops: their cycles pass, and timer and down-counter are what that many cycles leave. -/
theorem runOps_time (ops : List MicroOp) : ∀ s : State, s.wcnt = 0 →
    let t := runOps ops s
    t.now = s.now + programCycles ops ∧ t.wcnt = 0 ∧
      (t.pre, t.tmr) = timerAfter (programCycles ops) s := by
  induction ops with
  | nil =>
    intro s h
    refine ⟨rfl, h, ?_⟩
    cases he : s.timerEn <;> simp [timerAfter, programCycles, he]
  | cons op ops ih =>
    intro s h
    obtain ⟨h1, h2, h3⟩ := timedOp_time op s h
    obtain ⟨i1, i2, i3⟩ := ih (timedOp op s) h2
    refine ⟨?_, i2, ?_⟩
    · simp only [runOps_cons, i1, h1, programCycles, Nat.add_assoc]
    · simp only [runOps_cons, i3, programCycles]
      exact (timerAfter_add _ _ s _ (timedOp_frame op s).1 h3).symm

/-- The micro-ops that are no `WAIT` (OPS of R187). -/
def plainOps : List MicroOp → Nat
  | [] => 0
  | .wait _ :: ops => plainOps ops
  | .scl _ :: ops | .sda _ :: ops | .dir _ :: ops | .smp :: ops => plainOps ops + 1

/-- The ticks of the `WAIT`s (TICKS of R187). -/
def waitTicks : List MicroOp → Nat
  | [] => 0
  | .wait n :: ops => n + waitTicks ops
  | .scl _ :: ops | .sda _ :: ops | .dir _ :: ops | .smp :: ops => waitTicks ops

theorem programCycles_eq (ops : List MicroOp) :
    programCycles ops = plainOps ops + waitCycles (waitTicks ops) := by
  induction ops with
  | nil => simp [programCycles, plainOps, waitTicks]
  | cons op ops ih =>
    cases op <;> simp only [programCycles, opCycles, plainOps, waitTicks, waitCycles_add, ih] <;>
      omega

theorem plainOps_append (a b : List MicroOp) : plainOps (a ++ b) = plainOps a + plainOps b := by
  induction a with
  | nil => simp [plainOps]
  | cons op a ih => cases op <;> (simp only [List.cons_append, plainOps, ih]; try omega)

theorem waitTicks_append (a b : List MicroOp) :
    waitTicks (a ++ b) = waitTicks a + waitTicks b := by
  induction a with
  | nil => simp [waitTicks]
  | cons op a ih => cases op <;> (simp only [List.cons_append, waitTicks, ih]; try omega)

theorem counts_wbyte (v : Byte) : plainOps (wbyte v) = 28 ∧ waitTicks (wbyte v) = 19 := by
  simp [wbyte, bitsOf, wbit, ninthWrite, plainOps, waitTicks]

theorem counts_rbyte : plainOps rbyte = 29 ∧ waitTicks rbyte = 18 := by decide

theorem counts_startC : plainOps startC = 4 ∧ waitTicks startC = 3 := by decide

theorem counts_stopC : plainOps stopC = 3 ∧ waitTicks stopC = 3 := by decide

/-- The table of R187 counts the micro-programs of the rules. -/
theorem programCycles_commandOf (i : Instr) (base : BitVec 7) :
    programCycles (commandOf i base).prog + 1 = busyCycles i := by
  have h : plainOps (commandOf i base).prog = commandOps i ∧
      waitTicks (commandOf i base).prog = commandTicks i := by
    cases i <;> simp [commandOf, writeRegCommand, readRegCommand, startCommand, stopCommand,
      writeByteCommand, readByteCommand, writeBitCommand, readBitCommand, idleCommand,
      setClkCommand, setDataCommand, setDirCommand, sampleCommand, delayCommand, wreg, rreg,
      plainOps_append, waitTicks_append, counts_wbyte, counts_rbyte, counts_startC, counts_stopC,
      plainOps, waitTicks, commandOps, commandTicks, wbit, rbit]
  rw [programCycles_eq, h.1, h.2]
  rfl

/-- An accepted command, no host access while it runs: its cycles, and the timer after it. -/
theorem completed_time (i : Instr) (s : State) (h : s.wcnt = 0) :
    let t := completed i (commandOf i s.base) s
    t.now = s.now + 1 + busyCycles i ∧ t.wcnt = 0 ∧
      (t.pre, t.tmr) = timerAfter (1 + busyCycles i) s := by
  have ha : (accepted i (commandOf i s.base) s).wcnt = 0 := h
  obtain ⟨h1, h2, h3⟩ := runOps_time (commandOf i s.base).prog _ ha
  have hf := (runOps_frame (commandOf i s.base).prog (accepted i (commandOf i s.base) s)).1
  rw [← programCycles_commandOf i s.base]
  refine ⟨?_, h2, ?_⟩
  · show (runOps _ _).now + 1 = _
    rw [h1]
    show s.now + 1 + _ + 1 = _
    omega
  · show timerAfter 1 (runOps _ _) = _
    rw [timerAfter_add 1 _ s (accepted i (commandOf i s.base) s) rfl rfl]
    exact (timerAfter_add _ 1 _ _ hf h3).symm

/-- What the host's port still carries does not reach what a command leaves (20_memory.md R60). -/
theorem completed_host (i : Instr) (c : Command) (s : State) (ps : List PortIn) :
    (completed i c { s with host := ps }).blockPart = (completed i c s).blockPart := by
  rw [← finish_accepted, ← finish_accepted]
  exact finish_congr rfl

end Sys2Proof.Machine
end

