-- ==== Sys2Proof/Laws/Port.lean ====
section
/-! SUPPORT. A cycle with a host access is the idle cycle with the access's own effect: what the
sequencer, the timer and the synchronizer do does not depend on the fields only the host reaches
(20_memory.md R54, R55, R60, 60_exceptions.md R151). -/

namespace Sys2Proof.Machine

@[simp] theorem access_idle : PortIn.idle.access = none := rfl

@[simp] theorem access_read (off : BitVec 5) : (PortIn.read off).access = some (.read off) := rfl

@[simp] theorem access_write (off : BitVec 5) (v : Word) :
    (PortIn.write off v).access = some (.write off v) := rfl

@[simp] theorem commandWrite_idle : PortIn.idle.commandWrite = none := rfl

@[simp] theorem commandWrite_read (off : BitVec 5) : (PortIn.read off).commandWrite = none := rfl

/-- Only a write to the word at 0x0C is a CMD write (10_state.md R20). -/
theorem commandWrite_write (off : BitVec 5) (v : Word) :
    (PortIn.write off v).commandWrite = if wordIndex off = 3 then some v else none := rfl

/-- The fields only the host reaches, DONE apart, set to given values. -/
def State.withHostSide (eB eO eT eS : Bool) (h : List PortIn) (pw : Word) (rd : List Word)
    (s : State) : State :=
  { s with
    errBusy := eB, errOpcode := eO, errTimer := eT, errState := eS
    host := h, pwdata := pw, reads := rd }

section HostSide

variable (eB eO eT eS : Bool) (h : List PortIn) (pw : Word) (rd : List Word)

theorem microOp_withHostSide (op : MicroOp) (s : State) :
    microOp op (s.withHostSide eB eO eT eS h pw rd)
      = (microOp op s).withHostSide eB eO eT eS h pw rd := by
  cases op <;> rfl

theorem waitCycle_withHostSide (n : Nat) (s : State) :
    waitCycle n (s.withHostSide eB eO eT eS h pw rd)
      = (waitCycle n s).withHostSide eB eO eT eS h pw rd := by
  have hl : waitLeft n (s.withHostSide eB eO eT eS h pw rd) = waitLeft n s := rfl
  have ht : (s.withHostSide eB eO eT eS h pw rd).timerEn = s.timerEn := rfl
  unfold waitCycle
  rw [hl, ht, microOp_withHostSide]
  by_cases h1 : s.timerEn = true <;> by_cases h2 : waitLeft n s = 1 <;>
    simp only [h1, h2, if_true, if_false] <;> rfl

theorem sequencerCycle_withHostSide (ops : List MicroOp) : ∀ s : State,
    sequencerCycle ops (s.withHostSide eB eO eT eS h pw rd)
      = (sequencerCycle ops s).withHostSide eB eO eT eS h pw rd := by
  induction ops with
  | nil => exact fun _ => rfl
  | cons op ops ih =>
    intro s
    cases op with
    | wait n =>
      simp only [sequencerCycle, microOp_withHostSide, ih, waitCycle_withHostSide]
      split <;> rfl
    | _ => exact microOp_withHostSide eB eO eT eS h pw rd _ s

theorem sequencerPart_withHostSide (b : Bool) (s : State) :
    sequencerPart b (s.withHostSide eB eO eT eS h pw rd)
      = (sequencerPart b s).withHostSide eB eO eT eS h pw rd := by
  cases b with
  | false => rfl
  | true => exact sequencerCycle_withHostSide eB eO eT eS h pw rd _ s

theorem advance_withHostSide (k : Nat) (s q : State) :
    advance k s (q.withHostSide eB eO eT eS h pw rd)
      = (advance k s q).withHostSide eB eO eT eS h pw rd := rfl

end HostSide

/-- A sequencer step does not touch what only the host reaches. -/
theorem sequencerPart_hostSide (b : Bool) (s : State) :
    let t := sequencerPart b s
    t.errBusy = s.errBusy ∧ t.errOpcode = s.errOpcode ∧ t.errTimer = s.errTimer ∧
      t.errState = s.errState ∧ t.host = s.host ∧ t.pwdata = s.pwdata ∧ t.reads = s.reads := by
  have h := sequencerPart_withHostSide s.errBusy s.errOpcode s.errTimer s.errState s.host s.pwdata
    s.reads b s
  have hs : s.withHostSide s.errBusy s.errOpcode s.errTimer s.errState s.host s.pwdata s.reads = s :=
    rfl
  rw [hs] at h
  rw [h]
  exact ⟨rfl, rfl, rfl, rfl, rfl, rfl, rfl⟩

theorem cycle_idle (s : State) : cycle PortIn.idle s = advance 1 s (sequencerPart s.busy s) := rfl

theorem cycle_idle_hostSide (s : State) :
    let t := cycle PortIn.idle s
    t.errBusy = s.errBusy ∧ t.errOpcode = s.errOpcode ∧ t.errTimer = s.errTimer ∧
      t.errState = s.errState ∧ t.host = s.host ∧ t.pwdata = s.pwdata ∧ t.reads = s.reads :=
  sequencerPart_hostSide s.busy s

/-- A cycle whose host access changes only what only the host reaches is the idle cycle with that
change. -/
theorem cycle_of_hostAccess {p : PortIn} {s : State} (hp : p.rstN = true)
    (eB eO eT eS : Bool) (pw : Word) (rd : List Word)
    (h : hostAccess p s = s.withHostSide eB eO eT eS s.host pw rd) :
    cycle p s = (cycle PortIn.idle s).withHostSide eB eO eT eS s.host pw rd := by
  rw [cycle, if_pos hp, h, sequencerPart_withHostSide, advance_withHostSide, cycle_idle]

theorem refuse_withHostSide (c : Cause) (s : State) :
    refuse c s = s.withHostSide (s.errBusy || c == .busy) (s.errOpcode || c == .opcode)
      (s.errTimer || c == .timer) (s.errState || c == .state) s.host s.pwdata s.reads := by
  cases c <;> simp [refuse, State.withHostSide]

/-- A refusal sets its flag in the idle cycle (60_exceptions.md R151). -/
theorem refused_cycle (c : Cause) (s : State) :
    advance 1 s (sequencerPart s.busy (refuse c s)) = refuse c (cycle PortIn.idle s) := by
  have h := cycle_idle_hostSide s
  rw [refuse_withHostSide, sequencerPart_withHostSide, advance_withHostSide, refuse_withHostSide,
    ← cycle_idle]
  simp only at h
  simp only [h]

end Sys2Proof.Machine
end

