-- ==== Sys2Proof/Laws/HostProgram.lean ====
section
/-! SUPPORT. What idle and reading cycles do to the block, and how R83's `WAIT` ends (30_encoding.md R83,
70_reset_and_hazards.md R186). -/

namespace Sys2Proof.Machine

/-- A host read is the idle cycle with the word noted (20_memory.md R54). -/
theorem cycle_read (off : BitVec 5) (s : State) :
    cycle (PortIn.read off) s =
      { cycle PortIn.idle s with reads := s.reads ++ [memRead off s] } := by
  have h := cycle_of_hostAccess (p := PortIn.read off) (s := s) rfl s.errBusy s.errOpcode s.errTimer
    s.errState s.pwdata (s.reads ++ [memRead off s]) rfl
  have hi := cycle_idle_hostSide s
  simp only at hi
  rw [h, State.withHostSide]
  simp only [hi]

/-- With no command running an idle cycle moves only the timer and the synchronizer (10_state.md R23,
60_exceptions.md R166). -/
theorem cycle_idle_of_not_busy {s : State} (hb : s.busy = false) :
    cycle PortIn.idle s = advance 1 s s := by
  rw [cycle_idle, hb]
  rfl

theorem cycle_idle_blockPart {s q : State} (h : s.blockPart = q.blockPart) :
    (cycle PortIn.idle s).blockPart = (cycle PortIn.idle q).blockPart := by
  have hb := (blockPart_fields h).2.1
  have key : ∀ r : State, (cycle PortIn.idle r).blockPart =
      (advance 1 r.blockPart (sequencerPart r.busy r.blockPart)).blockPart := by
    intro r
    rw [cycle_idle, advance_blockPart]
    cases r.busy with
    | false => rfl
    | true =>
      rw [sequencerPart, if_pos rfl, sequencerPart, if_pos rfl, sequencerCycle_blockPart,
        blockPart_remaining, ← advance_blockPart]
      rfl
  rw [key, key, h, hb]

theorem runCycles_append (a b : List PortIn) (s : State) :
    runCycles (a ++ b) s = runCycles b (runCycles a s) := by
  simp [runCycles, List.foldl_append]

/-- `t` comes from `s` by `n` cycles that end with the block as `n` idle cycles leave it, the host having
read `ws`. -/
structure Waited (n : Nat) (ws : List Word) (s t : State) : Prop where
  block : t.blockPart = (runCycles (List.replicate n PortIn.idle) s).blockPart
  done : (t.done || t.busy) = (s.done || s.busy)
  reads : t.reads = s.reads ++ ws
  cmd : t.cmd = s.cmd
  prog : t.prog = s.prog

theorem Waited.refl (s : State) : Waited 0 [] s s := ⟨rfl, rfl, by simp, rfl, rfl⟩

theorem sequencerCycle_program (ops : List MicroOp) : ∀ s : State,
    (sequencerCycle ops s).cmd = s.cmd ∧ (sequencerCycle ops s).prog = s.prog ∧
      (s.busy = true →
        ((sequencerCycle ops s).done || (sequencerCycle ops s).busy) = true) := by
  induction ops with
  | nil => exact fun _ => ⟨rfl, rfl, fun _ => rfl⟩
  | cons op ops ih =>
    intro s
    cases op with
    | wait n =>
      simp only [sequencerCycle]
      split
      · have h := ih (microOp (.wait 0) s)
        exact ⟨h.1, h.2.1, fun hb => h.2.2 (by simp [hb])⟩
      · unfold waitCycle
        split <;> [split; skip] <;> exact ⟨rfl, rfl, fun hb => by simp [hb]⟩
    | _ => exact ⟨rfl, rfl, fun hb => by simp [sequencerCycle, hb]⟩

theorem Waited.idle {n : Nat} {ws : List Word} {s t : State} (h : Waited n ws s t) :
    Waited (n + 1) ws s (cycle PortIn.idle t) := by
  have hp : ∀ r : State, ((cycle PortIn.idle r).done || (cycle PortIn.idle r).busy)
      = (r.done || r.busy) ∧ (cycle PortIn.idle r).cmd = r.cmd ∧
      (cycle PortIn.idle r).prog = r.prog := by
    intro r
    cases hb : r.busy with
    | false => simp [cycle_idle_of_not_busy hb, hb]
    | true =>
      have := sequencerCycle_program r.remaining r
      rw [cycle_idle, sequencerPart, if_pos hb]
      simp [this.1, this.2.1, this.2.2 hb]
  obtain ⟨h1, h2, h3⟩ := hp t
  refine ⟨?_, h1.trans h.done, ?_, h2.trans h.cmd, h3.trans h.prog⟩
  · rw [List.replicate_succ', runCycles_append]
    exact cycle_idle_blockPart h.block
  · exact (cycle_idle_hostSide t).2.2.2.2.2.2.trans h.reads

theorem Waited.read {n : Nat} {ws : List Word} {s t : State} (off : BitVec 5)
    (h : Waited n ws s t) :
    Waited (n + 1) (ws ++ [memRead off t]) s (cycle (PortIn.read off) t) := by
  have hi := h.idle
  rw [cycle_read]
  exact ⟨hi.block, hi.done, by simp [h.reads], hi.cmd, hi.prog⟩

theorem Waited.trans {n m : Nat} {ws vs : List Word} {s t u : State} (h : Waited n ws s t)
    (g : Waited m vs t u) : Waited (n + m) (ws ++ vs) s u := by
  refine ⟨?_, g.done.trans h.done, by rw [g.reads, h.reads, List.append_assoc],
    g.cmd.trans h.cmd, g.prog.trans h.prog⟩
  rw [g.block, ← List.replicate_append_replicate, runCycles_append]
  have : ∀ (m : Nat) {a b : State}, a.blockPart = b.blockPart →
      (runCycles (List.replicate m PortIn.idle) a).blockPart
        = (runCycles (List.replicate m PortIn.idle) b).blockPart := by
    intro m
    induction m with
    | zero => exact fun h => h
    | succ m ih => exact fun h => ih (cycle_idle_blockPart h)
  exact this m h.block

/-- The idle cycles before an access. -/
theorem beforeAccess_waited (gaps : List Nat) (s : State) :
    Waited (gaps.headD 0) [] s (beforeAccess gaps s) := by
  unfold beforeAccess
  induction gaps.headD 0 with
  | zero => exact Waited.refl s
  | succ k ih =>
    rw [List.replicate_succ', runCycles_append]
    exact ih.idle

/-! ### How a `WAIT` ends -/

/-- The running command, if any, completes within `k` cycles of the block. -/
def EndsWithin (k : Nat) (s : State) : Prop :=
  s.busy = true → (hasWait s.remaining = true → s.timerEn = true) ∧ (finish s).now ≤ s.now + k

theorem EndsWithin.idle {k : Nat} {s : State} (h : EndsWithin (k + 1) s) :
    EndsWithin k (cycle PortIn.idle s) := by
  intro hb
  cases hs : s.busy with
  | false => simp [cycle_idle_of_not_busy hs, hs] at hb
  | true =>
    obtain ⟨hw, hk⟩ := h hs
    have hc : cycle PortIn.idle s = advance 1 s (sequencerCycle s.remaining s) := by
      rw [cycle_idle, sequencerPart, if_pos hs]
    rw [hc] at hb ⊢
    obtain ⟨_, h2, h3, h4⟩ | ⟨h1, _⟩ := finish_after_cycle s.remaining s rfl hs hw
    · refine ⟨fun h => h3.trans (hw (h4 h)), ?_⟩
      rw [h2, advance_now]
      omega
    · rw [h1] at hb
      exact absurd hb (by simp)

theorem EndsWithin.mono {k m : Nat} {s : State} (hk : k ≤ m) (h : EndsWithin k s) :
    EndsWithin m s := fun hb => ⟨(h hb).1, by have := (h hb).2; omega⟩

theorem EndsWithin.congr {k : Nat} {s t : State} (h : EndsWithin k s)
    (hst : s.blockPart = t.blockPart) : EndsWithin k t := by
  have hf := blockPart_fields hst
  have hfin := blockPart_fields (finish_congr hst)
  intro hb
  obtain ⟨h1, h2⟩ := h (hf.2.1.trans hb)
  have hrem : t.remaining = s.remaining := by
    rw [← blockPart_remaining, ← hst, blockPart_remaining]
  refine ⟨fun hw => ?_, ?_⟩
  · rw [← hf.1]; exact h1 (hrem ▸ hw)
  · have e1 : (finish s).now = (finish t).now := hfin.2.2.2.2.2.2.2.2.2.2.2.2.2.2.2.2.2.2
    have e2 : s.now = t.now := hf.2.2.2.2.2.2.2.2.2.2.2.2.2.2.2.2.2.2
    omega

theorem EndsWithin.pos {k : Nat} {s : State} (h : EndsWithin k s) (hb : s.busy = true) : 0 < k := by
  have h1 := (h hb).2
  have h2 : s.now < (finish s).now := by
    have : ∀ (ops : List MicroOp) (r : State), r.now ≤ (runOps ops r).now := by
      intro ops
      induction ops with
      | nil => exact fun _ => le_rfl
      | cons op ops ih =>
        intro r
        rw [runOps_cons]
        refine le_trans ?_ (ih (timedOp op r))
        obtain ⟨k, hk⟩ := timedOp_eq op r
        rw [hk, advance_now]
        omega
    exact Nat.lt_succ_of_le (this s.remaining s)
  omega

theorem EndsWithin.beforeAccess {k : Nat} {s : State} (h : EndsWithin k s) (gaps : List Nat) :
    EndsWithin k (beforeAccess gaps s) := by
  unfold Machine.beforeAccess
  induction gaps.headD 0 with
  | zero => exact h
  | succ n ih =>
    rw [List.replicate_succ', runCycles_append]
    exact EndsWithin.idle (ih.mono (Nat.le_succ k))

/-- STATUS bit 0 is BUSY (10_state.md R22). -/
theorem memRead_status_busy (s : State) :
    (memRead HostReg.status.offset s).getLsbD 0 = s.busy := by
  show (statusWord s).getLsbD 0 = s.busy
  unfold statusWord
  rw [BitVec.getLsbD_append]
  simp

/-- STATUS bit 1 is DONE (10_state.md R22). -/
theorem memRead_status_done (s : State) :
    (memRead HostReg.status.offset s).getLsbD 1 = s.done := by
  show (statusWord s).getLsbD 1 = s.done
  unfold statusWord
  rw [BitVec.getLsbD_append, BitVec.getLsbD_append]
  simp

/-- One read of a `WAIT`: again while a command runs in the cycle of the read (R83). -/
theorem pollStatus_succ (k : Nat) (gaps : List Nat) (s : State) :
    pollStatus (k + 1) gaps s =
      let a := beforeAccess gaps s
      let t := cycle (PortIn.read HostReg.status.offset) a
      if a.busy then pollStatus k gaps.tail t else some (gaps.tail, t) := by
  simp only [pollStatus, memRead_status_busy]

/-- `WAIT` as the last statement. -/
theorem runStmts_poll (gaps : List Nat) (s : State) :
    runStmts [.poll] gaps s = pollStatus (s.cyclesLeft + 1) gaps s := by
  simp only [runStmts, HostStmt.run]
  cases pollStatus (s.cyclesLeft + 1) gaps s <;> rfl

/-- The last read of a `WAIT`: it shows BUSY = 0 and DONE as it stands. -/
theorem pollStatus_last (k : Nat) {gaps : List Nat} {s : State}
    (hb : (beforeAccess gaps s).busy = false) :
    let a := beforeAccess gaps s
    let t := cycle (PortIn.read HostReg.status.offset) a
    pollStatus (k + 1) gaps s = some (gaps.tail, t) ∧ t.busy = false ∧ t.done = a.done ∧
      Waited (gaps.headD 0 + 1) [memRead HostReg.status.offset a] s t := by
  refine ⟨?_, ?_, ?_, (beforeAccess_waited gaps s).trans ((Waited.refl _).read _)⟩
  · simp only [pollStatus_succ, hb]
    rfl
  all_goals simp [cycle_read, cycle_idle_of_not_busy hb, hb]

/-- A `WAIT` with reads enough ends, whatever the pace of the host's accesses: every word read but the last
showed BUSY = 1, the last shows BUSY = 0 and DONE as it stands (R83, R186). -/
theorem pollStatus_ends (k : Nat) : ∀ (gaps : List Nat) (s : State), EndsWithin k s →
    ∃ left t ws a n, pollStatus (k + 1) gaps s = some (left, t) ∧ t.busy = false ∧
      Waited n (ws ++ [memRead HostReg.status.offset a]) s t ∧
      (∀ r ∈ ws, r.getLsbD 0 = true) ∧ a.busy = false ∧ t.done = a.done := by
  induction k with
  | zero =>
    intro gaps s h
    have hb : (beforeAccess gaps s).busy = false := by
      cases hb : (beforeAccess gaps s).busy with
      | false => rfl
      | true => exact absurd ((h.beforeAccess gaps).pos hb) (lt_irrefl 0)
    obtain ⟨h1, h2, h3, h4⟩ := pollStatus_last 0 hb
    exact ⟨_, _, [], _, _, h1, h2, h4, by simp, hb, h3⟩
  | succ k ih =>
    intro gaps s h
    cases hb : (beforeAccess gaps s).busy with
    | false =>
      obtain ⟨h1, h2, h3, h4⟩ := pollStatus_last (k + 1) hb
      exact ⟨_, _, [], _, _, h1, h2, h4, by simp, hb, h3⟩
    | true =>
      have hk : EndsWithin k (cycle (PortIn.read HostReg.status.offset) (beforeAccess gaps s)) := by
        refine (h.beforeAccess gaps).idle.congr ?_
        rw [cycle_read]
        rfl
      obtain ⟨left, t, ws, a, n, h1, h2, h3, h4, h5, h6⟩ := ih gaps.tail _ hk
      refine ⟨left, t, memRead HostReg.status.offset (beforeAccess gaps s) :: ws, a, _, ?_, h2,
        (beforeAccess_waited gaps s).trans (((Waited.refl _).read HostReg.status.offset).trans h3),
        ?_, h5, h6⟩
      · rw [← h1]
        conv_lhs => rw [pollStatus_succ]
        simp only [hb, if_true]
      · intro r hr
        rcases List.mem_cons.1 hr with rfl | hr
        · rw [memRead_status_busy, hb]
        · exact h4 r hr

/-- Enough reads: one for each cycle the command has still to take, and one more. -/
theorem endsWithin_cyclesLeft {s : State}
    (h : s.busy = true → hasWait s.prog = true → s.timerEn = true) : EndsWithin s.cyclesLeft s := by
  intro hb
  refine ⟨fun hw => h hb ?_, ?_⟩
  · obtain ⟨op, hm, ho⟩ := List.any_eq_true.1 hw
    exact List.any_eq_true.2 ⟨op, List.mem_of_mem_drop hm, ho⟩
  · rw [State.cyclesLeft, if_pos hb]
    omega

end Sys2Proof.Machine
end

