-- ==== Sys2Proof/Laws/PerInstr.lean ====
section
/-! SUPPORT. The family `WritesItsOpcode` of LAWS.json: the encoding of a command carries the command's
opcode, and every bit its format reserves is 0 (30_encoding.md R77, R81: an assembler "always writes
reserved bits as 0"). -/

namespace Sys2Proof.Laws.WritesItsOpcode

def Statement (i : Instr) : Prop :=
  opcodeOf (encode i) = i.opcode ∧ encode i &&& ~~~ i.usedBits = 0#32

/-- Where the operand bytes are 0 or in use, nothing but the used bits is set. -/
theorem reserved_zero {w m : Word} (h : ∀ k < 32, w.getLsbD k = true → m.getLsbD k = true) :
    w &&& ~~~ m = 0#32 := by
  ext k hk
  have := h k hk
  rw [BitVec.getLsbD_eq_getElem hk, BitVec.getLsbD_eq_getElem hk] at this
  simp only [BitVec.getElem_and, BitVec.getElem_not, BitVec.getElem_zero]
  cases hw : w[k] <;> simp_all

theorem bitByte_getLsbD (l : Bool) (k : Nat) (h : (bitByte l).getLsbD k = true) : k = 0 := by
  by_contra hk
  simp only [bitByte, BitVec.getLsbD_append] at h
  rw [if_neg (by omega)] at h
  simp at h

/-- A word whose bytes B and A and reserved bits obey a format's mask. -/
theorem of_layout {hi lo : Byte} {opc : BitVec 4} {m : Word}
    (h0 : ∀ k < 4, m.getLsbD k = true)
    (hA : ∀ k < 8, lo.getLsbD k = true → m.getLsbD (8 + k) = true)
    (hB : ∀ k < 8, hi.getLsbD k = true → m.getLsbD (16 + k) = true) :
    layoutWord hi lo opc &&& ~~~ m = 0#32 := by
  refine reserved_zero fun k _ h => ?_
  rw [getLsbD_layoutWord] at h
  split at h
  · exact h0 k ‹_›
  split at h
  · cases h
  split at h
  · have := hA (k - 8) (by omega) h
    rwa [show 8 + (k - 8) = k by omega] at this
  split at h
  · have := hB (k - 16) (by omega) h
    rwa [show 16 + (k - 16) = k by omega] at this
  · cases h

theorem zero_byte {m : Word} {j : Nat} (k : Nat) (_ : k < 8) (h : (0#8).getLsbD k = true) :
    m.getLsbD (j + k) = true := by
  simp at h

/-- Formats RV and D. -/
theorem two_bytes (hi lo : Byte) (opc : BitVec 4) :
    layoutWord hi lo opc &&& ~~~ 0x00FFFF0F#32 = 0#32 :=
  have hA : ∀ k < 8, (0x00FFFF0F#32).getLsbD (8 + k) = true := by decide
  have hB : ∀ k < 8, (0x00FFFF0F#32).getLsbD (16 + k) = true := by decide
  of_layout (by decide) (fun k hk _ => hA k hk) (fun k hk _ => hB k hk)

/-- Format B. -/
theorem one_byte (lo : Byte) (opc : BitVec 4) :
    layoutWord 0#8 lo opc &&& ~~~ 0x0000FF0F#32 = 0#32 :=
  have hA : ∀ k < 8, (0x0000FF0F#32).getLsbD (8 + k) = true := by decide
  of_layout (by decide) (fun k hk _ => hA k hk) zero_byte

/-- Format L. -/
theorem one_bit (l : Bool) (opc : BitVec 4) :
    layoutWord 0#8 (bitByte l) opc &&& ~~~ 0x0000010F#32 = 0#32 :=
  of_layout (by decide) (fun k _ h => by rw [bitByte_getLsbD l k h]; decide) zero_byte

/-- Format N. -/
theorem no_operand (opc : BitVec 4) :
    layoutWord 0#8 0#8 opc &&& ~~~ 0x0000000F#32 = 0#32 :=
  of_layout (by decide) zero_byte zero_byte

theorem writeReg (reg value : Byte) : Statement (.writeReg reg value) :=
  ⟨opcodeOf_layoutWord .., two_bytes ..⟩

theorem readReg (reg : Byte) : Statement (.readReg reg) := ⟨opcodeOf_layoutWord .., one_byte ..⟩

theorem start : Statement .start := ⟨opcodeOf_layoutWord .., no_operand _⟩

theorem stop : Statement .stop := ⟨opcodeOf_layoutWord .., no_operand _⟩

theorem writeByte (v : Byte) : Statement (.writeByte v) := ⟨opcodeOf_layoutWord .., one_byte ..⟩

theorem readByte : Statement .readByte := ⟨opcodeOf_layoutWord .., no_operand _⟩

theorem writeBit (b : Bool) : Statement (.writeBit b) := ⟨opcodeOf_layoutWord .., one_bit ..⟩

theorem readBit : Statement .readBit := ⟨opcodeOf_layoutWord .., no_operand _⟩

theorem idle : Statement .idle := ⟨opcodeOf_layoutWord .., no_operand _⟩

theorem setClk (level : Bool) : Statement (.setClk level) := ⟨opcodeOf_layoutWord .., one_bit ..⟩

theorem setData (level : Bool) : Statement (.setData level) := ⟨opcodeOf_layoutWord .., one_bit ..⟩

theorem setDir (d : Dir) : Statement (.setDir d) := ⟨opcodeOf_layoutWord .., one_bit ..⟩

theorem sample : Statement .sample := ⟨opcodeOf_layoutWord .., no_operand _⟩

theorem delay (n : BitVec 16) : Statement (.delay n) := ⟨opcodeOf_layoutWord .., two_bytes ..⟩

end Sys2Proof.Laws.WritesItsOpcode
end

