-- ==== Sys2Proof/Tests/Slice0.lean ====
section
/-! SUPPORT. Tests of the model. The expected results are from spec/95_test_vectors.md (the vector is named)
or from the rule named; none is the model's own answer. At the end stands a witness for the hypotheses of
every statement that has some. -/

namespace Sys2Proof.Machine.Tests

/-! ### Small states -/

/-- The next state of an outcome. -/
def ran (o : Host.Outcome State Fault Refusal) : State :=
  match o with
  | .next t => t
  | .fault _ => State.reset
  | .refused _ => State.reset

/-- An idle block with given timer, CLOCK, direction and level; BASE is 0x21 (section 0). -/
def lined (timer scl : Bool) (d : Dir) (lvl : Bool) : State :=
  { State.reset with timerEn := timer, sclO := scl, dir := d, lvl := lvl, base := 0x21#7 }

/-- Idle, timer off. -/
def idleOff : State := lined false true .out true

/-- Idle, timer on. -/
def idleOn : State := lined true true .out true

/-- CLOCK high, DATA an input, timer off. -/
def inpOff : State := lined false true .inp true

/-- CLOCK high, DATA an input, timer on. -/
def inpOn : State := lined true true .inp true

/-- A START running at its first micro-op, timer on. -/
def running : State := { idleOn with busy := true, cmd := 0x00000003#32, prog := startC }

/-- A SAMPLE at its completion, the sampled bit 1. -/
def sampled : State :=
  { inpOff with busy := true, cmd := 0x0000000D#32, prog := [.smp], mpc := 1, buf := 0x01#8 }

/-- The next accesses of the host. -/
def State.carrying (s : State) (ps : List PortIn) : State := { s with host := ps }

/-- A CMD write, as one step. -/
def wrote (w : Word) (s : State) : State := ran (step (State.carrying s [PortIn.write 0x0C#5 w]))

/-- The four error flags: BUSY, OPCODE, TIMER, STATE. -/
def flags (s : State) : List Bool := [s.errBusy, s.errOpcode, s.errTimer, s.errState]

/-- STATUS with SDA_I, which shows the free DATA level (10_state.md R35), read as 0. -/
def statusLines (s : State) : Word := memRead 0x04#5 { s with sync1 := false }

/-- An event without the bit an `SMP` reads. -/
def blank (e : Event) : Event :=
  match e.op with
  | .smp _ => { e with op := .smp false }
  | .scl | .sda | .dir | .wait _ => e

/-! ### Well-formedness: the assembler refuses an operand out of range (30_encoding.md R81) -/

theorem test_writeReg_value_out_of_range : (AsmCommand.writeReg 0x0A 256).assemble = none := by decide

theorem test_writeReg_reg_out_of_range : (AsmCommand.writeReg 256 0).assemble = none := by decide

theorem test_readReg_out_of_range : (AsmCommand.readReg 256).assemble = none := by decide

theorem test_writeByte_out_of_range : (AsmCommand.writeByte 256).assemble = none := by decide

theorem test_writeBit_out_of_range : (AsmCommand.writeBit 2).assemble = none := by decide

theorem test_setClk_out_of_range : (AsmCommand.setClk 2).assemble = none := by decide

theorem test_setData_out_of_range : (AsmCommand.setData 2).assemble = none := by decide

theorem test_delay_out_of_range : (AsmCommand.delay 65536).assemble = none := by decide

theorem test_delay_in_range : (AsmCommand.delay 65535).assemble = some (.delay 0xFFFF#16) := by decide

/-! ### Decoding (section 2) -/

theorem test_decode_reserved :
    decode 0x00000000#32 = .reservedOpcode 0x0#4 ∧ decode 0xFFFFFFFF#32 = .reservedOpcode 0xF#4 := by
  decide

theorem test_decode_writeReg :
    decode 0x005C0A01#32 = .instr (.writeReg 0x0A#8 0x5C#8) ∧
    decode 0x12345671#32 = .instr (.writeReg 0x56#8 0x34#8) := by decide

theorem test_decode_readReg : decode 0x0000A502#32 = .instr (.readReg 0xA5#8) := by decide

theorem test_decode_start : decode 0xFFFFFFF3#32 = .instr .start := by decide

theorem test_decode_stop : decode 0x00001234#32 = .instr .stop := by decide

theorem test_decode_writeByte : decode 0x00004205#32 = .instr (.writeByte 0x42#8) := by decide

theorem test_decode_readByte : decode 0x00000006#32 = .instr .readByte := by decide

theorem test_decode_writeBit :
    decode 0x000001F7#32 = .instr (.writeBit true) ∧
    decode 0x0000FE07#32 = .instr (.writeBit false) := by decide

theorem test_decode_readBit : decode 0x00000008#32 = .instr .readBit := by decide

theorem test_decode_idle : decode 0x00000009#32 = .instr .idle := by decide

theorem test_decode_setClk :
    decode 0x0000000A#32 = .instr (.setClk false) ∧
    decode 0x0000010A#32 = .instr (.setClk true) := by decide

theorem test_decode_setData :
    decode 0x0000000B#32 = .instr (.setData false) ∧
    decode 0x0000010B#32 = .instr (.setData true) := by decide

theorem test_decode_setDir :
    decode 0x0000010C#32 = .instr (.setDir .out) ∧
    decode 0x0000020C#32 = .instr (.setDir .inp) := by decide

theorem test_decode_sample : decode 0x0000000D#32 = .instr .sample := by decide

theorem test_decode_delay :
    decode 0x0000050E#32 = .instr (.delay 5#16) ∧
    decode 0x00FFFF0E#32 = .instr (.delay 65535#16) ∧
    decode 0xAB00000E#32 = .instr (.delay 0#16) := by decide

/-- The words of the encoding column of 30_encoding.md R81, as section 9 writes them. -/
theorem test_encode :
    encode (.writeReg 0x0A#8 0x5C#8) = 0x005C0A01#32 ∧ encode (.readReg 0x0A#8) = 0x00000A02#32 ∧
    encode (.writeByte 0x43#8) = 0x00004305#32 ∧ encode (.setDir .out) = 0x0000010C#32 ∧
    encode (.delay 1#16) = 0x0000010E#32 := by decide

theorem test_decodeTableWord :
    decodeTableWord 32 0x005C0A01 = some (.writeReg 0x0A#8 0x5C#8) ∧
    decodeTableWord 32 0x0000000F = none := by decide

theorem test_withFetchWord :
    (ran (step (State.reset.withFetchWord 32 0x0000000A))).sclO = false := by decide

/-! ### Register access (section 3) -/

/-- H1 to H6 and H8. -/
theorem test_reset_reads :
    memRead 0x00#5 State.reset = 0#32 ∧ memRead 0x04#5 State.reset = 0x00001F00#32 ∧
    memRead 0x0C#5 State.reset = 0#32 ∧ memRead 0x10#5 State.reset = 0#32 ∧
    memRead 0x14#5 State.reset = 0#32 ∧ memRead 0x1C#5 State.reset = 0#32 := by decide

/-- H3 and H9. -/
theorem test_devAddr_read :
    memRead 0x08#5 idleOff = 0x00434221#32 ∧ memRead 0x09#5 idleOff = 0x00434221#32 := by decide

/-- H10 to H12. -/
theorem test_devAddr_write :
    memRead 0x08#5 (memWrite 0x08#5 0xFFFFFFFF#32 idleOff) = 0x00FFFE7F#32 ∧
    memRead 0x08#5 (memWrite 0x08#5 0x00000000#32 idleOff) = 0x00010000#32 ∧
    memRead 0x08#5 (memWrite 0x08#5 0x000000A1#32 idleOff) = 0x00434221#32 := by decide

/-- H13 and H14. -/
theorem test_ctrl_write :
    memRead 0x00#5 (memWrite 0x00#5 0xFFFFFFFE#32 idleOn) = 0#32 ∧
    memRead 0x00#5 (memWrite 0x00#5 0x00000003#32 idleOff) = 1#32 := by decide

/-- H16 to H18, from STATUS = 0x1F3E. -/
theorem test_status_write :
    let s := { idleOff with
      done := true, errBusy := true, errOpcode := true, errTimer := true, errState := true }
    memRead 0x04#5 s = 0x00001F3E#32 ∧
    memRead 0x04#5 (memWrite 0x04#5 0x00000004#32 s) = 0x00001F3A#32 ∧
    memRead 0x04#5 (memWrite 0x04#5 0xFFFFFFFF#32 s) = 0x00001F00#32 ∧
    memRead 0x04#5 (memWrite 0x04#5 0x00000000#32 s) = 0x00001F3E#32 := by decide

/-- H20 and H21. -/
theorem test_busy_writes_refused :
    (memWrite 0x00#5 0#32 running).timerEn = true ∧ (memWrite 0x00#5 0#32 running).errBusy = true ∧
    (memWrite 0x08#5 0x10#32 running).base = 0x21#7 ∧
    (memWrite 0x08#5 0x10#32 running).errBusy = true := by decide

/-- H22. -/
theorem test_busy_status_write :
    let s := memWrite 0x04#5 0x0000003C#32
      { running with errBusy := true, errOpcode := true, errTimer := true, errState := true }
    flags s = [false, false, false, false] ∧ s.busy = true := by decide

/-- A host read is returned on `prdata` (H3, through a step). -/
theorem test_host_read :
    (ran (step (State.carrying idleOff [PortIn.read 0x08#5]))).reads = [0x00434221#32] := by decide

/-- R170: in reset the lines are released and `prdata` is 0; a read returns its word (H3). -/
theorem test_reset_pins :
    State.pinsDuring PortIn.reset (lined true false .out false) = ⟨true, true, true, true, false⟩ ∧
    prdata PortIn.reset running = some 0#32 ∧
    prdata (PortIn.read 0x08#5) idleOff = some 0x00434221#32 := by decide

/-! ### Timer (section 4) -/

/-- T4, for any TIMER_DIV. -/
theorem test_timer_wraps :
    let t := cycle PortIn.idle
      { idleOn with pre := Config.timerDiv - 1, tmr := 0xFFFFFFFF#32 }
    t.pre = 0 ∧ t.tmr = 0#32 := by
  simp [cycle, advance, timerAfter, timerTick, idleOn, lined, PortIn.idle]

/-- T5, one of its cycles. -/
theorem test_timer_held :
    let t := cycle PortIn.idle { idleOff with pre := 17, tmr := 9#32 }
    t.pre = 17 ∧ t.tmr = 9#32 := by decide

/-! ### Line-level commands (section 5) -/

/-- L1. -/
theorem test_setClk_falls :
    let t := wrote 0x0000000A#32 idleOff
    t.trace = [⟨0, .scl, false, true, .out⟩] ∧ statusLines t = 0x00001A02#32 := by decide

/-- L17: the running command is unaffected. -/
theorem test_setClk_busy :
    let t := wrote 0x0000010A#32 running
    flags t = [true, false, false, false] ∧ t.busy = true ∧ t.mpc = 1 := by decide

/-- L3. -/
theorem test_setData_falls :
    let t := wrote 0x0000000B#32 idleOff
    t.trace = [⟨0, .sda, true, false, .out⟩] ∧ statusLines t = 0x00000902#32 := by decide

/-- L14. -/
theorem test_setData_wrong_direction :
    let t := wrote 0x0000000B#32 inpOff
    flags t = [false, false, false, true] ∧ t.trace = [] ∧ t.lvl = true := by decide

/-- L5. -/
theorem test_setDir_inp_releases :
    let t := wrote 0x0000000C#32 (lined false true .out false)
    t.trace = [⟨0, .dir, true, true, .inp⟩] ∧ statusLines t = 0x00001302#32 := by decide

/-- L7: the level is re-armed to 1. -/
theorem test_setDir_out_rearms :
    let t := wrote 0x0000010C#32 (lined false true .out false)
    t.trace = [⟨0, .dir, true, true, .out⟩] ∧ statusLines t = 0x00001B02#32 := by decide

/-- L8. -/
theorem test_idle_raises_clock :
    let t := wrote 0x00000009#32 (lined false false .inp true)
    t.trace = [⟨0, .dir, false, true, .out⟩, ⟨0, .scl, true, true, .out⟩] ∧
    statusLines t = 0x00001B02#32 := by decide

/-- L9. -/
theorem test_idle_releases_data :
    (wrote 0x00000009#32 (lined false true .out false)).trace =
      [⟨0, .dir, true, true, .out⟩, ⟨0, .scl, true, true, .out⟩] := by decide

/-- L10: the device pulls DATA low. -/
theorem test_sample_low :
    let t := wrote 0x0000000D#32 { inpOff with sync0 := false, rdata := 0xFF#8 }
    t.trace = [⟨0, .smp false, true, true, .inp⟩] ∧ memRead 0x10#5 t = 0#32 := by decide

/-- L11: the device leaves DATA high. -/
theorem test_sample_high :
    let t := wrote 0x0000000D#32 { inpOff with rdata := 0xFF#8 }
    t.trace = [⟨0, .smp true, true, true, .inp⟩] ∧ memRead 0x10#5 t = 1#32 := by decide

/-- L12. -/
theorem test_delay_two :
    (wrote 0x0000020E#32 idleOn).trace = [⟨2, .wait 2, true, true, .out⟩] := by decide

/-- L16. -/
theorem test_delay_timer_off :
    flags (wrote 0x0000000E#32 idleOff) = [false, false, true, false] := by decide

/-! ### Bit and byte codec (section 6) -/

/-- V6.1. -/
theorem test_writeBit_one :
    (wrote 0x00000107#32 idleOn).trace =
      [⟨0, .scl, false, true, .out⟩, ⟨0, .sda, false, true, .out⟩,
       ⟨1, .wait 1, false, true, .out⟩, ⟨1, .scl, true, true, .out⟩,
       ⟨2, .wait 1, true, true, .out⟩] := by decide

/-- V6.2, the end state. -/
theorem test_writeBit_zero :
    let t := wrote 0x00000007#32 idleOn
    (t.sclO, t.dir, t.lvl) = (true, .out, false) := by decide

set_option maxRecDepth 10000 in
/-- V6.3, the bit left out. -/
theorem test_readBit :
    let t := wrote 0x00000008#32 inpOn
    t.trace.map blank =
      [⟨0, .scl, false, true, .inp⟩, ⟨1, .wait 1, false, true, .inp⟩,
       ⟨1, .scl, true, true, .inp⟩, ⟨1, .smp false, true, true, .inp⟩,
       ⟨2, .wait 1, true, true, .inp⟩] ∧
    (t.sclO, t.dir, t.lvl) = (true, .inp, true) := by decide

/-- P-5: READ_BIT with the timer off and DATA an output sets ERR_TIMER. -/
theorem test_readBit_timer_first :
    flags (wrote 0x00000008#32 idleOff) = [false, false, true, false] := by decide

set_option maxRecDepth 100000 in
/-- V6.4. -/
theorem test_writeByte :
    (wrote 0x0000A505#32 (lined true false .out false)).trace =
      [⟨0, .scl, false, false, .out⟩, ⟨0, .sda, false, true, .out⟩,
       ⟨1, .wait 1, false, true, .out⟩, ⟨1, .scl, true, true, .out⟩,
       ⟨2, .wait 1, true, true, .out⟩, ⟨2, .scl, false, true, .out⟩,
       ⟨2, .sda, false, false, .out⟩, ⟨3, .wait 1, false, false, .out⟩,
       ⟨3, .scl, true, false, .out⟩, ⟨4, .wait 1, true, false, .out⟩,
       ⟨4, .scl, false, false, .out⟩, ⟨4, .sda, false, true, .out⟩,
       ⟨5, .wait 1, false, true, .out⟩, ⟨5, .scl, true, true, .out⟩,
       ⟨6, .wait 1, true, true, .out⟩, ⟨6, .scl, false, true, .out⟩,
       ⟨6, .sda, false, false, .out⟩, ⟨7, .wait 1, false, false, .out⟩,
       ⟨7, .scl, true, false, .out⟩, ⟨8, .wait 1, true, false, .out⟩,
       ⟨8, .scl, false, false, .out⟩, ⟨8, .sda, false, false, .out⟩,
       ⟨9, .wait 1, false, false, .out⟩, ⟨9, .scl, true, false, .out⟩] ++
      [⟨10, .wait 1, true, false, .out⟩, ⟨10, .scl, false, false, .out⟩,
       ⟨10, .sda, false, true, .out⟩, ⟨11, .wait 1, false, true, .out⟩,
       ⟨11, .scl, true, true, .out⟩, ⟨12, .wait 1, true, true, .out⟩,
       ⟨12, .scl, false, true, .out⟩, ⟨12, .sda, false, false, .out⟩,
       ⟨13, .wait 1, false, false, .out⟩, ⟨13, .scl, true, false, .out⟩,
       ⟨14, .wait 1, true, false, .out⟩, ⟨14, .scl, false, false, .out⟩,
       ⟨14, .sda, false, true, .out⟩, ⟨15, .wait 1, false, true, .out⟩,
       ⟨15, .scl, true, true, .out⟩, ⟨16, .wait 1, true, true, .out⟩,
       ⟨16, .scl, false, true, .out⟩, ⟨17, .wait 1, false, true, .out⟩,
       ⟨17, .dir, false, true, .inp⟩, ⟨18, .wait 1, false, true, .inp⟩,
       ⟨18, .scl, true, true, .inp⟩, ⟨18, .dir, true, true, .out⟩,
       ⟨19, .wait 1, true, true, .out⟩] := by decide

set_option maxRecDepth 100000 in
/-- V1.2, with v = 0x5A. -/
theorem test_writeByte_round_trip :
    byteOnWire idleOn.lines (wrote 0x00005A05#32 idleOn).trace = 0x5A#8 := by decide

set_option maxRecDepth 100000 in
/-- V6.5, the bits left out. -/
theorem test_readByte :
    (wrote 0x00000006#32 idleOn).trace.map blank =
      [⟨0, .dir, true, true, .inp⟩, ⟨0, .scl, false, true, .inp⟩,
       ⟨1, .wait 1, false, true, .inp⟩, ⟨1, .scl, true, true, .inp⟩,
       ⟨1, .smp false, true, true, .inp⟩, ⟨2, .wait 1, true, true, .inp⟩,
       ⟨2, .scl, false, true, .inp⟩, ⟨3, .wait 1, false, true, .inp⟩,
       ⟨3, .scl, true, true, .inp⟩, ⟨3, .smp false, true, true, .inp⟩,
       ⟨4, .wait 1, true, true, .inp⟩, ⟨4, .scl, false, true, .inp⟩,
       ⟨5, .wait 1, false, true, .inp⟩, ⟨5, .scl, true, true, .inp⟩,
       ⟨5, .smp false, true, true, .inp⟩, ⟨6, .wait 1, true, true, .inp⟩,
       ⟨6, .scl, false, true, .inp⟩, ⟨7, .wait 1, false, true, .inp⟩,
       ⟨7, .scl, true, true, .inp⟩, ⟨7, .smp false, true, true, .inp⟩,
       ⟨8, .wait 1, true, true, .inp⟩, ⟨8, .scl, false, true, .inp⟩,
       ⟨9, .wait 1, false, true, .inp⟩, ⟨9, .scl, true, true, .inp⟩] ++
      [⟨9, .smp false, true, true, .inp⟩, ⟨10, .wait 1, true, true, .inp⟩,
       ⟨10, .scl, false, true, .inp⟩, ⟨11, .wait 1, false, true, .inp⟩,
       ⟨11, .scl, true, true, .inp⟩, ⟨11, .smp false, true, true, .inp⟩,
       ⟨12, .wait 1, true, true, .inp⟩, ⟨12, .scl, false, true, .inp⟩,
       ⟨13, .wait 1, false, true, .inp⟩, ⟨13, .scl, true, true, .inp⟩,
       ⟨13, .smp false, true, true, .inp⟩, ⟨14, .wait 1, true, true, .inp⟩,
       ⟨14, .scl, false, true, .inp⟩, ⟨15, .wait 1, false, true, .inp⟩,
       ⟨15, .scl, true, true, .inp⟩, ⟨15, .smp false, true, true, .inp⟩,
       ⟨16, .wait 1, true, true, .inp⟩, ⟨16, .scl, false, true, .inp⟩,
       ⟨16, .dir, false, true, .out⟩, ⟨16, .sda, false, true, .out⟩,
       ⟨17, .wait 1, false, true, .out⟩, ⟨17, .scl, true, true, .out⟩,
       ⟨18, .wait 1, true, true, .out⟩] := by decide

set_option maxRecDepth 100000 in
/-- V6.7: accepted with DATA an input, it ends with DATA an output. -/
theorem test_readByte_from_input :
    let t := wrote 0x00000006#32 inpOn
    flags t = [false, false, false, false] ∧ (t.sclO, t.dir, t.lvl) = (true, .out, true) := by decide

/-- The bits of V6.5 are the byte 0x76 (41_codec.md R114). -/
theorem test_byteOf : byteOf [false, true, true, true, false, true, true, false] = 0x76#8 := by decide

/-! ### Conditions and transactions (section 7) -/

/-- V7.1. -/
theorem test_start_from_idle :
    (wrote 0x00000003#32 idleOn).trace =
      [⟨0, .sda, true, true, .out⟩, ⟨0, .scl, true, true, .out⟩,
       ⟨1, .wait 1, true, true, .out⟩, ⟨1, .sda, true, false, .out⟩,
       ⟨2, .wait 1, true, false, .out⟩, ⟨2, .scl, false, false, .out⟩,
       ⟨3, .wait 1, false, false, .out⟩] := by decide

/-- V7.3. -/
theorem test_start_after_start :
    (wrote 0x00000003#32 (lined true false .out false)).trace =
      [⟨0, .sda, false, true, .out⟩, ⟨0, .scl, true, true, .out⟩,
       ⟨1, .wait 1, true, true, .out⟩, ⟨1, .sda, true, false, .out⟩,
       ⟨2, .wait 1, true, false, .out⟩, ⟨2, .scl, false, false, .out⟩,
       ⟨3, .wait 1, false, false, .out⟩] := by decide

/-- V7.4. -/
theorem test_stop_after_byte :
    (wrote 0x00000004#32 idleOn).trace =
      [⟨0, .sda, true, false, .out⟩, ⟨1, .wait 1, true, false, .out⟩,
       ⟨1, .scl, true, false, .out⟩, ⟨2, .wait 1, true, false, .out⟩,
       ⟨2, .sda, true, true, .out⟩, ⟨3, .wait 1, true, true, .out⟩] := by decide

/-- P-4 with STOP's word: the timer check comes before the direction check (X3). -/
theorem test_stop_timer_first :
    flags (wrote 0x00000004#32 inpOff) = [false, false, true, false] := by decide

set_option maxRecDepth 100000 in
/-- V7.5: the ticks of the events that change a line. -/
theorem test_writeReg :
    ticksOf isTransition idleOn.lines (wrote 0x005C0A01#32 idleOn).trace =
      [1, 2] ++
      [4, 5, 5, 6, 7, 7, 8, 9, 10, 11, 12, 13, 14, 15, 15, 16, 17, 17, 18, 19, 20, 21] ++
      [22, 22, 23, 24, 25, 26, 27, 28, 29, 30, 30, 31, 32, 32, 33, 34, 34, 35, 36, 36, 37, 38, 39, 40] ++
      [41, 41, 42, 43, 43, 44, 45, 45, 46, 47, 47, 48, 49, 50, 51, 52, 53, 53, 54, 55, 56, 57, 58, 59] ++
      [60, 62] := by decide

/-- X2. -/
theorem test_writeReg_wrong_direction :
    flags (wrote 0x005C0A01#32 inpOn) = [false, false, false, true] := by decide

set_option maxRecDepth 100000 in
/-- V7.6: the ticks of the events that change a line. -/
theorem test_readReg :
    ticksOf isTransition idleOn.lines (wrote 0x00000A02#32 idleOn).trace =
      [1, 2] ++
      [4, 5, 5, 6, 7, 7, 8, 9, 10, 11, 12, 13, 14, 15, 15, 16, 17, 17, 18, 19, 20, 21] ++
      [22, 22, 23, 24, 25, 26, 27, 28, 29, 30, 30, 31, 32, 32, 33, 34, 34, 35, 36, 36, 37, 38, 39, 40] ++
      [42, 43] ++
      [45, 46, 46, 47, 48, 48, 49, 50, 51, 52, 53, 54, 55, 56, 56, 57, 58, 59, 60, 62] ++
      [63, 64, 65, 66, 67, 68, 69, 70, 71, 72, 73, 74, 75, 76, 77, 78, 79, 80] ++
      [81, 83] := by decide

/-- X1. -/
theorem test_readReg_timer_off :
    statusLines (wrote 0x00000A02#32 idleOff) = 0x00001B10#32 := by decide

/-- V7.7. -/
theorem test_tstate_readReg :
    ([0, 6, 7, 53, 54, 100, 101, 107].map fun k =>
      State.tstate { running with cmd := 0x00000A02#32, mpc := k }) =
      [.idle, .idle, .started, .started, .addrSent, .addrSent, .regSent, .regSent] ∧
    ([108, 154, 155, 201, 202, 207, 208].map fun k =>
      State.tstate { running with cmd := 0x00000A02#32, mpc := k }) =
      [.restarted, .restarted, .readAddrSent, .readAddrSent, .byteRead, .byteRead, .stopped] := by
  decide

/-- V7.7. -/
theorem test_tstate_writeReg :
    ([101, 147, 148, 153, 154].map fun k =>
      State.tstate { running with cmd := 0x005C0A01#32, mpc := k }) =
      [.regSent, .regSent, .dataSent, .dataSent, .stopped] := by decide

/-! ### Refusals (section 8) -/

/-- P-2 and P-3. -/
theorem test_reserved_opcode :
    flags (wrote 0x00000000#32 running) = [true, false, false, false] ∧
    flags (wrote 0x0000000F#32 idleOff) = [false, true, false, false] := by decide

/-- P-7: SAMPLE with DATA an output. -/
theorem test_sample_wrong_direction :
    flags (wrote 0x0000000D#32 idleOn) = [false, false, false, true] := by decide

/-- The same-cycle order: a CMD write in the cycle of the completion is refused, the completion happens. -/
theorem test_write_at_completion :
    let t := wrote 0x00000009#32 sampled
    t.errBusy = true ∧ t.busy = false ∧ t.done = true ∧ t.rdata = 1#8 := by decide

/-- The same-cycle order: a STATUS write of 0x2 in the cycle of the completion leaves DONE = 1. -/
theorem test_status_write_at_completion :
    (ran (step (State.carrying sampled [PortIn.write 0x04#5 2#32]))).done = true := by decide

/-! ### Host programs (30_encoding.md R83) -/

/-- An IDLE accepted in the cycle before. -/
def idling : State := cycle (PortIn.write 0x0C#5 0x00000009#32) idleOff

/-- IDLE takes D = 3 cycles (70_reset_and_hazards.md R187): a `WAIT` begun in the cycle after its CMD write
reads STATUS three times with BUSY = 1 and once with BUSY = 0. -/
theorem test_wait_in_the_middle_of_a_command :
    (runStmts Pseudo.wait.expand [] idling).map
      (fun r => (r.2.busy, r.2.done, r.2.reads.length)) = some (false, true, 4) := by
  have h : idling.cyclesLeft = 3 := by decide
  simp only [Pseudo.expand, runStmts, HostStmt.run, h, pollStatus_succ]
  decide

/-- The same, a STATUS write and a refused SET_CLK later. -/
def idlingRefused : State :=
  cycle (PortIn.write 0x0C#5 (encode (.setClk false)))
    (cycle (PortIn.write 0x04#5 0x00000002#32) idling)

/-- P4 steps 8 to 10: a command while one runs (IDLE, in READ_BIT's place) sets ERR_BUSY, and the `WAIT`
waits for the running one, reading BUSY = 1 once; the last access comes one cycle late. -/
theorem test_do_while_busy :
    (runStmts (Pseudo.doCommand (.setClk false)).expand [0, 0, 0, 1] idling).map
      (fun r => (r.1, r.2.busy, r.2.done, flags r.2, r.2.cmd, r.2.reads.length)) =
    some ([], false, true, [true, false, false, false], 0x00000009#32, 2) := by
  have h : idlingRefused.cyclesLeft = 1 := by decide
  have e : runStmts (Pseudo.doCommand (.setClk false)).expand [0, 0, 0, 1] idling =
      pollStatus (idlingRefused.cyclesLeft + 1) [0, 1] idlingRefused :=
    runStmts_poll [0, 1] idlingRefused
  simp only [e, h, pollStatus_succ]
  decide

/-! ### Witnesses: a state and operands that meet a statement's hypotheses -/

theorem witness_AssemblerNeverTruncates :
    (AsmCommand.writeReg 255 255).assemble = some (.writeReg 0xFF#8 0xFF#8) := by decide

theorem witness_StepRunsTheDecodedCommand :
    let s := State.carrying idleOff [PortIn.write 0x0F#5 0x0000000A#32, PortIn.idle]
    s.host = PortIn.write 0x0F#5 0x0000000A#32 :: [PortIn.idle] ∧
    (PortIn.write 0x0F#5 0x0000000A#32).commandWrite = some 0x0000000A#32 ∧
    decode 0x0000000A#32 = .instr (.setClk false) := by decide

theorem witness_AccessIgnoresLowOffsetBits :
    (0x0B#5).extractLsb' 2 3 = (PortIn.write 0x08#5 1#32).paddr.extractLsb' 2 3 := by decide

/-- A read, a setup phase without an access, an idle port, and a block with no command running. -/
theorem witness_HostReadsChangeNothing :
    (State.carrying running [PortIn.read 0x1F#5]).host = PortIn.read 0x1F#5 :: [] ∧
    (let p : PortIn := ⟨true, true, false, true, 0x0C#5, 3#32⟩
     (State.carrying running [p]).host = p :: [] ∧ p.rstN = true ∧ p.access = none) ∧
    idleOn.host = [] ∧ idleOn.busy = false := by decide

theorem witness_CtrlWriteSetsTimerEn :
    let s := State.carrying idleOn [PortIn.write 0x00#5 0xFFFFFFFE#32]
    s.host = PortIn.write 0x00#5 0xFFFFFFFE#32 :: [] ∧ s.busy = false := by decide

theorem witness_DevAddrWriteSetsBase :
    let s := State.carrying idleOn [PortIn.write 0x08#5 0xFFFFFFFF#32]
    s.host = PortIn.write 0x08#5 0xFFFFFFFF#32 :: [] ∧ s.busy = false := by decide

/-- No command running. -/
theorem witness_StatusWriteClearsFlags :
    let s := State.carrying idleOn [PortIn.write 0x04#5 0x0000003E#32]
    s.host = PortIn.write 0x04#5 0x0000003E#32 :: [] ∧ s.busy = false := by decide

/-- A command that goes on, and one that completes in the cycle of the write. -/
theorem witness_StatusWriteClearsFlags_busy :
    (running.busy = true ∧
      (ran (step (State.carrying running [PortIn.write 0x04#5 0x2#32]))).busy = true) ∧
    (sampled.busy = true ∧
      (ran (step (State.carrying sampled [PortIn.write 0x04#5 0x2#32]))).busy = false) := by decide

/-- Both ends of the range of offsets. -/
theorem witness_ReadOnlyWritesIgnored :
    0x10#5 ≤ 0x10#5 ∧ 0x10#5 ≤ 0x1F#5 ∧
    (State.carrying idleOn [PortIn.write 0x10#5 1#32]).host = PortIn.write 0x10#5 1#32 :: [] ∧
    (State.carrying idleOn [PortIn.write 0x1F#5 1#32]).host = PortIn.write 0x1F#5 1#32 :: [] := by decide

/-- Each of the three words, at an end of its range of offsets. -/
theorem witness_BusyWritesRefused :
    let s := State.carrying running [PortIn.write 0x0F#5 9#32]
    s.host = PortIn.write 0x0F#5 9#32 :: [] ∧ s.busy = true ∧
    wordIndex 0x03#5 = 0 ∧ wordIndex 0x08#5 = 2 ∧ wordIndex 0x0F#5 = 3 := by decide

/-- Both reserved opcodes. -/
theorem witness_ReservedOpcodeRefused :
    let s := State.carrying idleOn [PortIn.write 0x0C#5 0xFFFFFFF0#32]
    s.host = PortIn.write 0x0C#5 0xFFFFFFF0#32 :: [] ∧ s.busy = false ∧
    (0xFFFFFFF0#32).extractLsb' 0 4 = 0x0#4 ∧ (0x0000000F#32).extractLsb' 0 4 = 0xF#4 := by decide

theorem witness_TimerStoppedRefused :
    timerCommands (.delay 0#16) = true ∧ idleOff.busy = false ∧ idleOff.timerEn = false := by decide

/-- Each of the two directions. -/
theorem witness_WrongDirectionRefused :
    (inpOff.busy = false ∧ (timerCommands (.setData false) = true → inpOff.timerEn = true) ∧
      outCommands (.setData false) = true ∧ inpOff.dir = .inp) ∧
    (idleOn.busy = false ∧ (timerCommands .readBit = true → idleOn.timerEn = true) ∧
      inpCommands .readBit = true ∧ idleOn.dir = .out) := by decide

theorem witness_BusyCommandRefused : running.busy = true := by decide

/-- A command that is accepted, and one that is not. -/
theorem witness_AcceptanceIsVisible :
    let ps := fun i => [PortIn.write 0x04#5 0x0000003E#32, PortIn.write 0x0C#5 (encode i)]
    idleOff.busy = false ∧
    (State.carrying idleOff (ps .idle)).host = ps .idle ∧ Accepted .idle idleOff ∧
    (State.carrying idleOff (ps .sample)).host = ps .sample ∧ ¬ Accepted .sample idleOff := by
  unfold Accepted
  decide

/-- Each of the three clauses, PRE at the end of its range in the first two. -/
theorem witness_TimerCounts :
    PortIn.idle.rstN = true ∧
    (let s := { idleOn with pre := Config.timerDiv - 1 };
      s.timerEn = true ∧ s.pre = Config.timerDiv - 1) ∧
    (let s := { idleOn with pre := Config.timerDiv };
      s.timerEn = true ∧ s.pre ≠ Config.timerDiv - 1) ∧ idleOff.timerEn = false := by
  refine ⟨rfl, ⟨rfl, rfl⟩, ⟨rfl, ?_⟩, rfl⟩
  have h := timerDiv_pos
  show Config.timerDiv ≠ Config.timerDiv - 1
  omega

/-- DATA pulled low, driven high, and an input. -/
theorem witness_SynchronizerShifts :
    (PortIn.write 0x0C#5 9#32).rstN = true ∧ (lined true true .out false).dir = .out ∧
    (lined true true .out false).lvl = false ∧ idleOn.dir = .out ∧ idleOn.lvl = true ∧
    inpOn.dir = .inp := by decide

theorem witness_DelayCompletes :
    idleOn.busy = false ∧ idleOn.timerEn = true ∧ NoReset idleOn.host ∧ idleOn.wcnt = 0 ∧
    idleOn.pre < Config.timerDiv :=
  ⟨rfl, rfl, by unfold NoReset; decide, rfl, timerDiv_pos⟩

theorem witness_CommandDuration :
    Accepted (.readReg 0x0A#8) idleOn ∧ idleOn.wcnt = 0 ∧ NoReset idleOn.host := by
  unfold Accepted NoReset
  decide

theorem witness_OneStepIsItsCycles :
    decode 0x00000A02#32 = .instr (.readReg 0x0A#8) ∧ Accepted (.readReg 0x0A#8) idleOn ∧
    idleOn.wcnt = 0 ∧ NoReset [PortIn.read 0x04#5, PortIn.write 0x0C#5 9#32] ∧ idleOn.host = [] := by
  unfold Accepted NoReset
  decide

theorem witness_IdleCompletes : inpOff.busy = false ∧ NoReset inpOff.host := by
  unfold NoReset
  decide

theorem witness_SetClkCompletes : idleOff.busy = false ∧ NoReset idleOff.host := by
  unfold NoReset
  decide

theorem witness_SetDirCompletes : inpOff.busy = false ∧ NoReset inpOff.host := by
  unfold NoReset
  decide

theorem witness_SetDataCompletes :
    idleOff.busy = false ∧ idleOff.dir = .out ∧ NoReset idleOff.host := by
  unfold NoReset
  decide

theorem witness_SampleCompletes :
    inpOff.busy = false ∧ inpOff.dir = .inp ∧ NoReset inpOff.host := by
  unfold NoReset
  decide

theorem witness_WriteBitCompletes :
    let s := lined true false .out false
    s.busy = false ∧ s.timerEn = true ∧ s.dir = .out ∧ NoReset s.host := by
  unfold NoReset
  decide

theorem witness_WriteByteCompletes :
    let s := idleOn
    s.busy = false ∧ s.timerEn = true ∧ s.dir = .out ∧ NoReset s.host := by
  unfold NoReset
  decide

theorem witness_ByteEmission :
    let s := lined true false .out false
    s.busy = false ∧ s.timerEn = true ∧ s.dir = .out ∧ NoReset s.host := by
  unfold NoReset
  decide

theorem witness_WriteRoundTrip :
    let s := idleOn
    s.busy = false ∧ s.timerEn = true ∧ s.dir = .out ∧ NoReset s.host := by
  unfold NoReset
  decide

theorem witness_StartCompletes :
    let s := lined true false .out false
    s.busy = false ∧ s.timerEn = true ∧ s.dir = .out ∧ NoReset s.host := by
  unfold NoReset
  decide

theorem witness_StopCompletes :
    let s := idleOn
    s.busy = false ∧ s.timerEn = true ∧ s.dir = .out ∧ NoReset s.host := by
  unfold NoReset
  decide

theorem witness_WriteRegCompletes :
    let s := lined true false .out false
    s.busy = false ∧ s.timerEn = true ∧ s.dir = .out ∧ NoReset s.host := by
  unfold NoReset
  decide

theorem witness_ReadRegCompletes :
    let s := idleOn
    s.busy = false ∧ s.timerEn = true ∧ s.dir = .out ∧ NoReset s.host := by
  unfold NoReset
  decide

theorem witness_ReadBitCompletes :
    inpOn.busy = false ∧ inpOn.timerEn = true ∧ inpOn.dir = .inp ∧ NoReset inpOn.host := by
  unfold NoReset
  decide

theorem witness_ReadByteCompletes :
    inpOn.busy = false ∧ inpOn.timerEn = true ∧ NoReset inpOn.host := by
  unfold NoReset
  decide

/-- Each of the two commands. -/
theorem witness_ByteAssembly :
    Accepted .readByte inpOn ∧ NoReset inpOn.host ∧
    (∃ r, Instr.readReg 0xFF#8 = .readReg r) ∧ Accepted (.readReg 0xFF#8) idleOn ∧
    NoReset idleOn.host := by
  unfold Accepted NoReset
  exact ⟨by decide, by decide, ⟨_, rfl⟩, by decide, by decide⟩

/-- Each of the two commands, CLOCK high for the one and low for the other. -/
theorem witness_NineRisingEdges :
    (let s := lined true false .out true;
      (∃ v, Instr.writeByte 0xFF#8 = .writeByte v ∧ s.dir = .out) ∧ s.busy = false ∧
        s.timerEn = true ∧ NoReset s.host) ∧
    (inpOn.busy = false ∧ inpOn.timerEn = true ∧ NoReset inpOn.host) := by
  unfold NoReset
  exact ⟨⟨⟨0xFF#8, rfl, rfl⟩, by decide⟩, by decide⟩

/-- The four commands; READ_BYTE right after START, where the exception is near, and in the exception. -/
theorem witness_CodecTickSpacing :
    Accepted (.writeByte 0#8) idleOn ∧ Accepted (.writeBit false) idleOn ∧
    Accepted .readBit inpOn ∧ NoReset inpOn.host ∧
    (let s := lined true false .out false;
      Accepted .readByte s ∧ ¬ (s.sclO = true ∧ s.sdaO = false) ∧ NoReset s.host) ∧
    (let s := lined true true .out false;
      Accepted .readByte s ∧ s.sclO = true ∧ s.sdaO = false ∧ NoReset s.host) := by
  unfold Accepted NoReset
  decide

/-- Both ends of each window, and the positions next to them. -/
theorem witness_ExposedWindowOfWriteByte :
    let s := fun (i : Instr) k =>
      { running with cmd := encode i, prog := (commandOf i 0x21#7).prog, mpc := k }
    let open' := fun i ks => List.map (fun k => (s i k).exposedWindow) ks
    (s (.writeByte 0xA5#8) 42).busy = true ∧
    decode (s (.writeByte 0xA5#8) 42).cmd = .instr (.writeByte 0xA5#8) ∧
    open' (.writeByte 0xA5#8) [41, 42, 44, 45] = [false, true, true, false] ∧
    open' (.writeReg 0x12#8 0x80#8) [48, 49, 51, 52, 95, 96, 98, 99, 142, 143, 145, 146] =
      [false, true, true, false, false, true, true, false, false, true, true, false] ∧
    open' (.readReg 0x0A#8) [48, 49, 51, 52, 95, 96, 98, 99, 149, 150, 152, 153] =
      [false, true, true, false, false, true, true, false, false, true, true, false] ∧
    open' .readByte [42, 43, 44] = [false, false, false] := by decide

theorem witness_OneSignatureEach :
    idleOn.busy = false ∧ idleOn.timerEn = true ∧ idleOn.dir = .out ∧ NoReset idleOn.host ∧
    idleOn.lvl = true := by
  unfold NoReset
  decide

theorem witness_StartThenStopIsIdle :
    idleOn.busy = false ∧ idleOn.timerEn = true ∧ idleOn.dir = .out ∧ NoReset idleOn.host ∧
    NoReset [PortIn.write 0x0C#5 9#32] ∧ idleOn.lines = Lines.idle := by
  unfold NoReset
  decide

theorem witness_TransactionShape :
    idleOn.busy = false ∧ idleOn.timerEn = true ∧ idleOn.busIdle ∧ NoReset idleOn.host := by
  unfold State.busIdle NoReset
  decide

/-- Each of the two commands. -/
theorem witness_TransactionTickSpacing :
    (∃ r v, Instr.writeReg 0x0A#8 0x5C#8 = .writeReg r v) ∧ (∃ r, Instr.readReg 0x0A#8 = .readReg r) ∧
    idleOn.busy = false ∧ idleOn.timerEn = true ∧ idleOn.dir = .out ∧ NoReset idleOn.host := by
  unfold NoReset
  exact ⟨⟨_, _, rfl⟩, ⟨_, rfl⟩, by decide⟩

/-- A START running is a sound state. -/
theorem running_inv : running.Inv where
  released := by decide
  preBound := timerDiv_pos
  mpcBound := by decide
  progBound := by decide
  atRest := by decide
  progOfCmd := fun _ => ⟨.start, by decide⟩
  preconditions := by decide
  timerRuns := by decide
  waiting := fun h => absurd rfl h

/-- A WRITE_REG just before its first condition is complete. -/
def started : State :=
  { idleOn with
    busy := true, cmd := 0x005C0A01#32, prog := wreg 0x21#7 0x0A#8 0x5C#8, mpc := 6, lvl := false
    sclO := false }

set_option maxRecDepth 10000 in
theorem witness_TransactionStateOrder :
    started.Inv ∧ started.busy = true ∧ PortIn.idle.rstN = true ∧ started.tstate = .idle := by
  refine ⟨?_, by decide, by decide, by decide⟩
  exact {
    released := by decide
    preBound := timerDiv_pos
    mpcBound := by decide
    progBound := by decide
    atRest := by decide
    progOfCmd := fun _ => ⟨.writeReg 0x0A#8 0x5C#8, by decide⟩
    preconditions := by decide
    timerRuns := by decide
    waiting := fun h => absurd rfl h }

theorem witness_TraceFollowsTheProgram :
    Accepted (.writeReg 0x0A#8 0x5C#8) idleOn ∧ NoReset idleOn.host := by
  unfold Accepted NoReset
  decide

theorem witness_PreconditionsAlwaysHold :
    Accepted (.readReg 0x0A#8) idleOn ∧ Accepted .sample inpOff ∧ NoReset idleOn.host := by
  unfold Accepted NoReset
  decide

theorem witness_CommandAtomicAgainstHost :
    let ps := [PortIn.write 0x00#5 0#32, PortIn.write 0x0C#5 9#32, PortIn.write 0x04#5 0x3E#32]
    let qs := [PortIn.read 0x10#5]
    Accepted .start idleOn ∧ NoReset ps ∧ NoReset qs := by
  unfold Accepted NoReset
  decide

theorem witness_RdataChangesAtCompletion :
    PortIn.idle.rstN = true ∧ (cycle PortIn.idle sampled).rdata ≠ sampled.rdata := by decide

theorem witness_DoWaitsForCompletion :
    (running.busy = true → hasWait running.prog = true → running.timerEn = true) ∧
    Accepted (.setClk false) idleOff ∧ Accepted (.readReg 0x0A#8) idleOn := by
  unfold Accepted
  decide

/-- A CMD write in reset; and a reset in the cycle after the one of the CMD write. -/
theorem witness_ResetStopsACommand :
    let s := State.carrying idleOn ([] ++ PortIn.reset :: [PortIn.idle])
    (⟨false, true, true, true, 0x0C#5, 3#32⟩ : PortIn).rstN = false ∧
    Accepted .start s ∧ s.wcnt = 0 ∧ NoReset [] ∧
      ([] : List PortIn).length < busyCycles .start ∧
      s.host = [] ++ PortIn.reset :: [PortIn.idle] := by
  refine ⟨rfl, by unfold Accepted; decide, rfl, by unfold NoReset; decide, Nat.succ_pos _, rfl⟩

theorem witness_CycleKeepsTheInvariant : running.Inv := running_inv

theorem witness_StepKeepsTheInvariant : running.Inv ∧ ∃ t, step running = .next t :=
  ⟨running_inv, _, rfl⟩

end Sys2Proof.Machine.Tests
end

