-- ==== Sys2Proof/Proofs/State.lean ====
section
/-! PROOFS of the statements of the family 10_state.md: the timer and the synchronizer of one cycle, RDATA,
the values at reset, and the invariant. -/

namespace Sys2Proof.Machine

/-! ### One cycle, reset kept high -/

/-- `PRE` and `TMR` after a cycle are the timer's, whatever the host and the sequencer do (R90). -/
theorem cycle_timer {p : PortIn} (hp : p.rstN = true) (s : State) :
    (cycle p s).pre = (timerAfter 1 s).1 ∧ (cycle p s).tmr = (timerAfter 1 s).2 := by
  rw [cycle, if_pos hp]
  exact ⟨rfl, rfl⟩

/-- The synchronizer after a cycle: each stage holds what stood before it (R35). -/
theorem cycle_sync {p : PortIn} (hp : p.rstN = true) (s : State) :
    (cycle p s).sync1 = s.sync0 ∧ (cycle p s).sync0 = s.wire 0 := by
  rw [cycle, if_pos hp]
  exact ⟨rfl, rfl⟩

/-- With no command running the sequencer has no part in the cycle (R155). -/
theorem cycle_of_not_busy {p : PortIn} {s : State} (hp : p.rstN = true) (hb : s.busy = false) :
    cycle p s = advance 1 s (hostAccess p s) := by
  simp [cycle, hp, sequencerPart, hb]

/-- With a command running the cycle is the host's access and then the sequencer's part (R155). -/
theorem cycle_of_busy {p : PortIn} {s : State} (hp : p.rstN = true) (hb : s.busy = true) :
    cycle p s =
      advance 1 s (sequencerCycle (hostAccess p s).remaining (hostAccess p s)) := by
  simp [cycle, hp, sequencerPart, hb]

/-- One running cycle of the timer. -/
theorem timerAfter_one {s : State} (he : s.timerEn = true) :
    timerAfter 1 s = timerTick (s.pre, s.tmr) := by
  simp [timerAfter, he]

/-- Settles O22: a cycle's `PRE` and `TMR` are one `timerTick` of the running timer, or held. -/
theorem timerCounts : Obligations.TimerCounts := by
  refine ⟨rfl, rfl, fun s p hp => ?_⟩
  obtain ⟨hpre, htmr⟩ := cycle_timer hp s
  simp only [hpre, htmr]
  refine ⟨fun he hw => ?_, fun he hw => ?_, fun he => ?_, fun hlt => timerAfter_pre_lt hlt 1, rfl⟩
  · simp [timerAfter_one he, timerTick, hw]
  · simp [timerAfter_one he, timerTick, hw]
  · simp [timerAfter_stopped he]

/-- STATUS bit 10, SDA_I, is the last synchronizer stage (10_state.md R22, R35). -/
theorem memRead_status_sync (s : State) : (memRead 0x04#5 s).getLsbD 10 = s.sync1 := by
  show (statusWord s).getLsbD 10 = s.sync1
  unfold statusWord
  iterate 10 rw [BitVec.getLsbD_append]
  simp

/-- The wire is low while the controller pulls DATA low (00_scope.md R12). -/
theorem wire_of_pulled_low {s : State} (hd : s.dir = .out) (hl : s.lvl = false) (j : Nat) :
    s.wire j = false := by
  simp [State.wire, sdaO_of_out s hd, hl]

/-- The wire carries the device's own level while the controller releases DATA (R12). -/
theorem wire_of_released {s : State} (h : s.dir = .inp ∨ s.lvl = true) (j : Nat) :
    s.wire j = Config.deviceLevel (deviceView s.trace) (s.now + j) := by
  have hO : s.sdaO = true := by
    rcases h with h | h <;> simp [State.sdaO, State.sdaOe, h]
  simp [State.wire, hO]

/-- Settles O23: the two stages shift, and the wire is read by who drives DATA. -/
theorem synchronizerShifts : Obligations.SynchronizerShifts := by
  intro s p hp
  obtain ⟨h1, h0⟩ := cycle_sync hp s
  exact ⟨h1, h0, fun hd hl => wire_of_pulled_low hd hl 0, fun h => wire_of_released h 0,
    memRead_status_sync s⟩

/-- Settles O56: the reset state has no free field but BASE, so each value is read off it. -/
theorem resetValues : Obligations.ResetValues := by
  refine ⟨?ctrl, ?status, ?rdata, ?timer, rfl, rfl, rfl, rfl, rfl, rfl, rfl, rfl, rfl, rfl, rfl, rfl,
    rfl, rfl, rfl, rfl⟩
  case ctrl => decide
  case status => decide
  case rdata => decide
  case timer => decide

/-! ### What a host access can do -/

/-- A write to CMD (R57): a refusal, or the acceptance of the command the word spells. -/
theorem issueCommand_cases (w : Word) (s : State) :
    (∃ c, issueCommand w s = refuse c s) ∨
      ∃ i, decode w = .instr i ∧ checkCommand (commandOf i s.base) s = none ∧
        issueCommand w s = accept w (commandOf i s.base) s := by
  unfold issueCommand
  cases hd : decode w with
  | reservedOpcode _ => exact .inl ⟨_, rfl⟩
  | instr i =>
    cases hc : checkCommand (commandOf i s.base) s with
    | some c => exact .inl ⟨c, by simp [hc]⟩
    | none => exact .inr ⟨i, rfl, hc, by simp [hc]⟩

/-- What a host write can do to the block: nothing, or, with no command running, set TIMER_EN or BASE, or
have a command accepted (20_memory.md R55). -/
theorem memWrite_cases (off : BitVec 5) (v : Word) (s : State) :
    (memWrite off v s).blockPart = s.blockPart ∨
      s.busy = false ∧
        ((∃ b, memWrite off v s = { s with timerEn := b }) ∨
          (∃ a, memWrite off v s = { s with base := a }) ∨
          ∃ i, decode v = .instr i ∧ checkCommand (commandOf i s.base) s = none ∧
            memWrite off v s = accept v (commandOf i s.base) s) := by
  cases hb : s.busy with
  | true => exact .inl (memWrite_blockPart hb)
  | false =>
    unfold memWrite
    simp only [hb, true_and]
    split
    · exact .inr (.inl ⟨_, rfl⟩)
    · exact .inl rfl
    · exact .inr (.inr (.inl ⟨_, rfl⟩))
    · obtain ⟨c, hc⟩ | hacc := issueCommand_cases v s
      · exact .inl (by rw [hc, refuse_blockPart])
      · exact .inr (.inr (.inr hacc))
    · exact .inl rfl

theorem memWrite_rdata (off : BitVec 5) (v : Word) (s : State) :
    (memWrite off v s).rdata = s.rdata := by
  obtain h | ⟨-, ⟨b, h⟩ | ⟨a, h⟩ | ⟨i, -, -, h⟩⟩ := memWrite_cases off v s
  all_goals exact (congrArg State.rdata h :)

/-- No host access writes RDATA (10_state.md R29). -/
theorem hostAccess_rdata (p : PortIn) (s : State) : (hostAccess p s).rdata = s.rdata := by
  unfold hostAccess
  split
  · rfl
  · rfl
  · exact memWrite_rdata _ _ { s with pwdata := _ }

/-! ### RDATA -/

/-- The sequencer writes RDATA in a completion only, and then as R59 says. -/
theorem sequencerCycle_rdata (ops : List MicroOp) : ∀ s : State,
    let t := sequencerCycle ops s
    t.rdata = s.rdata ∨
      (t.busy = false ∧ t.done = true ∧ t.rdata = rdataAfter (opcodeOf s.cmd) t.buf s.rdata) := by
  induction ops with
  | nil => exact fun s => .inr ⟨rfl, rfl, rfl⟩
  | cons op ops ih =>
    intro s
    cases op with
    | wait n =>
      simp only [sequencerCycle]
      split
      · exact ih (microOp (.wait 0) s)
      · unfold waitCycle
        split <;> [split; skip] <;> exact .inl rfl
    | _ => exact .inl rfl

/-- The completions that write RDATA (R59). -/
theorem opcode_of_rdataAfter_ne {opc : BitVec 4} {buf old : Byte} (h : rdataAfter opc buf old ≠ old) :
    opc = 0x2#4 ∨ opc = 0x6#4 ∨ opc = 0x8#4 ∨ opc = 0xD#4 := by
  simp only [← BitVec.toNat_inj]
  unfold rdataAfter at h
  split at h
  · exact .inl ‹_›
  · exact .inr (.inl ‹_›)
  · exact .inr (.inr (.inl ‹_›))
  · exact .inr (.inr (.inr ‹_›))
  · exact absurd rfl h

/-- Settles O54: the host's access leaves RDATA, and the sequencer writes it in a completion only. -/
theorem rdataChangesAtCompletion : Obligations.RdataChangesAtCompletion := by
  intro s p hp hne
  cases hb : s.busy with
  | false =>
    rw [cycle_of_not_busy hp hb, advance_rdata, hostAccess_rdata] at hne
    exact absurd rfl hne
  | true =>
    have hcmd : (hostAccess p s).cmd = s.cmd := by
      rw [← blockPart_cmd, hostAccess_blockPart hb, blockPart_cmd]
    have hseq := sequencerCycle_rdata (hostAccess p s).remaining (hostAccess p s)
    rw [cycle_of_busy hp hb] at hne ⊢
    simp only [hostAccess_rdata, hcmd] at hseq
    obtain hkept | ⟨hbusy, hdone, hr⟩ := hseq
    · exact absurd hkept hne
    · exact ⟨rfl, hbusy, hdone, opcode_of_rdataAfter_ne (hr ▸ hne)⟩

/-! ### The micro-programs: lengths and preconditions -/

@[simp] theorem length_startC : startC.length = 7 := rfl

@[simp] theorem length_stopC : stopC.length = 6 := rfl

@[simp] theorem length_wbyte (v : Byte) : (wbyte v).length = 47 := rfl

@[simp] theorem length_rbyte : rbyte.length = 47 := rfl

/-- No micro-program is longer than READ_REG's (10_state.md R38). -/
theorem length_commandOf_le (i : Instr) (base : BitVec 7) : (commandOf i base).prog.length ≤ 208 := by
  cases i <;>
    simp [commandOf, writeRegCommand, readRegCommand, startCommand, stopCommand, writeByteCommand,
      readByteCommand, writeBitCommand, readBitCommand, idleCommand, setClkCommand, setDataCommand,
      setDirCommand, sampleCommand, delayCommand, wreg, rreg, wbit, rbit]

theorem opsOk_startC_append (d : Dir) (ops : List MicroOp) :
    opsOk d (startC ++ ops) = (d == .out && opsOk .out ops) := by
  cases d <;> rfl

theorem opsOk_wbyte_append (v : Byte) (d : Dir) (ops : List MicroOp) :
    opsOk d (wbyte v ++ ops) = (d == .out && opsOk .out ops) := by
  cases d <;> rfl

theorem opsOk_rbyte_append (d : Dir) (ops : List MicroOp) :
    opsOk d (rbyte ++ ops) = opsOk .out ops := rfl

theorem opsOk_stopC (d : Dir) : opsOk d stopC = (d == .out) := by cases d <;> rfl

theorem opsOk_wreg (base : BitVec 7) (r v : Byte) (d : Dir) :
    opsOk d (wreg base r v) = (d == .out) := by
  simp [wreg, opsOk_startC_append, opsOk_wbyte_append, opsOk_stopC]

theorem opsOk_rreg (base : BitVec 7) (r : Byte) (d : Dir) :
    opsOk d (rreg base r) = (d == .out) := by
  simp [rreg, opsOk_startC_append, opsOk_wbyte_append, opsOk_rbyte_append, opsOk_stopC]

/-- The direction R153 asks of a command is the one its micro-ops' preconditions ask for (R96). -/
theorem opsOk_commandOf (i : Instr) (base : BitVec 7) (d : Dir) :
    opsOk d (commandOf i base).prog = dirMeets (commandOf i base).needDir d := by
  cases i with
  | writeReg r v => rw [commandOf, writeRegCommand, opsOk_wreg]; cases d <;> rfl
  | readReg r => rw [commandOf, readRegCommand, opsOk_rreg]; cases d <;> rfl
  | _ => cases d <;> rfl

/-! ### The invariant: what it rests on -/

/-- The invariant reads nothing the host can reach while BUSY = 1 (R60). -/
theorem State.Inv.of_blockPart {s q : State} (hs : s.Inv) (h : q.blockPart = s.blockPart) :
    q.Inv := by
  have hp : q.blockPart.Inv := h ▸ { hs with }
  exact { hp with }

/-- With no command running the invariant is a matter of five fields. -/
theorem inv_iff_of_not_busy {s : State} (hb : s.busy = false) :
    s.Inv ↔ (s.dir = .inp → s.lvl = true) ∧ s.pre < Config.timerDiv ∧ s.prog.length ≤ 208 ∧
      s.mpc = 0 ∧ s.wcnt = 0 := by
  constructor
  · intro h
    exact ⟨h.released, h.preBound, h.progBound, h.atRest hb⟩
  · rintro ⟨hrel, hpre, hlen, hmpc, hwcnt⟩
    exact {
      released := hrel
      preBound := hpre
      mpcBound := by omega
      progBound := hlen
      atRest := fun _ => ⟨hmpc, hwcnt⟩
      progOfCmd := fun h => absurd h (by simp [hb])
      preconditions := fun h => absurd h (by simp [hb])
      timerRuns := fun h => absurd h (by simp [hb])
      waiting := fun h => absurd hwcnt h }

/-- Settles O58: no command runs, DATA is released, and `PRE` is 0, which is below TIMER_DIV. -/
theorem resetIsSound : Obligations.ResetIsSound :=
  (inv_iff_of_not_busy rfl).2 ⟨fun _ => rfl, timerDiv_pos, Nat.zero_le _, rfl, rfl⟩

/-- What a reset cycle keeps (log 8) is none of the five fields. -/
theorem resetCycle_inv (s : State) : (resetCycle s).Inv :=
  (inv_iff_of_not_busy rfl).2 ((inv_iff_of_not_busy (s := State.reset) rfl).1 resetIsSound)

/-- Passing time moves only `PRE`, which stays in its range (R41). -/
theorem advance_inv {s q : State} (hq : q.Inv) (hs : s.pre < Config.timerDiv) (k : Nat) :
    (advance k s q).Inv :=
  { hq with preBound := timerAfter_pre_lt hs k }

/-- The down-counter is 0 unless the sequencer stands at a `WAIT` (R95). -/
theorem State.Inv.wcnt_zero {s : State} (h : s.Inv) (hw : ∀ n, s.remaining.head? ≠ some (.wait n)) :
    s.wcnt = 0 := by
  by_contra h0
  obtain ⟨n, hn, -⟩ := h.waiting h0
  exact hw n hn

theorem hasWait_of_remaining {s : State} (h : hasWait s.remaining = true) :
    hasWait s.prog = true := by
  obtain ⟨op, hm, ho⟩ := List.any_eq_true.1 h
  exact List.any_eq_true.2 ⟨op, List.mem_of_mem_drop hm, ho⟩

/-- At a `WAIT` the timer runs (R90). -/
theorem State.Inv.timerEn_of_wait {s : State} (h : s.Inv) (hb : s.busy = true) {n : Nat}
    {ops : List MicroOp} (hrem : s.remaining = .wait n :: ops) : s.timerEn = true :=
  h.timerRuns hb (hasWait_of_remaining (by rw [hrem]; rfl))

/-- A `WAIT` has no more cycles left than it has in all (R95). -/
theorem State.Inv.waitLeft_le {s : State} (h : s.Inv) {n : Nat} {ops : List MicroOp}
    (hrem : s.remaining = .wait n :: ops) : waitLeft n s ≤ waitCycles n := by
  unfold waitLeft
  split
  · exact Nat.zero_le _
  · split
    · exact le_rfl
    · rename_i hw
      obtain ⟨m, hm, hlt⟩ := h.waiting hw
      obtain rfl : n = m := by simpa [hrem] using hm
      exact hlt.le

/-! ### The invariant: acceptance and the host's access -/

/-- An accepted command starts in a sound state: R153 has checked what its micro-ops need. -/
theorem accept_inv {s : State} (h : s.Inv) {w : Word} {i : Instr} (hd : decode w = .instr i)
    (hc : checkCommand (commandOf i s.base) s = none) : (accept w (commandOf i s.base) s).Inv := by
  obtain ⟨hb, htimer, hdir⟩ := checkCommand_eq_none.1 hc
  exact {
    released := h.released
    preBound := h.preBound
    mpcBound := Nat.zero_le _
    progBound := length_commandOf_le i s.base
    atRest := fun hn => absurd hn (by simp)
    progOfCmd := fun _ => ⟨i, hd, rfl⟩
    preconditions := fun _ => (opsOk_commandOf i s.base s.dir).trans hdir
    timerRuns := fun _ hw => htimer (hasWait_commandOf i s.base hw)
    waiting := fun hw => absurd (h.atRest hb).2 hw }

theorem memWrite_inv {s : State} (h : s.Inv) (off : BitVec 5) (v : Word) :
    (memWrite off v s).Inv := by
  obtain hk | ⟨hb, ⟨b, ht⟩ | ⟨a, ha⟩ | ⟨i, hd, hc, hacc⟩⟩ := memWrite_cases off v s
  · exact h.of_blockPart hk
  · rw [ht]
    exact (inv_iff_of_not_busy (s := { s with timerEn := b }) hb).2 ((inv_iff_of_not_busy hb).1 h)
  · rw [ha]
    exact (inv_iff_of_not_busy (s := { s with base := a }) hb).2 ((inv_iff_of_not_busy hb).1 h)
  · rw [hacc]
    exact accept_inv h hd hc

theorem hostAccess_inv {s : State} (h : s.Inv) (p : PortIn) : (hostAccess p s).Inv := by
  unfold hostAccess
  split
  · exact h
  · exact h.of_blockPart rfl
  case _ off v _ =>
    have hv : ({ s with pwdata := v } : State).Inv := h.of_blockPart rfl
    exact memWrite_inv hv off v

/-! ### The invariant: the sequencer -/

theorem microOp_cmd (op : MicroOp) (s : State) : (microOp op s).cmd = s.cmd := by
  cases op <;> rfl

theorem microOp_base (op : MicroOp) (s : State) : (microOp op s).base = s.base := by
  cases op <;> rfl

theorem microOp_pre (op : MicroOp) (s : State) : (microOp op s).pre = s.pre := by
  cases op <;> rfl

/-- The preconditions of the micro-ops after one that meets its own (R96). -/
theorem opsOk_after_microOp {op : MicroOp} {ops : List MicroOp} {s : State}
    (h : opsOk s.dir (op :: ops) = true) : opsOk (microOp op s).dir ops = true := by
  cases op with
  | sda _ => exact (Bool.and_eq_true_iff.1 h).2
  | smp => exact (Bool.and_eq_true_iff.1 h).2
  | _ => exact h

/-- `SDA` runs with DATA an output and `DIR` releases it, so an input's level stays 1 (R34, R92, R93). -/
theorem microOp_released {op : MicroOp} {ops : List MicroOp} {s : State}
    (h : s.dir = .inp → s.lvl = true) (hok : opsOk s.dir (op :: ops) = true)
    (hi : (microOp op s).dir = .inp) : (microOp op s).lvl = true := by
  cases op with
  | sda l =>
    have hout : s.dir = .out := by simpa using (Bool.and_eq_true_iff.1 hok).1
    exact absurd (hout.symm.trans hi) (by decide)
  | dir d => rfl
  | _ => exact h hi

theorem State.Inv.wcnt_after_microOp {op : MicroOp} {ops : List MicroOp} {s : State} (h : s.Inv)
    (hrem : s.remaining = op :: ops) : (microOp op s).wcnt = 0 := by
  cases op with
  | wait n => rfl
  | _ => exact h.wcnt_zero (by simp [hrem])

/-- A micro-op of a running command keeps the invariant. -/
theorem microOp_inv {op : MicroOp} {ops : List MicroOp} {s : State} (h : s.Inv)
    (hb : s.busy = true) (hrem : s.remaining = op :: ops) : (microOp op s).Inv := by
  have hok : opsOk s.dir (op :: ops) = true := hrem ▸ h.preconditions hb
  have hnext : (microOp op s).remaining = ops :=
    remaining_next hrem (microOp_prog op s) (microOp_mpc op s)
  have hlt : s.mpc < s.prog.length := by
    by_contra hge
    have hnil : s.remaining = [] := List.drop_eq_nil_of_le (not_lt.1 hge)
    simp [hnil] at hrem
  exact {
    released := microOp_released h.released hok
    preBound := by rw [microOp_pre]; exact h.preBound
    mpcBound := by rw [microOp_mpc, microOp_prog]; exact hlt
    progBound := by rw [microOp_prog]; exact h.progBound
    atRest := fun hn => absurd hn (by simp [microOp_busy, hb])
    progOfCmd := fun _ => by
      rw [microOp_cmd, microOp_prog, microOp_base]
      exact h.progOfCmd hb
    preconditions := fun _ => by rw [hnext]; exact opsOk_after_microOp hok
    timerRuns := fun _ hw => by
      rw [microOp_prog] at hw
      rw [microOp_timerEn]
      exact h.timerRuns hb hw
    waiting := fun hw => absurd (h.wcnt_after_microOp hrem) hw }

/-- A cycle of a `WAIT` keeps the invariant: the counter goes down from at most its whole length. -/
theorem waitCycle_inv {n : Nat} {ops : List MicroOp} {s : State} (h : s.Inv) (hb : s.busy = true)
    (hrem : s.remaining = .wait n :: ops) (hn : n ≠ 0) : (waitCycle n s).Inv := by
  rw [waitCycle, if_pos (h.timerEn_of_wait hb hrem)]
  split
  · exact microOp_inv h hb hrem
  · have hlt : waitLeft n s - 1 < waitCycles n := by
      have := h.waitLeft_le hrem
      have := waitCycles_pos hn
      omega
    exact { h with
      atRest := fun hi => absurd (hb.symm.trans hi) (by decide)
      waiting := fun _ => ⟨n, congrArg List.head? hrem, hlt⟩ }

/-- A completion keeps the invariant: no micro-op is left, so no `WAIT` runs (R59). -/
theorem complete_inv {s : State} (h : s.Inv) (hrem : s.remaining = []) : (complete s).Inv :=
  (inv_iff_of_not_busy rfl).2
    ⟨h.released, h.preBound, h.progBound, rfl, h.wcnt_zero (by simp [hrem])⟩

theorem sequencerCycle_inv (ops : List MicroOp) : ∀ s : State, s.Inv → s.busy = true →
    s.remaining = ops → (sequencerCycle ops s).Inv := by
  induction ops with
  | nil => exact fun s h _ hrem => complete_inv h hrem
  | cons op ops ih =>
    intro s h hb hrem
    cases op with
    | wait n =>
      simp only [sequencerCycle]
      split
      · subst n
        exact ih _ (microOp_inv h hb hrem) hb (remaining_next hrem rfl rfl)
      · exact waitCycle_inv h hb hrem ‹_›
    | _ => exact microOp_inv h hb hrem

/-- Settles O59: the host's access keeps the invariant, then the sequencer does, then time passes. -/
theorem cycleKeepsTheInvariant : Obligations.CycleKeepsTheInvariant := by
  intro s p h
  have ha := hostAccess_inv h p
  cases hp : p.rstN with
  | false =>
    simpa [cycle, hp] using resetCycle_inv s
  | true =>
    cases hb : s.busy with
    | false =>
      rw [cycle_of_not_busy hp hb]
      exact advance_inv ha h.preBound 1
    | true =>
      rw [cycle_of_busy hp hb]
      exact advance_inv (sequencerCycle_inv _ _ ha (hostAccess_busy hb) rfl) h.preBound 1

/-! ### The invariant: a whole command -/

/-- The micro-ops still to run, taken with all their cycles, keep the invariant and are then used up. -/
theorem runOps_inv (ops : List MicroOp) : ∀ s : State, s.Inv → s.busy = true → s.remaining = ops →
    (runOps ops s).Inv ∧ (runOps ops s).remaining = [] := by
  induction ops with
  | nil => exact fun s h _ hrem => ⟨h, hrem⟩
  | cons op ops ih =>
    intro s h hb hrem
    obtain ⟨k, hk⟩ := timedOp_eq op s
    rw [runOps_cons, hk]
    exact ih _ (advance_inv (microOp_inv h hb hrem) h.preBound k) ((microOp_busy op s).trans hb)
      (remaining_next hrem (microOp_prog op s) (microOp_mpc op s))

theorem finish_inv {s : State} (h : s.Inv) (hb : s.busy = true) : (finish s).Inv := by
  obtain ⟨hr, hnil⟩ := runOps_inv s.remaining s h hb rfl
  exact advance_inv (complete_inv hr hnil) hr.preBound 1

/-- Whatever the port still carries, resets included, the rest of a command keeps the invariant. -/
theorem drain_inv (ps : List PortIn) : ∀ s : State, s.Inv → (drain ps s).Inv := by
  induction ps with
  | nil =>
    intro s h
    rw [drain]
    split
    · exact finish_inv h ‹_›
    · exact h
  | cons p ps ih =>
    intro s h
    rw [drain]
    split
    · exact ih _ (cycleKeepsTheInvariant _ p (h.of_blockPart rfl))
    · exact h

/-- A command the host writes to CMD keeps the invariant, refused or run. -/
theorem runCommand_inv {i : Instr} {s : State} (h : s.Inv) (hd : decode s.pwdata = .instr i) :
    (runCommand i (commandOf i s.base) s).Inv := by
  cases hc : checkCommand (commandOf i s.base) s with
  | some cause =>
    rw [runCommand_refused hc, refused_cycle]
    exact (cycleKeepsTheInvariant s PortIn.idle h).of_blockPart (refuse_blockPart cause _)
  | none =>
    have hw : commandWord i s = s.pwdata := if_pos hd
    simp only [runCommand, hc, hw]
    exact drain_inv _ _ (advance_inv (accept_inv h hd hc) h.preBound 1)

/-- What a step can be: a cycle, with the port's next entry or idle, or a whole command (log 21). -/
theorem step_cases (s : State) :
    (∃ p ps, step s = .next (cycle p { s with host := ps })) ∨
      ∃ w i ps, decode w = .instr i ∧ step s = exec i { s with host := ps, pwdata := w } := by
  unfold step
  split
  · rename_i hh
    refine .inl ⟨PortIn.idle, [], ?_⟩
    rw [← hh]
  · rename_i p ps _
    split
    · exact .inl ⟨p, ps, rfl⟩
    · rename_i w _
      cases hd : decode w with
      | instr i => exact .inr ⟨w, i, ps, hd, rfl⟩
      | reservedOpcode _ => exact .inl ⟨p, ps, rfl⟩

/-- Settles O60: a step is a cycle or a whole command, and both keep the invariant. -/
theorem stepKeepsTheInvariant : Obligations.StepKeepsTheInvariant := by
  intro s t h hst
  obtain ⟨p, ps, hstep⟩ | ⟨w, i, ps, hd, hstep⟩ := step_cases s
  · cases hstep.symm.trans hst
    exact cycleKeepsTheInvariant _ p (h.of_blockPart rfl)
  · rw [exec_eq] at hstep
    cases hstep.symm.trans hst
    exact runCommand_inv (h.of_blockPart rfl) hd

end Sys2Proof.Machine
end

/-! PROOFS of the statements of the family 20_memory.md: the register window's reads and writes, the steps
they are, and what a running command does whatever the host does meanwhile. -/

namespace Sys2Proof.Machine

/-! ### What a step is, by the port's next entry (log 21) -/

theorem step_of_no_host {s : State} (hh : s.host = []) : step s = .next (cycle PortIn.idle s) := by
  simp [step, hh]

theorem step_of_no_commandWrite {s : State} {p : PortIn} {ps : List PortIn} (hh : s.host = p :: ps)
    (hw : p.commandWrite = none) : step s = .next (cycle p { s with host := ps }) := by
  simp [step, hh, hw]

theorem step_of_commandWrite {s : State} {p : PortIn} {ps : List PortIn} {w : Word} {i : Instr}
    (hh : s.host = p :: ps) (hw : p.commandWrite = some w) (hd : decode w = .instr i) :
    step s = exec i { s with host := ps, pwdata := w } := by
  simp [step, hh, hw, hd]

/-- A write to any word but CMD is one `clk` cycle. -/
theorem step_of_write {s : State} {off : BitVec 5} {v : Word} {ps : List PortIn}
    (hh : s.host = PortIn.write off v :: ps) (ho : wordIndex off ≠ 3) :
    step s = .next (cycle (PortIn.write off v) { s with host := ps }) :=
  step_of_no_commandWrite hh (by rw [commandWrite_write, if_neg ho])

/-- Settles O6: the step's case of a CMD write with a defined opcode. -/
theorem stepRunsTheDecodedCommand : Obligations.StepRunsTheDecodedCommand :=
  fun _ _ _ _ _ hh hw hd => step_of_commandWrite hh hw hd

/-! ### The offset of an access (R52) -/

/-- The word an offset names. -/
theorem wordIndex_eq_div (off : BitVec 5) : wordIndex off = off.toNat / 4 := by
  have := off.isLt
  rw [wordIndex, BitVec.extractLsb'_toNat, Nat.shiftRight_eq_div_pow]
  omega

theorem wordIndex_and_aligned (off : BitVec 5) : wordIndex (off &&& 0x1C#5) = wordIndex off := by
  revert off
  decide

/-- A read sees of its offset only the word it names. -/
theorem memRead_congr {off off' : BitVec 5} (h : wordIndex off = wordIndex off') (s : State) :
    memRead off s = memRead off' s := by
  simp only [memRead, h]

/-- A write sees of its offset only the word it names. -/
theorem memWrite_congr {off off' : BitVec 5} (h : wordIndex off = wordIndex off') (v : Word)
    (s : State) : memWrite off v s = memWrite off' v s := by
  simp only [memWrite, h]

/-- The same pins at another offset: no access in both, or the same kind of access at each one's offset. -/
theorem access_withOffset_cases (p : PortIn) (off : BitVec 5) :
    let q : PortIn := { p with paddr := off }
    (p.access = none ∧ q.access = none) ∨
      (p.access = some (.read p.paddr) ∧ q.access = some (.read off)) ∨
      (p.access = some (.write p.paddr p.pwdata) ∧ q.access = some (.write off p.pwdata)) := by
  dsimp only [PortIn.access]
  cases p.rstN && p.psel && p.penable <;> cases p.pwrite <;> simp

theorem hostAccess_withOffset {p : PortIn} {off : BitVec 5} (h : wordIndex off = wordIndex p.paddr)
    (s : State) : hostAccess { p with paddr := off } s = hostAccess p s := by
  unfold hostAccess
  obtain ⟨hp, hq⟩ | ⟨hp, hq⟩ | ⟨hp, hq⟩ := access_withOffset_cases p off
  · simp only [hp, hq]
  · simp only [hp, hq, memRead_congr h]
  · simp only [hp, hq, memWrite_congr h]

/-- Settles O9: the access of the cycle is all that reads the offset, and `pslverr`, `pready` are tied. -/
theorem accessIgnoresLowOffsetBits : Obligations.AccessIgnoresLowOffsetBits := by
  intro s p off h
  refine ⟨?_, rfl, rfl⟩
  have hw : wordIndex off = wordIndex p.paddr := congrArg BitVec.toNat h
  simp only [cycle, hostAccess_withOffset hw]

/-! ### Reads (R54) -/

/-- `l` lists the bits of `v`, bit 0 first; every bit past the list is 0. -/
def BitsAre {n : Nat} (v : BitVec n) (l : List Bool) : Prop := ∀ k, v.getLsbD k = l.getD k false

theorem BitsAre.zero (n : Nat) : BitsAre 0#n [] := fun k => by simp

/-- A field of one bit at the low end. -/
theorem BitsAre.appendBit {n : Nat} {v : BitVec n} {l : List Bool} (h : BitsAre v l) (b : Bool) :
    BitsAre (v ++ BitVec.ofBool b) (b :: l) := by
  intro k
  rw [BitVec.append_ofBool]
  cases k with
  | zero => simp
  | succ k => rw [BitVec.getLsbD_concat_succ, h k, List.getD_cons_succ]

/-- Two reserved bits at the low end. -/
theorem BitsAre.appendReserved {n : Nat} {v : BitVec n} {l : List Bool} (h : BitsAre v l) :
    BitsAre (v ++ 0#2) (false :: false :: l) := by
  intro k
  rw [BitVec.getLsbD_append]
  match k with
  | 0 | 1 => rfl
  | k + 2 => simpa using h k

/-- Past the listed bits all are 0. -/
theorem BitsAre.high {n : Nat} {v : BitVec n} {l : List Bool} (h : BitsAre v l) {k : Nat}
    (hk : l.length ≤ k) : v.getLsbD k = false := by
  rw [h k, List.getD_eq_default _ _ hk]

/-- CTRL, from bit 0 up (10_state.md R21). -/
theorem memRead_ctrl_bits (s : State) : BitsAre (memRead 0x00#5 s) [s.timerEn] :=
  (BitsAre.zero 31).appendBit s.timerEn

/-- STATUS, from bit 0 up (10_state.md R22, R26). -/
theorem memRead_status_bits (s : State) :
    BitsAre (memRead 0x04#5 s) [s.busy, s.done, s.errBusy, s.errOpcode, s.errTimer, s.errState,
      false, false, s.sclO, s.sdaO, s.sync1, s.dir.bit, s.lvl] :=
  ((((((((((((BitsAre.zero 19).appendBit s.lvl).appendBit s.dir.bit).appendBit s.sync1).appendBit
    s.sdaO).appendBit s.sclO).appendReserved).appendBit s.errState).appendBit s.errTimer).appendBit
    s.errOpcode).appendBit s.errBusy).appendBit s.done).appendBit s.busy

theorem dir_bit_eq (d : Dir) : d.bit = (d == .out) := by cases d <;> rfl

/-- DEV_ADDR, field by field (10_state.md R27). -/
theorem devAddrWord_fields (s : State) :
    (devAddrWord s).extractLsb' 0 7 = s.base ∧ (devAddrWord s).getLsbD 7 = false ∧
      (devAddrWord s).extractLsb' 8 8 = writeAddress s.base ∧
      (devAddrWord s).extractLsb' 16 8 = readAddress s.base ∧
      (devAddrWord s).extractLsb' 24 8 = 0#8 := by
  unfold devAddrWord
  refine ⟨BitVec.extractLsb'_append_eq_right, ?bit7, ?aw, ?ar, ?high⟩
  case bit7 => rw [BitVec.getLsbD_append, if_neg (by decide), BitVec.getLsbD_append]; rfl
  case aw =>
    iterate 2 rw [BitVec.extractLsb'_append_eq_of_le (by decide)]
    exact BitVec.extractLsb'_append_eq_right
  case ar =>
    iterate 3 rw [BitVec.extractLsb'_append_eq_of_le (by decide)]
    exact BitVec.extractLsb'_append_eq_right
  case high =>
    iterate 3 rw [BitVec.extractLsb'_append_eq_of_le (by decide)]
    exact BitVec.extractLsb'_append_eq_left

/-- PARAM: VERSION = 1 above TICK_COUNTS, which fits its 16 bits (10_state.md R31, 00_scope.md R6). -/
theorem paramWord_toNat : paramWord.toNat = Config.tickCounts + 0x00010000 := by
  have hlt : Config.tickCounts < 2 ^ 16 := Nat.lt_succ_of_le tickCounts_le
  rw [paramWord, BitVec.toNat_append, BitVec.toNat_ofNat, Nat.mod_eq_of_lt hlt,
    ← Nat.shiftLeft_add_eq_or_of_lt hlt, Nat.add_comm]
  rfl

/-- RDATA, zero-extended (10_state.md R29). -/
theorem memRead_rdata (s : State) : memRead 0x10#5 s = s.rdata.setWidth 32 :=
  (BitVec.setWidth_eq_append (by decide)).symm

/-- Settles O8: the words of CTRL and STATUS bit by bit, the others field by field, and R52 and the read's
cycle. -/
theorem registerReads : Obligations.RegisterReads := by
  intro s
  have hc := memRead_ctrl_bits s
  have hs := memRead_status_bits s
  obtain ⟨hbase, hbit7, haw, har, hhigh⟩ := devAddrWord_fields s
  exact ⟨hc 0, fun _ hk => hc.high hk, hs 0, hs 1, hs 2, hs 3, hs 4, hs 5, hs 6, hs 7, hs 8, hs 9, hs 10,
    (hs 11).trans (dir_bit_eq s.dir), hs 12, fun _ hk => hs.high hk, hbase, hbit7, haw, har, hhigh, rfl,
    memRead_rdata s, rfl, paramWord_toNat, rfl,
    fun off => memRead_congr (wordIndex_and_aligned off).symm s, fun off => cycle_read off s⟩

/-! ### Cycles without a write (R54, R61) -/

/-- A cycle without an access is the idle cycle. -/
theorem cycle_of_no_access {p : PortIn} (hp : p.rstN = true) (ha : p.access = none) (s : State) :
    cycle p s = cycle PortIn.idle s := by
  rw [cycle_idle, cycle, if_pos hp, hostAccess, ha]

/-- Settles O10: a read is the idle cycle with the word noted, no access is the idle cycle, and with no
command running the idle cycle only lets time pass. -/
theorem hostReadsChangeNothing : Obligations.HostReadsChangeNothing := by
  refine ⟨fun s ps off hh => ?read, fun s p ps hh hp ha => ?noAccess, fun _ hh => step_of_no_host hh,
    fun s hb => ?idle⟩
  case read =>
    rw [step_of_no_commandWrite hh (commandWrite_read off), cycle_read]
    rfl
  case noAccess =>
    have hw : p.commandWrite = none := by simp [PortIn.commandWrite, ha]
    rw [step_of_no_commandWrite hh hw, cycle_of_no_access hp ha]
  case idle => exact cycle_idle_of_not_busy hb

/-! ### Writes (R55) -/

@[simp] theorem hostAccess_write (off : BitVec 5) (v : Word) (s : State) :
    hostAccess (PortIn.write off v) s = memWrite off v { s with pwdata := v } := rfl

theorem memWrite_ctrl (v : Word) {s : State} (hb : s.busy = false) :
    memWrite 0x00#5 v s = { s with timerEn := v.getLsbD 0 } :=
  if_neg (by simp [hb])

theorem memWrite_status (v : Word) (s : State) : memWrite 0x04#5 v s = clearFlags v s := rfl

theorem memWrite_devAddr (v : Word) {s : State} (hb : s.busy = false) :
    memWrite 0x08#5 v s = { s with base := v.extractLsb' 0 7 } :=
  if_neg (by simp [hb])

/-- The words from RDATA on are read-only or reserved (10_state.md R29 to R32). -/
theorem memWrite_readOnly {off : BitVec 5} (ho : 4 ≤ wordIndex off) (v : Word) (s : State) :
    memWrite off v s = s := by
  unfold memWrite
  split
  case h_5 => rfl
  all_goals omega

/-- A CTRL write with no command running is the idle cycle with TIMER_EN set (R55, log 6). -/
theorem cycle_ctrl_write (v : Word) {s : State} (hb : s.busy = false) :
    cycle (PortIn.write 0x00#5 v) s =
      { cycle PortIn.idle s with timerEn := v.getLsbD 0, pwdata := v } := by
  have hw : memWrite 0x00#5 v { s with pwdata := v } =
      { s with timerEn := v.getLsbD 0, pwdata := v } := memWrite_ctrl v hb
  rw [cycle_of_not_busy rfl hb, hostAccess_write, hw, cycle_idle_of_not_busy hb]
  rfl

/-- A DEV_ADDR write with no command running is the idle cycle with BASE set (R55). -/
theorem cycle_devAddr_write (v : Word) {s : State} (hb : s.busy = false) :
    cycle (PortIn.write 0x08#5 v) s =
      { cycle PortIn.idle s with base := v.extractLsb' 0 7, pwdata := v } := by
  have hw : memWrite 0x08#5 v { s with pwdata := v } =
      { s with base := v.extractLsb' 0 7, pwdata := v } := memWrite_devAddr v hb
  rw [cycle_of_not_busy rfl hb, hostAccess_write, hw, cycle_idle_of_not_busy hb]
  rfl

/-- Settles O11: the cycle of the write, begun with the port's activity moved on. -/
theorem ctrlWriteSetsTimerEn : Obligations.CtrlWriteSetsTimerEn :=
  fun _ _ v hh hb => (step_of_write hh (by decide)).trans (congrArg _ (cycle_ctrl_write v hb))

/-- Settles O12: the cycle of the write, begun with the port's activity moved on. -/
theorem devAddrWriteSetsBase : Obligations.DevAddrWriteSetsBase :=
  fun _ _ v hh hb => (step_of_write hh (by decide)).trans (congrArg _ (cycle_devAddr_write v hb))

/-- A write that changes no register is the idle cycle with the word on the write port, a command running
or not. -/
theorem cycle_write_readOnly {off : BitVec 5} (ho : 4 ≤ wordIndex off) (v : Word) (s : State) :
    cycle (PortIn.write off v) s = { cycle PortIn.idle s with pwdata := v } := by
  have hacc : hostAccess (PortIn.write off v) s =
      s.withHostSide s.errBusy s.errOpcode s.errTimer s.errState s.host v s.reads := by
    rw [hostAccess_write, memWrite_readOnly ho]
    rfl
  have hi := cycle_idle_hostSide s
  simp only at hi
  rw [cycle_of_hostAccess rfl _ _ _ _ _ _ hacc, State.withHostSide]
  simp only [hi]

/-- Settles O14: from offset 0x10 on no word is written. -/
theorem readOnlyWritesIgnored : Obligations.ReadOnlyWritesIgnored := by
  intro s ps off v hh ho
  have hw : 4 ≤ wordIndex off := by
    have : 16 ≤ off.toNat := ho
    rw [wordIndex_eq_div]
    omega
  rw [step_of_write hh (by omega), cycle_write_readOnly hw]

/-! ### STATUS writes (R55, R155) -/

/-- A cycle whose access changes only what the host can reach while BUSY = 1 does to the rest of the block
what the idle cycle does (R60). -/
theorem cycle_blockPart_of_hostAccess {p : PortIn} {s : State} (hp : p.rstN = true)
    (h : (hostAccess p s).blockPart = s.blockPart) :
    (cycle p s).blockPart = (cycle PortIn.idle s).blockPart := by
  cases hb : s.busy with
  | true => rw [cycle_blockPart hp hb, cycle_blockPart rfl hb]
  | false => rw [cycle_of_not_busy hp hb, cycle_idle_of_not_busy hb, advance_blockPart, h,
      ← advance_blockPart]

/-- A command that goes on after a cycle has left DONE as it was. -/
theorem sequencerCycle_done_of_busy (ops : List MicroOp) : ∀ s : State,
    (sequencerCycle ops s).busy = true → (sequencerCycle ops s).done = s.done := by
  induction ops with
  | nil => exact fun _ h => absurd h (by simp [sequencerCycle])
  | cons op ops ih =>
    intro s h
    cases op with
    | wait n =>
      simp only [sequencerCycle] at h ⊢
      split at h
      · rw [if_pos ‹_›]
        exact ih (microOp (.wait 0) s) h
      · rw [if_neg ‹_›]
        unfold waitCycle
        split <;> [split; skip] <;> rfl
    | _ => rfl

/-- No command running, or one that goes on: the sequencer's part of the cycle has left DONE. -/
theorem sequencerPart_done_kept {b : Bool} {s : State}
    (h : b = false ∨ (sequencerPart b s).busy = true) : (sequencerPart b s).done = s.done := by
  cases b with
  | false => rfl
  | true => exact sequencerCycle_done_of_busy _ _ (h.resolve_left (by decide))

/-- A command that completes in the cycle has set DONE (R59). -/
theorem sequencerPart_done_set {b : Bool} {s : State} (hb : b = true) (hs : s.busy = true)
    (h : (sequencerPart b s).busy = false) : (sequencerPart b s).done = true := by
  subst hb
  exact sequencerCycle_done _ _ hs h

/-- A STATUS write: the flags are cleared, then the sequencer does its part (R155). -/
theorem cycle_status_write (v : Word) (s : State) :
    cycle (PortIn.write 0x04#5 v) s =
      advance 1 s (sequencerPart s.busy (clearFlags v { s with pwdata := v })) := by
  have hp : (PortIn.write 0x04#5 v).rstN = true := rfl
  rw [cycle, if_pos hp, hostAccess_write, memWrite_status]

/-- Settles O13: the write reaches the flags only, the sequencer writes none of them but DONE, and DONE
only in a completion. -/
theorem statusWriteClearsFlags : Obligations.StatusWriteClearsFlags := by
  intro s ps v hh
  have hacc : (hostAccess (PortIn.write 0x04#5 v) { s with host := ps }).blockPart = s.blockPart := by
    rw [hostAccess_write, memWrite_status]
    rfl
  refine ⟨_, step_of_write hh (by decide), cycle_blockPart_of_hostAccess rfl hacc, ?_⟩
  obtain ⟨hB, hO, hT, hS, hhost, -, hreads⟩ :=
    sequencerPart_hostSide s.busy (clearFlags v { s with host := ps, pwdata := v })
  rw [cycle_status_write]
  exact ⟨hhost, hreads, hB, hO, hT, hS, fun h => sequencerPart_done_kept h,
    fun hb h => sequencerPart_done_set hb hb h⟩

/-! ### A running command, whatever the host does (R58, R60) -/

/-- Settles O51: an accepted command's events are those of its micro-program, whose preconditions the
acceptance has checked. -/
theorem traceFollowsTheProgram : Obligations.TraceFollowsTheProgram := by
  intro i s ha hr
  obtain ⟨t, bs, hexec, -, -, -, htrace, -⟩ := exec_accepted ha hr
  obtain ⟨-, -, hdir⟩ := checkCommand_eq_none.1 ((accepted_iff i s).1 ha)
  have hok : opsOk s.startPos.dir (commandOf i s.base).prog = true :=
    (opsOk_commandOf i s.base s.dir).trans hdir
  exact ⟨t, _, hexec, htrace, eventsFrom_names _ bs _ hok⟩

/-- Whatever the host does during an accepted command, reset kept high, the block ends as with the port
idle, and DONE is 1 (R60). -/
theorem exec_blockPart_of_host {i : Instr} {s : State} (ha : Accepted i s) {ps : List PortIn}
    (hr : NoReset ps) :
    ∃ t, exec i { s with host := ps } = .next t ∧
      t.blockPart = (completed i (commandOf i s.base) s).blockPart ∧ t.done = true := by
  have ha' : Accepted i { s with host := ps } := ha
  obtain ⟨t, -, hexec, hdone, hblock, -⟩ := exec_accepted ha' hr
  exact ⟨t, hexec, hblock.trans (completed_host i _ s ps), hdone.done⟩

/-- Settles O53: both activities end in the block part of the run with the port idle. -/
theorem commandAtomicAgainstHost : Obligations.CommandAtomicAgainstHost := by
  intro i s ps qs ha hps hqs
  obtain ⟨t, ht, htb, htd⟩ := exec_blockPart_of_host ha hps
  obtain ⟨u, hu, hub, hud⟩ := exec_blockPart_of_host ha hqs
  exact ⟨t, u, ht, hu, htb.trans hub.symm, htd, hud⟩

end Sys2Proof.Machine

/-! PROOFS of the statements of the family 30_encoding.md: the decoder and the encoder, the assembler, the
refusal of a reserved opcode, and how R83's `WAIT` and `DO` end. -/

namespace Sys2Proof

/-! ### Words and their fields (R71 to R75) -/

theorem layoutWord_inj {hi lo hi' lo' : Byte} {opc opc' : BitVec 4} :
    layoutWord hi lo opc = layoutWord hi' lo' opc' ↔ opc = opc' ∧ lo = lo' ∧ hi = hi' := by
  refine ⟨fun h => ⟨?opc, ?lo, ?hi⟩, fun ⟨hopc, hlo, hhi⟩ => by rw [hopc, hlo, hhi]⟩
  case opc => simpa using congrArg opcodeOf h
  case lo => simpa using congrArg fieldA h
  case hi => simpa using congrArg fieldB h

theorem bitByte_inj {l l' : Bool} : bitByte l = bitByte l' ↔ l = l' :=
  ⟨fun h => by simpa using congrArg (·.getLsbD 0) h, congrArg bitByte⟩

/-- `N` is bytes B and A (R71, R75). -/
theorem fieldN_eq_iff {w : Word} {n : BitVec 16} :
    fieldN w = n ↔ fieldA w = n.extractLsb' 0 8 ∧ fieldB w = n.extractLsb' 8 8 := by
  constructor
  · rintro rfl
    exact ⟨(fieldN_bytes w).2.symm, (fieldN_bytes w).1.symm⟩
  · rintro ⟨hA, hB⟩
    have hn := fieldN_layoutWord n 0#4
    rw [fieldN_eq, fieldA_layoutWord, fieldB_layoutWord] at hn
    rw [fieldN_eq, hA, hB, hn]

/-- The fields of `w` that the format of `i` names hold the operands of `i` (R71 to R75). -/
def Instr.operandsIn (w : Word) : Instr → Prop
  | .writeReg reg value => fieldA w = reg ∧ fieldB w = value
  | .readReg reg => fieldA w = reg
  | .writeByte v => fieldA w = v
  | .writeBit b => fieldL w = b
  | .setClk level => fieldL w = level
  | .setData level => fieldL w = level
  | .setDir d => fieldL w = d.bit
  | .delay n => fieldN w = n
  | .start | .stop | .readByte | .readBit | .idle | .sample => True

/-! ### The decoder (R77, R78, R80) -/

/-- A word is a command exactly when its opcode and its operand fields are the command's (R77). -/
theorem decode_eq_instr_iff {w : Word} {i : Instr} :
    decode w = .instr i ↔ opcodeOf w = i.opcode ∧ i.operandsIn w := by
  constructor
  · intro h
    refine ⟨Machine.opcodeOf_of_decode h, ?_⟩
    unfold decode at h
    split at h <;> cases h <;> simp [Instr.operandsIn]
  · rintro ⟨ho, hi⟩
    cases i <;> simp_all [decode, Instr.opcode, Instr.operandsIn]

theorem Instr.opcode_ne_reserved (i : Instr) : i.opcode ≠ 0x0#4 ∧ i.opcode ≠ 0xF#4 := by
  cases i <;> simp [Instr.opcode]

/-- The reserved opcodes are 0x0 and 0xF (R78). -/
theorem decode_eq_reservedOpcode_iff {w : Word} {opc : BitVec 4} :
    decode w = .reservedOpcode opc ↔ opcodeOf w = opc ∧ (opc = 0x0#4 ∨ opc = 0xF#4) := by
  constructor
  · intro h
    unfold decode at h
    -- only the last arm answers so: the opcode is none of 1 to 14
    split at h <;> cases h
    refine ⟨rfl, ?_⟩
    have := (opcodeOf w).isLt
    simp only [imp_false] at *
    have hval : (opcodeOf w).toNat = 0 ∨ (opcodeOf w).toNat = 15 := by omega
    simpa [← BitVec.toNat_inj] using hval
  · rintro ⟨rfl, h | h⟩ <;> simp [decode, h]

/-- Settles O4: the decoder answers a command or a reserved opcode, and each answer gives `w[3:0]`. -/
theorem decodingIsTotal : Obligations.DecodingIsTotal := by
  intro w
  cases hd : decode w with
  | reservedOpcode opc =>
    obtain ⟨rfl, hres⟩ := decode_eq_reservedOpcode_iff.1 hd
    exact .inl ⟨rfl, hres⟩
  | instr i =>
    obtain ⟨ho, -⟩ := decode_eq_instr_iff.1 hd
    exact .inr ⟨ho ▸ i.opcode_ne_reserved.1, ho ▸ i.opcode_ne_reserved.2, i, rfl, ho.symm⟩

/-- Settles O1: the words are closed, and the decoder runs on each. -/
theorem specWordsDecode : Obligations.SpecWordsDecode := by
  unfold Obligations.SpecWordsDecode
  decide

/-! ### The encoder (R79, R81) -/

/-- The used bits of a word are those of a command's encoding exactly when its opcode and its operand
fields are the command's (R71, R81). -/
theorem and_usedBits_eq_encode_iff {w : Word} {i : Instr} :
    w &&& i.usedBits = encode i ↔ opcodeOf w = i.opcode ∧ i.operandsIn w := by
  cases i <;>
    simp only [Instr.usedBits, encode, Instr.opcode, Instr.operandsIn, and_two_bytes, and_one_byte,
      and_one_bit, and_no_operand, layoutWord_inj, bitByte_inj, fieldN_eq_iff, and_true]

theorem operandsIn_encode (i : Instr) : i.operandsIn (encode i) := by
  cases i <;> simp [Instr.operandsIn, encode]

theorem opcodeOf_encode (i : Instr) : opcodeOf (encode i) = i.opcode := by
  cases i <;> simp [encode, Instr.opcode]

theorem decode_encode (i : Instr) : decode (encode i) = .instr i :=
  decode_eq_instr_iff.2 ⟨opcodeOf_encode i, operandsIn_encode i⟩

/-- Settles O2: the encoding holds the command's opcode and its operands in their fields. -/
theorem encodeThenDecode : Obligations.EncodeThenDecode := decode_encode

/-- Settles O3: both sides say that the opcode and the operand fields of the word are the command's. -/
theorem reservedBitsIgnored : Obligations.ReservedBitsIgnored :=
  fun _ _ => decode_eq_instr_iff.trans and_usedBits_eq_encode_iff.symm

/-! ### The assembler (R81) -/

theorem AsmCommand.assemble_eq_some_iff {c : AsmCommand} {i : Instr} :
    c.assemble = some i ↔ c.wellFormed = true ∧ c.toInstr = i := by
  simp [AsmCommand.assemble]

theorem AsmCommand.assemble_eq_none_iff {c : AsmCommand} :
    c.assemble = none ↔ c.wellFormed = false := by
  simp [AsmCommand.assemble]

theorem toNat_beq_one {n : Nat} (h : n < 2) : (n == 1).toNat = n := by
  interval_cases n <;> rfl

/-- An operand in its range is not truncated (R81). -/
theorem AsmCommand.toAsm_toInstr {c : AsmCommand} (h : c.wellFormed = true) :
    c.toInstr.toAsm = c := by
  cases c <;>
    simp_all [AsmCommand.wellFormed, AsmCommand.toInstr, Instr.toAsm, Nat.mod_eq_of_lt, toNat_beq_one]

/-- A command's operands fit their fields, so they are in the ranges of R81. -/
theorem Instr.wellFormed_toAsm (i : Instr) : i.toAsm.wellFormed = true := by
  have hbyte : ∀ v : Byte, v.toNat < 256 := BitVec.isLt
  have hticks : ∀ n : BitVec 16, n.toNat < 65536 := BitVec.isLt
  cases i <;> simp [Instr.toAsm, AsmCommand.wellFormed, hbyte, hticks, Bool.toNat_le]

theorem Instr.toInstr_toAsm (i : Instr) : i.toAsm.toInstr = i := by
  cases i <;> simp [Instr.toAsm, AsmCommand.toInstr]

/-- Settles O5: the range check is all that refuses, and reading an accepted command back and assembling a
written one are inverse. -/
theorem assemblerNeverTruncates : Obligations.AssemblerNeverTruncates := by
  refine ⟨fun c => ⟨AsmCommand.assemble_eq_none_iff, fun i hi => ?_⟩,
    fun i => AsmCommand.assemble_eq_some_iff.2 ⟨i.wellFormed_toAsm, i.toInstr_toAsm⟩⟩
  obtain ⟨hwf, rfl⟩ := AsmCommand.assemble_eq_some_iff.1 hi
  exact ⟨AsmCommand.toAsm_toInstr hwf, Instr.wellFormed_toAsm _, decode_encode _⟩

end Sys2Proof

namespace Sys2Proof.Machine

/-! ### A CMD write with a reserved opcode (R78, R151) -/

/-- A CMD write of a word that is no command is one `clk` cycle (log 21). -/
theorem step_of_reservedOpcode {s : State} {p : PortIn} {ps : List PortIn} {w : Word}
    {opc : BitVec 4} (hh : s.host = p :: ps) (hw : p.commandWrite = some w)
    (hd : decode w = .reservedOpcode opc) : step s = .next (cycle p { s with host := ps }) := by
  simp [step, hh, hw, hd]

theorem issueCommand_reservedOpcode {w : Word} {opc : BitVec 4} {s : State}
    (hd : decode w = .reservedOpcode opc) (hb : s.busy = false) :
    issueCommand w s = refuse .opcode s := by
  simp [issueCommand, hd, checkReserved, hb]

theorem memWrite_cmd (v : Word) (s : State) : memWrite 0x0C#5 v s = issueCommand v s := rfl

/-- The cycle of such a write, no command running, is the idle cycle with ERR_OPCODE set. -/
theorem cycle_reservedOpcode_write {w : Word} {opc : BitVec 4} {s : State}
    (hd : decode w = .reservedOpcode opc) (hb : s.busy = false) :
    cycle (PortIn.write 0x0C#5 w) s =
      { cycle PortIn.idle s with errOpcode := true, pwdata := w } := by
  have hw : memWrite 0x0C#5 w { s with pwdata := w } = { s with errOpcode := true, pwdata := w } :=
    issueCommand_reservedOpcode hd hb
  rw [cycle_of_not_busy rfl hb, hostAccess_write, hw, cycle_idle_of_not_busy hb]
  rfl

/-- Settles O16: the word is no command, so the step is the cycle of a refused write. -/
theorem reservedOpcodeRefused : Obligations.ReservedOpcodeRefused := by
  intro s ps w hh hb hopc
  have hd : decode w = .reservedOpcode (opcodeOf w) := decode_eq_reservedOpcode_iff.2 ⟨rfl, hopc⟩
  have hw : (PortIn.write 0x0C#5 w).commandWrite = some w := by
    rw [commandWrite_write, if_pos (by decide)]
  exact (step_of_reservedOpcode hh hw hd).trans (congrArg _ (cycle_reservedOpcode_write hd hb))

/-! ### Host statements with no command running (R82) -/

/-- With no command running the cycles before an access are time passing (R61). -/
theorem beforeAccess_of_not_busy (gaps : List Nat) {s : State} (hb : s.busy = false) :
    beforeAccess gaps s = advance (gaps.headD 0) s s := by
  unfold beforeAccess
  induction gaps.headD 0 with
  | zero => exact (advance_zero s).symm
  | succ k ih =>
    rw [List.replicate_succ', runCycles_append, ih, advance_add k 1 s s s rfl rfl rfl]
    exact cycle_idle_of_not_busy hb

theorem runStmts_append (a b : List HostStmt) : ∀ (gaps : List Nat) (s : State),
    runStmts (a ++ b) gaps s = (runStmts a gaps s).bind fun r => runStmts b r.1 r.2 := by
  induction a with
  | nil => exact fun _ _ => rfl
  | cons h a ih =>
    intro gaps s
    simp only [List.cons_append, runStmts]
    cases h.run gaps s with
    | none => rfl
    | some r => exact ih r.1 r.2

theorem runStmts_wr (r : HostReg) (v : Word) (hs : List HostStmt) (gaps : List Nat) (s : State) :
    runStmts (.wr r v :: hs) gaps s =
      runStmts hs gaps.tail (cycle (PortIn.write r.offset v) (beforeAccess gaps s)) := rfl

theorem runStmts_rd (r : HostReg) (gaps : List Nat) (s : State) :
    runStmts [.rd r] gaps s =
      some (gaps.tail, cycle (PortIn.read r.offset) (beforeAccess gaps s)) := rfl

theorem Accepted.congr {i : Instr} {s t : State} (ha : Accepted i s) (hb : t.busy = s.busy)
    (ht : t.timerEn = s.timerEn) (hd : t.dir = s.dir) : Accepted i t := by
  simpa only [Accepted, hb, ht, hd] using ha

/-- A STATUS write with no command running clears the flags it names (R55). -/
theorem cycle_status_write_of_not_busy (v : Word) {s : State} (hb : s.busy = false) :
    cycle (PortIn.write 0x04#5 v) s = advance 1 s (clearFlags v { s with pwdata := v }) := by
  rw [cycle_of_not_busy rfl hb, hostAccess_write, memWrite_status]

/-- A CMD write of an accepted command's encoding is its acceptance (R57). -/
theorem cycle_command_write {i : Instr} {s : State} (ha : Accepted i s) :
    cycle (PortIn.write 0x0C#5 (encode i)) s =
      advance 1 s (accept (encode i) (commandOf i s.base) { s with pwdata := encode i }) := by
  have hc : checkCommand (commandOf i s.base) { s with pwdata := encode i } = none :=
    (accepted_iff i s).1 ha
  rw [cycle_of_not_busy rfl ha.1, hostAccess_write, memWrite_cmd]
  simp only [issueCommand, decode_encode, hc]

/-- The host's write to STATUS with no command running, at any pace: the next command's checks and operands
stay as they are (R55). -/
theorem statusWrite_of_not_busy (v : Word) (gaps : List Nat) {s : State} (hb : s.busy = false) :
    let t := cycle (PortIn.write HostReg.status.offset v) (beforeAccess gaps s)
    t.busy = s.busy ∧ t.timerEn = s.timerEn ∧ t.dir = s.dir ∧ t.base = s.base ∧
      t.reads = s.reads := by
  have ha : (advance (gaps.headD 0) s s).busy = false := hb
  rw [beforeAccess_of_not_busy gaps hb, show HostReg.status.offset = 0x04#5 from rfl,
    cycle_status_write_of_not_busy v ha]
  exact ⟨rfl, rfl, rfl, rfl, rfl⟩

/-- The host's write of an accepted command's encoding to CMD, at any pace (R57). -/
theorem commandWrite_of_accepted (gaps : List Nat) {i : Instr} {s : State} (ha : Accepted i s) :
    let t := cycle (PortIn.write HostReg.cmd.offset (encode i)) (beforeAccess gaps s)
    t.busy = true ∧ t.timerEn = s.timerEn ∧ t.cmd = encode i ∧
      t.prog = (commandOf i s.base).prog ∧ t.reads = s.reads := by
  have ha' : Accepted i (advance (gaps.headD 0) s s) := ha
  rw [beforeAccess_of_not_busy gaps ha.1, show HostReg.cmd.offset = 0x0C#5 from rfl,
    cycle_command_write ha']
  exact ⟨rfl, rfl, rfl, rfl, rfl⟩

/-! ### `WAIT` and `DO` (R83, R186) -/

/-- R83's `WAIT` ends with BUSY = 0, after reads that showed BUSY = 1 and one that shows BUSY = 0. -/
theorem runStmts_poll_ends (gaps : List Nat) {s : State}
    (h : s.busy = true → hasWait s.prog = true → s.timerEn = true) :
    ∃ left t ws w n, runStmts [.poll] gaps s = some (left, t) ∧ t.busy = false ∧
      Waited n (ws ++ [w]) s t ∧ (∀ r ∈ ws, r.getLsbD 0 = true) ∧ w.getLsbD 0 = false ∧
      w.getLsbD 1 = t.done := by
  obtain ⟨left, t, ws, a, n, hrun, hbusy, hw, hws, hab, hdone⟩ :=
    pollStatus_ends s.cyclesLeft gaps s (endsWithin_cyclesLeft h)
  exact ⟨left, t, ws, _, n, (runStmts_poll gaps s).trans hrun, hbusy, hw, hws,
    (memRead_status_busy a).trans hab, (memRead_status_done a).trans hdone.symm⟩

/-- The state in which a `DO`'s `WAIT` begins: DONE is cleared, the command is accepted. -/
theorem runStmts_doStmts {i : Instr} {s : State} (ha : Accepted i s) (gaps : List Nat) :
    ∃ left u, runStmts (doStmts i) gaps s = runStmts [.poll] left u ∧ u.busy = true ∧
      u.cmd = encode i ∧ u.prog = (commandOf i s.base).prog ∧ u.timerEn = s.timerEn ∧
      u.reads = s.reads := by
  obtain ⟨hb, ht, hd, hbase, hr⟩ := statusWrite_of_not_busy 0x00000002#32 gaps ha.1
  obtain ⟨hb', ht', hcmd, hprog, hr'⟩ := commandWrite_of_accepted gaps.tail (ha.congr hb ht hd)
  rw [doStmts, HostStmt.command, runStmts_wr, runStmts_wr]
  exact ⟨_, _, rfl, hb', hcmd, hbase ▸ hprog, ht'.trans ht, hr'.trans hr⟩

/-- `DO c` of an accepted command ends with it complete and DONE = 1 read (R83). -/
theorem doStmts_ends (gaps : List Nat) {i : Instr} {s : State} (ha : Accepted i s) :
    ∃ left t ws w, runStmts (doStmts i) gaps s = some (left, t) ∧ t.busy = false ∧
      t.done = true ∧ t.cmd = encode i ∧ t.prog = (commandOf i s.base).prog ∧
      t.reads = s.reads ++ ws ++ [w] ∧ (∀ r ∈ ws, r.getLsbD 0 = true) ∧
      w.getLsbD 0 = false ∧ w.getLsbD 1 = true := by
  obtain ⟨left, u, hrun, hu, hcmd, hprog, hten, hreads⟩ := runStmts_doStmts ha gaps
  obtain ⟨-, hneeds, -⟩ := checkCommand_eq_none.1 ((accepted_iff i s).1 ha)
  have htimer : u.busy = true → hasWait u.prog = true → u.timerEn = true := fun _ hw =>
    hten.trans (hneeds (hasWait_commandOf i s.base (hprog ▸ hw)))
  obtain ⟨left', t, ws, w, n, hpoll, hbusy, hw, hws, hw0, hw1⟩ := runStmts_poll_ends left htimer
  have hdone : t.done = true := by simpa [hu, hbusy] using hw.done
  exact ⟨left', t, ws, w, hrun.trans hpoll, hbusy, hdone, hw.cmd.trans hcmd, hw.prog.trans hprog,
    by rw [hw.reads, hreads, List.append_assoc], hws, hw0, hw1.trans hdone⟩

/-- A read of RDATA with no command running. -/
theorem read_rdata_of_not_busy (gaps : List Nat) {s : State} (hb : s.busy = false) :
    let t := cycle (PortIn.read HostReg.rdata.offset) (beforeAccess gaps s)
    t.busy = false ∧ t.done = s.done ∧ t.cmd = s.cmd ∧ t.rdata = s.rdata ∧
      t.reads = s.reads ++ [s.rdata.setWidth 32] := by
  have ha : (advance (gaps.headD 0) s s).busy = false := hb
  have hr := memRead_rdata (advance (gaps.headD 0) s s)
  rw [beforeAccess_of_not_busy gaps hb, cycle_read, cycle_idle_of_not_busy ha,
    show HostReg.rdata.offset = 0x10#5 from rfl, hr]
  exact ⟨hb, rfl, rfl, rfl, rfl⟩

/-- Settles O55: `WAIT` ends by `runStmts_poll_ends`, `DO` is two writes that begin a command and then a
`WAIT`, and `RREG` reads RDATA after a `DO`. -/
theorem doWaitsForCompletion : Obligations.DoWaitsForCompletion := by
  refine ⟨fun gaps s h => ?wait, fun gaps i s ha => doStmts_ends gaps ha, fun gaps r s ha => ?rreg⟩
  case wait =>
    obtain ⟨left, t, ws, w, n, hrun, hbusy, hw, hws, hw0, hw1⟩ := runStmts_poll_ends gaps h
    exact ⟨left, t, ws, w, n, hrun, hbusy, by simpa [hbusy] using hw.done,
      by rw [hw.reads, List.append_assoc], hws, hw0, hw1, hw.block⟩
  case rreg =>
    obtain ⟨left, t, ws, w, hrun, hbusy, hdone, hcmd, -, hreads, -⟩ := doStmts_ends gaps ha
    obtain ⟨hbusy', hdone', hcmd', hrdata, hreads'⟩ := read_rdata_of_not_busy left hbusy
    refine ⟨left.tail, _, ws ++ [w], ?_, hbusy', hdone'.trans hdone, hcmd'.trans hcmd, ?_⟩
    · rw [Pseudo.expand, runStmts_append, hrun]
      exact runStmts_rd .rdata left t
    · rw [hreads', hreads, hrdata, List.append_assoc _ ws]

end Sys2Proof.Machine

/-! PROOFS of the statements of the family 40_line_control.md: what the line-level commands and DELAY leave,
and the preconditions of the micro-ops in the trace of every command. -/

namespace Sys2Proof.Machine

/-! ### Preconditions (R96) -/

/-- The precondition of the micro-op an event shows: `SDA` with DATA an output, `SMP` with DATA an input
(R96). -/
def HoldsPrecondition (e : Event) : Prop :=
  (e.op = .sda → e.dir = .out) ∧ ∀ b, e.op = .smp b → e.dir = .inp

/-- Micro-ops whose preconditions hold from a position show them in their events (R96). -/
theorem eventsFrom_precondition (ops : List MicroOp) : ∀ (bs : List Bool) (q : Pos),
    opsOk q.dir ops = true → ∀ e ∈ eventsFrom ops bs q, HoldsPrecondition e := by
  induction ops with
  | nil => exact fun _ _ _ => List.forall_mem_nil _
  | cons op ops ih =>
    intro bs q hok
    cases op with
    | smp =>
      obtain ⟨hd, hops⟩ := by simpa only [opsOk, Bool.and_eq_true, beq_iff_eq] using hok
      have hsmp : ∀ b, HoldsPrecondition (q.event (.smp b)) := fun _ => ⟨nofun, fun _ _ => hd⟩
      cases bs with
      | nil => exact List.forall_mem_cons.2 ⟨hsmp false, ih _ _ hops⟩
      | cons b bs => exact List.forall_mem_cons.2 ⟨hsmp b, ih _ _ hops⟩
    | sda l =>
      obtain ⟨hd, hops⟩ := by simpa only [opsOk, Bool.and_eq_true, beq_iff_eq] using hok
      exact List.forall_mem_cons.2 ⟨⟨fun _ => hd, nofun⟩, ih _ _ hops⟩
    | _ => exact List.forall_mem_cons.2 ⟨⟨nofun, nofun⟩, ih _ _ hok⟩

/-- The preconditions of an accepted command's micro-ops hold: the acceptance has checked the direction
(R96, 60_exceptions.md R153). -/
theorem opsOk_of_accepted {i : Instr} {s : State} (ha : Accepted i s) :
    opsOk s.dir (commandOf i s.base).prog = true := by
  obtain ⟨-, -, hdir⟩ := checkCommand_eq_none.1 ((accepted_iff i s).1 ha)
  exact (opsOk_commandOf i s.base s.dir).trans hdir

/-- Settles O52: the acceptance's check of the direction is the micro-program's precondition, and its events
show the direction each micro-op ran with. -/
theorem preconditionsAlwaysHold : Obligations.PreconditionsAlwaysHold := by
  intro i s ha hr
  obtain ⟨t, bs, hexec, -, -, -, htrace, -⟩ := exec_accepted ha hr
  exact ⟨t, _, hexec, htrace,
    eventsFrom_precondition _ bs s.startPos (opsOk_of_accepted ha)⟩

/-! ### Commands that sample nothing (R97, R100 to R103, R105) -/

/-- What an accepted command without `SMP` leaves: its trace and its lines follow from the lines before it,
and the byte buffer stays (R91 to R97). -/
theorem exec_accepted_of_no_sample {i : Instr} {s : State} (ha : Accepted i s) (hr : NoReset s.host)
    (hs : sampleCount (commandOf i s.base).prog = 0) :
    ∃ t, exec i s = .next t ∧ CommandDone i s t ∧
      t.trace = s.trace ++ eventsFrom (commandOf i s.base).prog [] s.startPos ∧
      t.pos = posAfter (commandOf i s.base).prog s.startPos ∧
      t.rdata = rdataAfter i.opcode s.buf s.rdata ∧ t.buf = s.buf ∧
      t.blockPart = (completed i (commandOf i s.base) s).blockPart := by
  obtain ⟨t, bs, hexec, hdone, hblock, hlen, htrace, hpos, hbuf, hrdata⟩ := exec_accepted ha hr
  obtain rfl : bs = [] := List.length_eq_zero_iff.1 (hlen.trans hs)
  have hkept : t.buf = s.buf := hbuf
  exact ⟨t, hexec, hdone, htrace, hpos, hkept ▸ hrdata, hkept, hblock⟩

/-- A state's lines are those of its position. -/
theorem lines_of_pos {t : State} {q : Pos} (h : t.pos = q) :
    t.sclO = q.scl ∧ t.dir = q.dir ∧ t.lvl = q.lvl := by
  subst h
  exact ⟨rfl, rfl, rfl⟩

/-- Settles O27: `DIR(OUT)` releases DATA, `SCL(1)` releases CLOCK. -/
theorem idleCompletes : Obligations.IdleCompletes := by
  intro s hb hr
  have ha : Accepted .idle s := ⟨hb, nofun, nofun, nofun⟩
  obtain ⟨t, hexec, hdone, htrace, hpos, hrdata, hbuf, -⟩ := exec_accepted_of_no_sample ha hr rfl
  exact ⟨t, hexec, hdone, htrace, lines_of_pos hpos, hrdata, hbuf⟩

/-- Settles O28: the one micro-op is `SCL(l)`. -/
theorem setClkCompletes : Obligations.SetClkCompletes := by
  intro l s hb hr
  have ha : Accepted (.setClk l) s := ⟨hb, nofun, nofun, nofun⟩
  obtain ⟨t, hexec, hdone, htrace, hpos, hrdata, hbuf, -⟩ := exec_accepted_of_no_sample ha hr rfl
  obtain ⟨hscl, hdir, hlvl⟩ := lines_of_pos hpos
  exact ⟨t, hexec, hdone, htrace, hscl, hdir, hlvl, hrdata, hbuf⟩

/-- Settles O29: the one micro-op is `SDA(l)`, and the level is the output's since DATA is an output. -/
theorem setDataCompletes : Obligations.SetDataCompletes := by
  intro l s hb hd hr
  have ha : Accepted (.setData l) s := ⟨hb, nofun, fun _ => hd, nofun⟩
  obtain ⟨t, hexec, hdone, htrace, hpos, hrdata, hbuf, -⟩ := exec_accepted_of_no_sample ha hr rfl
  obtain ⟨hscl, hdir, hlvl⟩ := lines_of_pos hpos
  refine ⟨t, hexec, hdone, ?_, hscl, hdir.trans hd, hlvl, hrdata, hbuf⟩
  simpa [commandOf, setDataCommand, eventsFrom, Pos.event, Pos.after, Pos.sdaO, State.startPos, hd]
    using htrace

/-- Settles O30: the one micro-op is `DIR(d)`, which releases the level in both directions. -/
theorem setDirCompletes : Obligations.SetDirCompletes := by
  intro d s hb hr
  have ha : Accepted (.setDir d) s := ⟨hb, nofun, nofun, nofun⟩
  obtain ⟨t, hexec, hdone, htrace, hpos, hrdata, hbuf, -⟩ := exec_accepted_of_no_sample ha hr rfl
  obtain ⟨hscl, hdir, hlvl⟩ := lines_of_pos hpos
  refine ⟨t, hexec, hdone, ?_, hscl, hdir, hlvl, hrdata, hbuf⟩
  simpa [commandOf, setDirCommand, eventsFrom, Pos.event, Pos.after, Pos.sdaO, State.startPos]
    using htrace

/-! ### SAMPLE (R94, R104) -/

/-- The bit SAMPLE reads is the first stage at the CMD write: one cycle later it is in the last stage
(10_state.md R35; log 6). -/
theorem completed_sample_buf (s : State) :
    (completed .sample sampleCommand s).buf = shiftIn s.buf s.sync0 := rfl

/-- Equal bytes received, equal last bits. -/
theorem shiftIn_bit_injective {v : Byte} {b c : Bool} (h : shiftIn v b = shiftIn v c) : b = c := by
  rw [← shiftIn_getLsbD_zero v b, h, shiftIn_getLsbD_zero]

/-- RDATA after a SAMPLE is the bit sampled (20_memory.md R59). -/
theorem rdataAfter_sample (v old : Byte) (b : Bool) :
    rdataAfter Instr.sample.opcode (shiftIn v b) old = if b then 1#8 else 0#8 := by
  show 0#7 ++ BitVec.ofBool ((shiftIn v b).getLsbD 0) = _
  rw [shiftIn_getLsbD_zero]
  cases b <;> rfl

/-- Settles O31: the one micro-op is `SMP`, and the bit in the buffer is the first stage's. -/
theorem sampleCompletes : Obligations.SampleCompletes := by
  intro s hb hd hr
  have ha : Accepted .sample s := ⟨hb, nofun, nofun, fun _ => hd⟩
  obtain ⟨t, bs, hexec, hdone, hblock, hlen, htrace, hpos, hbuf, hrdata⟩ := exec_accepted ha hr
  obtain ⟨b, rfl⟩ : ∃ b, bs = [b] := List.length_eq_one_iff.1 hlen
  obtain ⟨hscl, hdir, hlvl⟩ := lines_of_pos hpos
  have hshift : t.buf = shiftIn s.buf b := hbuf
  have hevent : t.trace = s.trace ++ [⟨0, .smp b, s.sclO, s.sdaO, s.dir⟩] := htrace
  have hbit : b = s.sync0 := shiftIn_bit_injective <|
    hshift.symm.trans ((congrArg State.buf hblock).trans (completed_sample_buf s))
  refine ⟨t, b, hexec, hdone, ?_, ?_, hshift, hbit, hscl, hdir.trans hd, hlvl⟩
  · rw [hevent, sdaO_of_inp s hd, hd]
  · rw [hrdata, hshift, rdataAfter_sample]

/-! ### DELAY (R90, R95, R105) -/

/-- The cycle count and the timer's two counters after an accepted command, whatever the host does
meanwhile (R90, 70_reset_and_hazards.md R187). -/
theorem time_of_blockPart {i : Instr} {s t : State} (hw : s.wcnt = 0)
    (hblock : t.blockPart = (completed i (commandOf i s.base) s).blockPart) :
    t.now = s.now + 1 + busyCycles i ∧ (t.pre, t.tmr) = timerAfter (1 + busyCycles i) s := by
  obtain ⟨hnow, -, htimer⟩ := completed_time i s hw
  exact ⟨(congrArg State.now hblock).trans hnow,
    (congrArg (fun u : State => (u.pre, u.tmr)) hblock).trans htimer⟩

/-- Settles O24: the one micro-op is `WAIT(n)`, whose cycles are `n * TICK_COUNTS` timer counts. -/
theorem delayCompletes : Obligations.DelayCompletes := by
  intro n s hb he hr
  have ha : Accepted (.delay n) s := ⟨hb, fun _ => he, nofun, nofun⟩
  obtain ⟨t, hexec, hdone, htrace, hpos, hrdata, hbuf, hblock⟩ :=
    exec_accepted_of_no_sample ha hr rfl
  obtain ⟨hscl, hdir, hlvl⟩ := lines_of_pos hpos
  have hevent : t.trace =
      s.trace ++ [⟨0 + n.toNat, .wait n.toNat, s.sclO, s.sdaO, s.dir⟩] := htrace
  refine ⟨t, hexec, hdone, ?_, hscl, hdir, hlvl, hrdata, hbuf, fun hw hp => ?_⟩
  · rw [hevent, Nat.zero_add]
  · obtain ⟨hnow, htimer⟩ := time_of_blockPart hw hblock
    have hcycles : busyCycles (.delay n) =
        n.toNat * Config.tickCounts * Config.timerDiv + 1 := by
      simp [busyCycles, commandOps, commandTicks]
    refine ⟨by omega, ?_⟩
    have hsum : s.pre + (1 + busyCycles (.delay n)) =
        s.pre + 2 + n.toNat * Config.tickCounts * Config.timerDiv := by omega
    have hcounts : (s.pre + (1 + busyCycles (.delay n))) / Config.timerDiv =
        n.toNat * Config.tickCounts + (s.pre + 2) / Config.timerDiv := by
      rw [hsum, Nat.add_mul_div_right _ _ timerDiv_pos, Nat.add_comm]
    rw [timerAfter_running he hp, hcounts] at htimer
    exact (Prod.mk.inj htimer).2

end Sys2Proof.Machine

/-! PROOFS of the statements of the family 41_codec.md: what the bit and byte commands leave, the edges and the
levels of a byte on the lines, and its exposed window. -/

namespace Sys2Proof.Machine

/-! ### Reading the trace of micro-ops (R11)

An edge, a signature and a change of DATA with CLOCK high are all logical transitions (R11), so a reading that
picks only such events needs one rule for each micro-op. -/

@[simp] theorem inp_beq_out : (Dir.inp == Dir.out) = false := rfl

/-- The lines at a position. -/
def Pos.lines (q : Pos) : Lines := ⟨q.scl, q.sdaO⟩

/-! An accepted command starts at tick 0, on the lines of its state. -/

@[simp] theorem startPos_tick (s : State) : s.startPos.tick = 0 := rfl

@[simp] theorem startPos_scl (s : State) : s.startPos.scl = s.sclO := rfl

@[simp] theorem startPos_sdaO (s : State) : s.startPos.sdaO = s.sdaO := rfl

@[simp] theorem startPos_lines (s : State) : s.startPos.lines = s.lines := rfl

/-- A reading of the trace that picks logical transitions only (R11). -/
def OnlyLogical (f : Lines → Event → Bool) : Prop := ∀ l e, isLogical l e = false → f l e = false

theorem onlyLogical_isLogical : OnlyLogical isLogical := fun _ _ h => h

/-- A reading that picks changes of CLOCK only. -/
theorem onlyLogical_of_clock {f : Lines → Event → Bool} (hf : ∀ l e, l.scl = e.scl → f l e = false) :
    OnlyLogical f := by
  intro l e h
  obtain ⟨hscl, -⟩ := Bool.or_eq_false_iff.1 h
  exact hf l e (bne_eq_false_iff_eq.1 hscl)

theorem onlyLogical_isRisingEdge : OnlyLogical isRisingEdge :=
  onlyLogical_of_clock fun _ _ h => by simp [isRisingEdge, h]

theorem onlyLogical_isFallingEdge : OnlyLogical isFallingEdge :=
  onlyLogical_of_clock fun _ _ h => by simp [isFallingEdge, h]

/-- A change of DATA while CLOCK is high (R115). -/
def isDataChange (l : Lines) (e : Event) : Bool := l.scl && e.scl && l.sda != e.sda

theorem onlyLogical_isDataChange : OnlyLogical isDataChange := by
  intro l e h
  obtain ⟨-, hsda⟩ := Bool.or_eq_false_iff.1 h
  rw [isDataChange, Bool.and_assoc, Bool.and_comm e.scl, hsda, Bool.and_false]

/-- The events a reading picks of micro-ops run from a position. -/
def pickFrom (f : Lines → Event → Bool) (ops : List MicroOp) (bs : List Bool) (q : Pos) : List Event :=
  pick f q.lines (eventsFrom ops bs q)

section Reading

variable {f : Lines → Event → Bool}

@[simp] theorem pickFrom_nil (bs : List Bool) (q : Pos) : pickFrom f [] bs q = [] := rfl

theorem pick_cons (l : Lines) (e : Event) (es : List Event) :
    pick f l (e :: es) = pick f l [e] ++ pick f (linesAfter e) es := by
  by_cases h : f l e = true <;> simp [pick, h]

theorem pick_singleton_of_not_logical (hf : OnlyLogical f) {l : Lines} {e : Event}
    (h : isLogical l e = false) : pick f l [e] = [] := by
  simp [pick, hf l e h]

theorem pickFrom_scl (l : Bool) (ops : List MicroOp) (bs : List Bool) (q : Pos) :
    pickFrom f (.scl l :: ops) bs q =
      pick f q.lines [⟨q.tick, .scl, l, q.sdaO, q.dir⟩] ++ pickFrom f ops bs (q.after (.scl l)) :=
  pick_cons _ _ _

theorem pickFrom_dir (d : Dir) (ops : List MicroOp) (bs : List Bool) (q : Pos) :
    pickFrom f (.dir d :: ops) bs q =
      pick f q.lines [(q.after (.dir d)).event .dir] ++ pickFrom f ops bs (q.after (.dir d)) :=
  pick_cons _ _ _

theorem pickFrom_wait (hf : OnlyLogical f) (n : Nat) (ops : List MicroOp) (bs : List Bool) (q : Pos) :
    pickFrom f (.wait n :: ops) bs q = pickFrom f ops bs (q.after (.wait n)) := by
  refine (pick_cons _ _ _).trans ?_
  rw [pick_singleton_of_not_logical hf (by simp [isLogical, Pos.lines, Pos.event, Pos.after, Pos.sdaO])]
  rfl

theorem pickFrom_smp (hf : OnlyLogical f) (ops : List MicroOp) (b : Bool) (bs : List Bool) (q : Pos) :
    pickFrom f (.smp :: ops) (b :: bs) q = pickFrom f ops bs q := by
  refine (pick_cons _ _ _).trans ?_
  rw [pick_singleton_of_not_logical hf (by simp [isLogical, Pos.lines, Pos.event])]
  rfl

theorem pickFrom_sda_of_low (hf : OnlyLogical f) (l : Bool) (ops : List MicroOp) (bs : List Bool)
    {q : Pos} (hq : q.scl = false) :
    pickFrom f (.sda l :: ops) bs q = pickFrom f ops bs (q.after (.sda l)) := by
  refine (pick_cons _ _ _).trans ?_
  rw [pick_singleton_of_not_logical hf (by simp [isLogical, Pos.lines, Pos.event, Pos.after, hq])]
  rfl

/-- A change of direction with CLOCK low, or with DATA released already, is no logical transition (R11, R93). -/
theorem pickFrom_dir_of_low_or_released (hf : OnlyLogical f) (d : Dir) (ops : List MicroOp)
    (bs : List Bool) {q : Pos} (hq : q.scl = false ∨ q.sdaO = true) :
    pickFrom f (.dir d :: ops) bs q = pickFrom f ops bs (q.after (.dir d)) := by
  have hreleased : ((q.after (.dir d)).event .dir).sda = true := by
    simp [Pos.event, Pos.sdaO, Pos.after]
  have hscl : ((q.after (.dir d)).event .dir).scl = q.scl := rfl
  rw [pickFrom_dir, pick_singleton_of_not_logical hf, List.nil_append]
  obtain hlow | hhigh := hq
  · simp [isLogical, Pos.lines, hscl, hlow]
  · simp [isLogical, Pos.lines, hscl, hreleased, hhigh]

/-! ### A CLOCK cycle of the codec (R110 to R113)

Each bit, and each don't-care bit, is one falling and one rising edge of CLOCK. -/

/-- What a reading picks of a CLOCK cycle begun at `q`: of its falling edge, and of its rising edge at tick
`t`, DATA's output being `b` and its direction `d` by then. -/
def pickClock (f : Lines → Event → Bool) (q : Pos) (t : Nat) (b : Bool) (d : Dir) : List Event :=
  pick f q.lines [⟨q.tick, .scl, false, q.sdaO, q.dir⟩] ++ pick f ⟨false, b⟩ [⟨t, .scl, true, b, d⟩]

theorem pickFrom_wbit (hf : OnlyLogical f) (b : Bool) (ops : List MicroOp) (bs : List Bool) {q : Pos}
    (hd : q.dir = .out) :
    pickFrom f (wbit b ++ ops) bs q =
      pickClock f q (q.tick + 1) b .out ++ pickFrom f ops bs ⟨q.tick + 2, true, .out, b⟩ := by
  simp [wbit, pickFrom_scl, pickFrom_wait hf, pickFrom_sda_of_low hf, pickClock, Pos.after, Pos.lines,
    Pos.sdaO, hd]

theorem pickFrom_rbit (hf : OnlyLogical f) (ops : List MicroOp) (b : Bool) (bs : List Bool) {q : Pos}
    (hd : q.dir = .inp) :
    pickFrom f (rbit ++ ops) (b :: bs) q =
      pickClock f q (q.tick + 1) true .inp ++ pickFrom f ops bs ⟨q.tick + 2, true, .inp, q.lvl⟩ := by
  simp [rbit, pickFrom_scl, pickFrom_wait hf, pickFrom_smp hf, pickClock, Pos.after, Pos.lines, Pos.sdaO,
    hd]

theorem pickFrom_ninthWrite (hf : OnlyLogical f) (ops : List MicroOp) (bs : List Bool) (q : Pos) :
    pickFrom f (ninthWrite ++ ops) bs q =
      pickClock f q (q.tick + 2) true .inp ++ pickFrom f ops bs ⟨q.tick + 3, true, .out, true⟩ := by
  simp [ninthWrite, pickFrom_scl, pickFrom_wait hf, pickFrom_dir_of_low_or_released hf, pickClock,
    Pos.after, Pos.lines, Pos.sdaO]

theorem pickFrom_ninthRead (hf : OnlyLogical f) (ops : List MicroOp) (bs : List Bool) (q : Pos) :
    pickFrom f (ninthRead ++ ops) bs q =
      pickClock f q (q.tick + 1) true .out ++ pickFrom f ops bs ⟨q.tick + 2, true, .out, true⟩ := by
  simp [ninthRead, pickFrom_scl, pickFrom_wait hf, pickFrom_dir_of_low_or_released hf,
    pickFrom_sda_of_low hf, pickClock, Pos.after, Pos.lines, Pos.sdaO]

end Reading

@[simp] theorem pickClock_isRisingEdge (q : Pos) (t : Nat) (b : Bool) (d : Dir) :
    pickClock isRisingEdge q t b d = [⟨t, .scl, true, b, d⟩] := by
  simp [pickClock, pick, isRisingEdge]

@[simp] theorem pickClock_isFallingEdge (q : Pos) (t : Nat) (b : Bool) (d : Dir) :
    pickClock isFallingEdge q t b d = if q.scl then [⟨q.tick, .scl, false, q.sdaO, q.dir⟩] else [] := by
  simp [pickClock, pick, isFallingEdge, Pos.lines]

@[simp] theorem pickClock_isDataChange (q : Pos) (t : Nat) (b : Bool) (d : Dir) :
    pickClock isDataChange q t b d = [] := by
  simp [pickClock, pick, isDataChange]

/-- The logical transitions of a CLOCK cycle are its edges. -/
@[simp] theorem pickClock_isLogical (q : Pos) (t : Nat) (b : Bool) (d : Dir) :
    pickClock isLogical q t b d =
      (if q.scl then [⟨q.tick, .scl, false, q.sdaO, q.dir⟩] else []) ++ [⟨t, .scl, true, b, d⟩] := by
  cases hq : q.scl <;> simp [pickClock, pick, isLogical, Pos.lines, hq]

/-! ### A byte (R112, R113) -/

/-- What a reading picks of one-tick-low CLOCK cycles with DATA in one direction, its output going through
the levels of a list. -/
def pickCycles (f : Lines → Event → Bool) (d : Dir) : List Bool → Pos → List Event
  | [], _ => []
  | b :: ls, q => pickClock f q (q.tick + 1) b d ++ pickCycles f d ls ⟨q.tick + 2, true, d, b⟩

/-- A written byte: its bits, MSB first, and the don't-care cycle, which is a tick longer (R112). -/
theorem pickFrom_wbyte {f : Lines → Event → Bool} (hf : OnlyLogical f) (v : Byte) (ops : List MicroOp)
    (bs : List Bool) {q : Pos} (hd : q.dir = .out) :
    pickFrom f (wbyte v ++ ops) bs q =
      pickCycles f .out (bitsOf v) q ++
        (pickClock f ⟨q.tick + 16, true, .out, v.getLsbD 0⟩ (q.tick + 18) true .inp ++
          pickFrom f ops bs ⟨q.tick + 19, true, .out, true⟩) := by
  simp [wbyte, bitsOf, pickFrom_wbit hf, pickFrom_ninthWrite hf, pickCycles, hd, Nat.add_assoc]

/-- Eight elements of a list, one by one. -/
theorem eq_of_length_eight {α : Type} {l : List α} (h : l.length = 8) :
    ∃ b7 b6 b5 b4 b3 b2 b1 b0, l = [b7, b6, b5, b4, b3, b2, b1, b0] := by
  match l, h with
  | [b7, b6, b5, b4, b3, b2, b1, b0], _ => exact ⟨b7, b6, b5, b4, b3, b2, b1, b0, rfl⟩

/-- A byte read: the change of direction, eight cycles with DATA released, and the don't-care cycle (R113). -/
theorem pickFrom_rbyte {f : Lines → Event → Bool} (hf : OnlyLogical f) {bs : List Bool}
    (hbs : bs.length = 8) (ops : List MicroOp) (cs : List Bool) (q : Pos) :
    pickFrom f (rbyte ++ ops) (bs ++ cs) q =
      pick f q.lines [⟨q.tick, .dir, q.scl, true, .inp⟩] ++
        (pickCycles f .inp (List.replicate 8 true) ⟨q.tick, q.scl, .inp, true⟩ ++
          (pickClock f ⟨q.tick + 16, true, .inp, true⟩ (q.tick + 17) true .out ++
            pickFrom f ops cs ⟨q.tick + 18, true, .out, true⟩)) := by
  obtain ⟨b7, b6, b5, b4, b3, b2, b1, b0, rfl⟩ := eq_of_length_eight hbs
  simp [rbyte, pickFrom_dir, pickFrom_rbit hf, pickFrom_ninthRead hf, pickCycles, Pos.after, Pos.event,
    Pos.sdaO, List.replicate, Nat.add_assoc]

/-! ### The edges of a byte (R115, R117, R118, R121) -/

/-- At its rising edges a written byte shows its bits, then DATA released (R115). -/
theorem levelsAtRisingEdges_wbyte (v : Byte) (q : Pos) (hd : q.dir = .out) :
    levelsAtRisingEdges q.lines (eventsFrom (wbyte v) [] q) = bitsOf v ++ [true] := by
  show (pickFrom isRisingEdge (wbyte v) [] q).map _ = _
  rw [← List.append_nil (wbyte v), pickFrom_wbyte onlyLogical_isRisingEdge v _ _ hd]
  simp [pickCycles, bitsOf]

theorem ticksOf_isRisingEdge_wbyte (v : Byte) (q : Pos) (hd : q.dir = .out) :
    ticksOf isRisingEdge q.lines (eventsFrom (wbyte v) [] q) =
      [1, 3, 5, 7, 9, 11, 13, 15, 18].map (q.tick + ·) := by
  show (pickFrom isRisingEdge (wbyte v) [] q).map _ = _
  rw [← List.append_nil (wbyte v), pickFrom_wbyte onlyLogical_isRisingEdge v _ _ hd]
  simp [pickCycles, bitsOf, Nat.add_assoc]

theorem length_isFallingEdge_wbyte (v : Byte) (q : Pos) (hd : q.dir = .out) :
    (pick isFallingEdge q.lines (eventsFrom (wbyte v) [] q)).length = if q.scl then 9 else 8 := by
  show (pickFrom isFallingEdge (wbyte v) [] q).length = _
  rw [← List.append_nil (wbyte v), pickFrom_wbyte onlyLogical_isFallingEdge v _ _ hd]
  cases hq : q.scl <;> simp [pickCycles, bitsOf, hq]

theorem pick_isDataChange_wbyte (v : Byte) (q : Pos) (hd : q.dir = .out) :
    pick isDataChange q.lines (eventsFrom (wbyte v) [] q) = [] := by
  show pickFrom isDataChange (wbyte v) [] q = _
  rw [← List.append_nil (wbyte v), pickFrom_wbyte onlyLogical_isDataChange v _ _ hd]
  simp [pickCycles, bitsOf]

theorem ticksOf_isLogical_wbyte (v : Byte) (q : Pos) (hd : q.dir = .out) :
    ticksOf isLogical q.lines (eventsFrom (wbyte v) [] q) =
      (if q.scl then [q.tick] else []) ++ (List.range' 1 16 ++ [18]).map (q.tick + ·) := by
  show (pickFrom isLogical (wbyte v) [] q).map _ = _
  rw [← List.append_nil (wbyte v), pickFrom_wbyte onlyLogical_isLogical v _ _ hd]
  cases hq : q.scl <;> simp [pickCycles, bitsOf, List.range', hq, Nat.add_assoc]

theorem ticksOf_isRisingEdge_rbyte {bs : List Bool} (hbs : bs.length = 8) (q : Pos) :
    ticksOf isRisingEdge q.lines (eventsFrom rbyte bs q) =
      [1, 3, 5, 7, 9, 11, 13, 15, 17].map (q.tick + ·) := by
  show (pickFrom isRisingEdge rbyte bs q).map _ = _
  rw [← List.append_nil rbyte, ← List.append_nil bs, pickFrom_rbyte onlyLogical_isRisingEdge hbs]
  cases hq : q.scl <;> simp [pick, isRisingEdge, Pos.lines, pickCycles, List.replicate, hq, Nat.add_assoc]

theorem length_isFallingEdge_rbyte {bs : List Bool} (hbs : bs.length = 8) (q : Pos) :
    (pick isFallingEdge q.lines (eventsFrom rbyte bs q)).length = if q.scl then 9 else 8 := by
  show (pickFrom isFallingEdge rbyte bs q).length = _
  rw [← List.append_nil rbyte, ← List.append_nil bs, pickFrom_rbyte onlyLogical_isFallingEdge hbs]
  cases hq : q.scl <;> simp [pick, isFallingEdge, Pos.lines, pickCycles, List.replicate, hq]

/-- The change of direction is a logical transition exactly where CLOCK is high and DATA pulled low (R121). -/
theorem ticksOf_isLogical_rbyte {bs : List Bool} (hbs : bs.length = 8) (q : Pos) :
    ticksOf isLogical q.lines (eventsFrom rbyte bs q) =
      (if q.scl && !q.sdaO then [q.tick] else []) ++ ((if q.scl then [q.tick] else []) ++
        (List.range' 1 17).map (q.tick + ·)) := by
  show (pickFrom isLogical rbyte bs q).map _ = _
  rw [← List.append_nil rbyte, ← List.append_nil bs, pickFrom_rbyte onlyLogical_isLogical hbs]
  cases hq : q.scl <;> cases hs : q.sdaO <;>
    simp [pick, isLogical, Pos.lines, pickCycles, List.replicate, List.range', hq, hs,
      Nat.add_assoc]

/-! ### The bit commands (R110, R111) -/

/-- Settles O32: the five micro-ops of `WBIT(b)`, none of which samples. -/
theorem writeBitCompletes : Obligations.WriteBitCompletes := by
  intro b s hb he hd hr
  have ha : Accepted (.writeBit b) s := ⟨hb, fun _ => he, fun _ => hd, nofun⟩
  obtain ⟨t, hexec, hdone, htrace, hpos, hrdata, hbuf, -⟩ := exec_accepted_of_no_sample ha hr rfl
  obtain ⟨hscl, hdir, hlvl⟩ := lines_of_pos hpos
  refine ⟨t, hexec, hdone, ?_, hscl, hdir.trans hd, hlvl, hrdata, hbuf⟩
  simpa [commandOf, writeBitCommand, wbit, eventsFrom, Pos.event, Pos.after, Pos.sdaO, State.startPos, hd]
    using htrace

/-- RDATA after a READ_BIT is the bit sampled, as after a SAMPLE (20_memory.md R59). -/
theorem rdataAfter_readBit (v old : Byte) (b : Bool) :
    rdataAfter Instr.readBit.opcode (shiftIn v b) old = if b then 1#8 else 0#8 :=
  rdataAfter_sample v old b

/-- Settles O33: the five micro-ops of `RBIT`, whose one `SMP` gives the bit. -/
theorem readBitCompletes : Obligations.ReadBitCompletes := by
  intro s hb he hd hr
  have ha : Accepted .readBit s := ⟨hb, fun _ => he, nofun, fun _ => hd⟩
  obtain ⟨t, bs, hexec, hdone, -, hlen, htrace, hpos, hbuf, hrdata⟩ := exec_accepted ha hr
  obtain ⟨b, rfl⟩ : ∃ b, bs = [b] := List.length_eq_one_iff.1 hlen
  obtain ⟨hscl, hdir, hlvl⟩ := lines_of_pos hpos
  have hshift : t.buf = shiftIn s.buf b := hbuf
  refine ⟨t, b, hexec, hdone, ?_, ?_, hshift, hscl, hdir.trans hd, hlvl⟩
  · simpa [commandOf, readBitCommand, rbit, eventsFrom, Pos.event, Pos.after, Pos.sdaO, State.startPos, hd]
      using htrace
  · rw [hrdata, hshift, rdataAfter_readBit]

/-! ### The byte commands (R112 to R118) -/

/-- What an accepted WRITE_BYTE leaves: CLOCK high, DATA released, 19 ticks later (R112, R120). -/
theorem exec_writeByte {v : Byte} {s : State} (ha : Accepted (.writeByte v) s) (hr : NoReset s.host) :
    ∃ t, exec (.writeByte v) s = .next t ∧ CommandDone (.writeByte v) s t ∧
      t.trace = s.trace ++ eventsFrom (wbyte v) [] s.startPos ∧ t.pos = ⟨19, true, .out, true⟩ ∧
      t.rdata = s.rdata ∧ t.buf = s.buf := by
  obtain ⟨t, hexec, hdone, htrace, hpos, hrdata, hbuf, -⟩ := exec_accepted_of_no_sample ha hr rfl
  exact ⟨t, hexec, hdone, htrace, hpos, hrdata, hbuf⟩

/-- What an accepted READ_BYTE leaves: CLOCK high, DATA released, 18 ticks later (R113, R120). -/
theorem exec_readByte {s : State} (ha : Accepted .readByte s) (hr : NoReset s.host) :
    ∃ t bs, bs.length = 8 ∧ exec .readByte s = .next t ∧ CommandDone .readByte s t ∧
      t.trace = s.trace ++ eventsFrom rbyte bs s.startPos ∧ t.pos = ⟨18, true, .out, true⟩ := by
  obtain ⟨t, bs, hexec, hdone, -, hlen, htrace, hpos, -, -⟩ := exec_accepted ha hr
  exact ⟨t, bs, hlen, hexec, hdone, htrace, hpos⟩

theorem accepted_writeByte (v : Byte) {s : State} (hb : s.busy = false) (he : s.timerEn = true)
    (hd : s.dir = .out) : Accepted (.writeByte v) s :=
  ⟨hb, fun _ => he, fun _ => hd, nofun⟩

theorem accepted_readByte {s : State} (hb : s.busy = false) (he : s.timerEn = true) :
    Accepted .readByte s :=
  ⟨hb, fun _ => he, nofun, nofun⟩

/-- Settles O34: the trace is that of `WBYTE(v)`, whose nine CLOCK cycles begin at the even ticks. -/
theorem writeByteCompletes : Obligations.WriteByteCompletes := by
  intro v s hb he hd hr
  obtain ⟨t, hexec, hdone, htrace, hpos, hrdata, hbuf⟩ := exec_writeByte (accepted_writeByte v hb he hd) hr
  exact ⟨t, _, hexec, hdone, htrace, eventsFrom_length _ _ _, congrArg Pos.tick hpos, lines_of_pos hpos,
    ticksOf_isRisingEdge_wbyte v s.startPos hd, samples_eventsFrom _ [] _ rfl, hrdata, hbuf⟩

/-- Settles O35: the trace is that of `RBYTE`, which ends as it does whatever the direction on entry. -/
theorem readByteCompletes : Obligations.ReadByteCompletes := by
  intro s hb he hr
  obtain ⟨t, bs, hlen, hexec, hdone, htrace, hpos⟩ := exec_readByte (accepted_readByte hb he) hr
  exact ⟨t, _, hexec, hdone, htrace, eventsFrom_length _ _ _, congrArg Pos.tick hpos, lines_of_pos hpos,
    ticksOf_isRisingEdge_rbyte hlen s.startPos⟩

/-- READ_BYTE and READ_REG sample eight bits (R113, 42_transactions.md R141), and RDATA takes the buffer
(20_memory.md R59). -/
theorem sampleCount_rdataAfter_of_byteRead {i : Instr} (hi : i = .readByte ∨ ∃ r, i = .readReg r) :
    (∀ base, sampleCount (commandOf i base).prog = 8) ∧
      ∀ buf old, rdataAfter i.opcode buf old = buf := by
  obtain rfl | ⟨r, rfl⟩ := hi
  · exact ⟨fun _ => rfl, fun _ _ => rfl⟩
  · exact ⟨fun _ => rfl, fun _ _ => rfl⟩

/-- Settles O36: eight shifts overwrite the buffer, whatever it held. -/
theorem byteAssembly : Obligations.ByteAssembly := by
  intro i s hi ha hr
  obtain ⟨hcount, htakes⟩ := sampleCount_rdataAfter_of_byteRead hi
  obtain ⟨t, bs, hexec, -, -, hlen, htrace, -, hbuf, hrdata⟩ := exec_accepted ha hr
  have hsamples := samples_eventsFrom _ bs s.startPos hlen
  obtain ⟨b0, b1, b2, b3, b4, b5, b6, b7, rfl⟩ := eq_of_length_eight (hlen.trans (hcount s.base))
  exact ⟨t, _, b0, b1, b2, b3, b4, b5, b6, b7, hexec, htrace, hsamples,
    hbuf ▸ bitsOf_shiftIn s.buf b0 b1 b2 b3 b4 b5 b6 b7, hrdata.trans (htakes _ _)⟩

/-- Settles O37: each bit is the level of its CLOCK cycle, the don't-care cycle's level is the released one. -/
theorem byteEmission : Obligations.ByteEmission := by
  intro v s hb he hd hr
  obtain ⟨t, hexec, -, htrace, -, hrdata, hbuf⟩ := exec_writeByte (accepted_writeByte v hb he hd) hr
  exact ⟨t, _, hexec, htrace, levelsAtRisingEdges_wbyte v s.startPos hd,
    ticksOf_isRisingEdge_wbyte v s.startPos hd, pick_isDataChange_wbyte v s.startPos hd, hbuf, hrdata⟩

/-- A byte's bits, assembled MSB first, are the byte (R114). -/
theorem byteOf_bitsOf (v : Byte) : byteOf (bitsOf v) = v :=
  bitsOf_injective (bitsOf_shiftIn 0#8 _ _ _ _ _ _ _ _)

/-- Settles O38: the first eight levels are the byte's bits. -/
theorem writeRoundTrip : Obligations.WriteRoundTrip := by
  intro v s hb he hd hr
  obtain ⟨t, hexec, -, htrace, -, -, -⟩ := exec_writeByte (accepted_writeByte v hb he hd) hr
  have hlevels : levelsAtRisingEdges s.lines (eventsFrom (wbyte v) [] s.startPos) = bitsOf v ++ [true] :=
    levelsAtRisingEdges_wbyte v s.startPos hd
  refine ⟨t, _, hexec, htrace, ?_⟩
  rw [byteOnWire, hlevels]
  exact byteOf_bitsOf v

theorem length_pick (f : Lines → Event → Bool) (l : Lines) (es : List Event) :
    (pick f l es).length = (ticksOf f l es).length :=
  (List.length_map _).symm

/-- Settles O39: a rising edge in each of the nine CLOCK cycles, and a falling one too but for a first cycle
begun with CLOCK low. -/
theorem nineRisingEdges : Obligations.NineRisingEdges := by
  intro i s hi hb he hr
  obtain ⟨v, rfl, hd⟩ | rfl := hi
  · obtain ⟨t, hexec, -, htrace, -, -, -⟩ := exec_writeByte (accepted_writeByte v hb he hd) hr
    refine ⟨rfl, t, _, hexec, htrace, ?_, length_isFallingEdge_wbyte v s.startPos hd⟩
    exact (length_pick _ _ _).trans (congrArg List.length (ticksOf_isRisingEdge_wbyte v s.startPos hd))
  · obtain ⟨t, bs, hlen, hexec, -, htrace, -⟩ := exec_readByte (accepted_readByte hb he) hr
    refine ⟨rfl, t, _, hexec, htrace, ?_, length_isFallingEdge_rbyte hlen s.startPos⟩
    exact (length_pick _ _ _).trans (congrArg List.length (ticksOf_isRisingEdge_rbyte hlen s.startPos))

/-! ### Tick spacing (R121) -/

/-- The logical transitions of a written bit are its edges (R110). -/
theorem ticksOf_isLogical_wbit (b : Bool) (q : Pos) (hd : q.dir = .out) :
    ticksOf isLogical q.lines (eventsFrom (wbit b) [] q) =
      (if q.scl then [q.tick] else []) ++ [q.tick + 1] := by
  show (pickFrom isLogical (wbit b) [] q).map _ = _
  rw [← List.append_nil (wbit b), pickFrom_wbit onlyLogical_isLogical b _ _ hd]
  cases hq : q.scl <;> simp [hq]

/-- The logical transitions of a bit read are its edges (R111). -/
theorem ticksOf_isLogical_rbit {bs : List Bool} (hbs : bs.length = 1) (q : Pos) (hd : q.dir = .inp) :
    ticksOf isLogical q.lines (eventsFrom rbit bs q) =
      (if q.scl then [q.tick] else []) ++ [q.tick + 1] := by
  obtain ⟨b, rfl⟩ := List.length_eq_one_iff.1 hbs
  show (pickFrom isLogical rbit [b] q).map _ = _
  rw [← List.append_nil rbit, pickFrom_rbit onlyLogical_isLogical _ b _ hd]
  cases hq : q.scl <;> simp [hq]

/-- A trace from tick 0 whose logical transitions are at tick 0, where CLOCK is high on entry, and at the ticks
`ts` after it, is spaced, and ends at least a tick after the last one. -/
theorem tickSpaced_of_entry_edge {q : Pos} {evs : List Event} {n : Nat} (ts : List Nat) (hq : q.tick = 0)
    (hticks : ticksOf isLogical q.lines evs = (if q.scl then [q.tick] else []) ++ ts.map (q.tick + ·))
    (hts : spaced (0 :: ts) = true) (hn : ∀ k ∈ 0 :: ts, k + 1 ≤ n) :
    (∀ k ∈ ticksOf isLogical q.lines evs, k + 1 ≤ n) ∧ tickSpaced q.lines evs = true := by
  rw [tickSpaced, hticks, hq]
  simp only [Nat.zero_add, List.map_id']
  cases q.scl with
  | true => exact ⟨hn, hts⟩
  | false =>
    refine ⟨fun k hk => hn k (List.mem_cons_of_mem _ hk), ?_⟩
    cases ts with
    | nil => rfl
    | cons k ts => exact (Bool.and_eq_true_iff.1 hts).2

/-- WRITE_BYTE, WRITE_BIT and READ_BIT are spaced, whatever the lines on entry. -/
theorem exec_tickSpaced {i : Instr} {s : State}
    (hi : (∃ v, i = .writeByte v) ∨ (∃ b, i = .writeBit b) ∨ i = .readBit)
    (ha : Accepted i s) (hr : NoReset s.host) :
    ∃ t evs, exec i s = .next t ∧ t.trace = s.trace ++ evs ∧
      (∀ k ∈ ticksOf isLogical s.lines evs, k + 1 ≤ t.tick) ∧ tickSpaced s.lines evs = true := by
  have ⟨_, _, hout, hinp⟩ := ha
  obtain ⟨v, rfl⟩ | ⟨b, rfl⟩ | rfl := hi
  · obtain ⟨t, hexec, -, htrace, hpos, -, -⟩ := exec_writeByte ha hr
    have htick : t.tick = 19 := congrArg Pos.tick hpos
    exact ⟨t, _, hexec, htrace, htick ▸ tickSpaced_of_entry_edge (List.range' 1 16 ++ [18]) rfl
      (ticksOf_isLogical_wbyte v s.startPos (hout rfl)) (by decide) (by decide)⟩
  · obtain ⟨t, hexec, -, htrace, hpos, -, -, -⟩ := exec_accepted_of_no_sample ha hr rfl
    have htick : t.tick = 2 := congrArg Pos.tick hpos
    exact ⟨t, _, hexec, htrace, htick ▸ tickSpaced_of_entry_edge [1] rfl
      (ticksOf_isLogical_wbit b s.startPos (hout rfl)) (by decide) (by decide)⟩
  · obtain ⟨t, bs, hexec, -, -, hlen, htrace, hpos, -, -⟩ := exec_accepted ha hr
    have htick : t.tick = 2 := congrArg Pos.tick hpos
    exact ⟨t, _, hexec, htrace, htick ▸ tickSpaced_of_entry_edge [1] rfl
      (ticksOf_isLogical_rbit hlen s.startPos (hinp rfl)) (by decide) (by decide)⟩

/-- Settles O40: the logical transitions of a codec command are its edges, one a tick, and READ_BYTE's change
of direction where that moves DATA with CLOCK high. -/
theorem codecTickSpacing : Obligations.CodecTickSpacing := by
  intro i s hi ha hr
  by_cases hread : i = .readByte
  case neg =>
    obtain ⟨t, evs, hexec, htrace, hend, hspaced⟩ :=
      exec_tickSpaced (by simpa only [hread, or_false] using hi) ha hr
    exact ⟨t, evs, hexec, htrace, hend, fun _ => hspaced, fun h => absurd h hread⟩
  case pos =>
    subst hread
    obtain ⟨t, bs, hlen, hexec, -, htrace, hpos⟩ := exec_readByte ha hr
    have htick : t.tick = 18 := congrArg Pos.tick hpos
    have hticks := ticksOf_isLogical_rbyte hlen s.startPos
    by_cases hentry : s.sclO = true ∧ s.sdaO = false
    · have htwice : ticksOf isLogical s.lines (eventsFrom rbyte bs s.startPos) =
          0 :: 0 :: List.range' 1 17 := by
        obtain ⟨hscl, hsda⟩ := hentry
        simpa [hscl, hsda] using hticks
      refine ⟨t, _, hexec, htrace, ?_, fun h => absurd ⟨rfl, hentry⟩ h, fun _ _ _ => ?_⟩
      · rw [htwice, htick]
        decide
      · rw [htwice]
        decide
    · have honce : (s.startPos.scl && !s.startPos.sdaO) = false := by simpa using hentry
      rw [honce, if_neg Bool.false_ne_true, List.nil_append] at hticks
      obtain ⟨hend, hspaced⟩ :=
        tickSpaced_of_entry_edge (List.range' 1 17) (n := 18) rfl hticks (by decide) (by decide)
      exact ⟨t, _, hexec, htrace, htick ▸ hend, fun _ => hspaced,
        fun _ hscl hsda => absurd ⟨hscl, hsda⟩ hentry⟩

/-! ### The exposed window (R119) -/

/-- The exposed windows of a running command: one for each byte it writes (R119). -/
theorem exposedWindow_iff {i : Instr} {s : State} (hb : s.busy = true) (hd : decode s.cmd = .instr i) :
    s.exposedWindow = true ↔ ∃ k ∈ writeByteStarts i.opcode, k + 42 ≤ s.mpc ∧ s.mpc ≤ k + 44 := by
  simp [State.exposedWindow, hb, opcodeOf_of_decode hd]

/-- Up to its window a written byte leaves DATA's direction (R112). -/
theorem dir_not_mem_take_wbyte (v : Byte) (d : Dir) : .dir d ∉ (wbyte v).take 42 := by
  have htake : (wbyte v).take 42 = (bitsOf v).flatMap wbit ++ [.scl false, .wait 1] := rfl
  simp [htake, wbit]

/-- Settles O41: the programs laid out byte by byte, and for each command the windows of its bytes. -/
theorem exposedWindowOfWriteByte : Obligations.ExposedWindowOfWriteByte := by
  refine ⟨fun v => ⟨rfl, fun op hop d hdir => dir_not_mem_take_wbyte v d (hdir ▸ hop)⟩,
    fun base r v => ⟨rfl, rfl, rfl⟩, fun base r => ⟨rfl, rfl, rfl⟩, fun i s hb hd => ?_⟩
  rw [exposedWindow_iff hb hd]
  cases i with
  | writeByte v => simp [writeByteStarts, Instr.opcode]; omega
  | writeReg r v => simp [writeByteStarts, Instr.opcode]; omega
  | readReg r => simp [writeByteStarts, Instr.opcode]; omega
  | _ => simp [writeByteStarts, Instr.opcode]

end Sys2Proof.Machine

/-! PROOFS of the statements of the family 42_transactions.md: what the conditions and the transactions leave
and show on the lines, part by part, and the order of the transaction state. -/

namespace Sys2Proof.Machine

/-! ### START and STOP (R130, R131) -/

/-- A command that asks for DATA as an output at most is accepted with the timer on and DATA an output
(60_exceptions.md R153). -/
theorem accepted_of_out {i : Instr} {s : State} (hi : inpCommands i = false) (hb : s.busy = false)
    (he : s.timerEn = true) (hd : s.dir = .out) : Accepted i s :=
  ⟨hb, fun _ => he, fun _ => hd, fun h => absurd (h.symm.trans hi) (by decide)⟩

/-- What an accepted START leaves: both lines low, three ticks later (R130). -/
theorem exec_start {s : State} (ha : Accepted .start s) (hr : NoReset s.host) :
    ∃ t, exec .start s = .next t ∧ CommandDone .start s t ∧
      t.trace = s.trace ++ eventsFrom startC [] s.startPos ∧ t.pos = ⟨3, false, .out, false⟩ ∧
      t.rdata = s.rdata ∧ t.buf = s.buf := by
  have ⟨_, _, hout, _⟩ := ha
  obtain ⟨t, hexec, hdone, htrace, hpos, hrdata, hbuf, -⟩ := exec_accepted_of_no_sample ha hr rfl
  have hlow : t.pos = ⟨3, false, s.dir, false⟩ := hpos
  exact ⟨t, hexec, hdone, htrace, hout rfl ▸ hlow, hrdata, hbuf⟩

/-- What an accepted STOP leaves: both lines high, three ticks later (R131). -/
theorem exec_stop {s : State} (ha : Accepted .stop s) (hr : NoReset s.host) :
    ∃ t, exec .stop s = .next t ∧ CommandDone .stop s t ∧
      t.trace = s.trace ++ eventsFrom stopC [] s.startPos ∧ t.pos = ⟨3, true, .out, true⟩ ∧
      t.rdata = s.rdata ∧ t.buf = s.buf := by
  have ⟨_, _, hout, _⟩ := ha
  obtain ⟨t, hexec, hdone, htrace, hpos, hrdata, hbuf, -⟩ := exec_accepted_of_no_sample ha hr rfl
  have hhigh : t.pos = ⟨3, true, s.dir, true⟩ := hpos
  exact ⟨t, hexec, hdone, htrace, hout rfl ▸ hhigh, hrdata, hbuf⟩

/-- Settles O42: the seven micro-ops of `STARTC`, none of which samples. -/
theorem startCompletes : Obligations.StartCompletes := by
  intro s hb he hd hr
  obtain ⟨t, hexec, hdone, htrace, hpos, hrdata, hbuf⟩ := exec_start (accepted_of_out rfl hb he hd) hr
  obtain ⟨hscl, hdir, hlvl⟩ := lines_of_pos hpos
  refine ⟨t, hexec, hdone, ?_, hscl, hdir, hlvl, hrdata, hbuf⟩
  simpa [startC, eventsFrom, Pos.event, Pos.after, Pos.sdaO, State.startPos, hd] using htrace

/-- Settles O43: the six micro-ops of `STOPC`, none of which samples. -/
theorem stopCompletes : Obligations.StopCompletes := by
  intro s hb he hd hr
  obtain ⟨t, hexec, hdone, htrace, hpos, hrdata, hbuf⟩ := exec_stop (accepted_of_out rfl hb he hd) hr
  refine ⟨t, hexec, hdone, ?_, lines_of_pos hpos, hrdata, hbuf⟩
  simpa [stopC, eventsFrom, Pos.event, Pos.after, Pos.sdaO, State.startPos, hd] using htrace

/-! ### The edges and signatures of START and STOP (R132)

The line levels on entry are any of four, and from each of them the trace is closed but for its first tick. -/

theorem Pos.eq_of_out {q : Pos} (hd : q.dir = .out) : ∃ t scl lvl, q = ⟨t, scl, .out, lvl⟩ :=
  ⟨q.tick, q.scl, q.lvl, by rw [← hd]⟩

/-- The edges of a START: CLOCK rises at its beginning if it was low, and falls at its end (R130). -/
theorem length_edges_startC {q : Pos} (hd : q.dir = .out) :
    (pick isRisingEdge q.lines (eventsFrom startC [] q)).length = (if q.scl then 0 else 1) ∧
      (pick isFallingEdge q.lines (eventsFrom startC [] q)).length = 1 := by
  obtain ⟨t, scl, lvl, rfl⟩ := Pos.eq_of_out hd
  cases scl <;> cases lvl <;> exact ⟨rfl, rfl⟩

/-- The signatures of a START: its own at tick 1, and a Stop signature at its beginning if it was entered with
CLOCK high and DATA low (R132). -/
theorem ticksOf_signatures_startC {q : Pos} (hd : q.dir = .out) :
    ticksOf isStartSignature q.lines (eventsFrom startC [] q) = [q.tick + 1] ∧
      ticksOf isStopSignature q.lines (eventsFrom startC [] q) =
        (if q.scl && !q.lvl then [q.tick] else []) := by
  obtain ⟨t, scl, lvl, rfl⟩ := Pos.eq_of_out hd
  cases scl <;> cases lvl <;> exact ⟨rfl, rfl⟩

theorem ticksOf_isLogical_startC {q : Pos} (hd : q.dir = .out) :
    ticksOf isLogical q.lines (eventsFrom startC [] q) =
      (if q.scl && q.lvl then [] else [q.tick]) ++ [q.tick + 1, q.tick + 2] := by
  obtain ⟨t, scl, lvl, rfl⟩ := Pos.eq_of_out hd
  cases scl <;> cases lvl <;> rfl

/-- DATA is released where a START raises CLOCK (R130). -/
theorem levelsAtRisingEdges_startC {q : Pos} (hd : q.dir = .out) :
    levelsAtRisingEdges q.lines (eventsFrom startC [] q) = if q.scl then [] else [true] := by
  obtain ⟨t, scl, lvl, rfl⟩ := Pos.eq_of_out hd
  cases scl <;> cases lvl <;> rfl

/-- The signatures of a STOP: its own at tick 2, and a Start signature at its beginning if it was entered with
both lines high (R132). -/
theorem ticksOf_signatures_stopC {q : Pos} (hd : q.dir = .out) :
    ticksOf isStartSignature q.lines (eventsFrom stopC [] q) =
        (if q.scl && q.lvl then [q.tick] else []) ∧
      ticksOf isStopSignature q.lines (eventsFrom stopC [] q) = [q.tick + 2] := by
  obtain ⟨t, scl, lvl, rfl⟩ := Pos.eq_of_out hd
  cases scl <;> cases lvl <;> exact ⟨rfl, rfl⟩

/-- The edges of a STOP: CLOCK rises if it was low (R131). -/
theorem length_edges_stopC {q : Pos} (hd : q.dir = .out) :
    (pick isRisingEdge q.lines (eventsFrom stopC [] q)).length = (if q.scl then 0 else 1) ∧
      (pick isFallingEdge q.lines (eventsFrom stopC [] q)).length = 0 := by
  obtain ⟨t, scl, lvl, rfl⟩ := Pos.eq_of_out hd
  cases scl <;> cases lvl <;> exact ⟨rfl, rfl⟩

theorem ticksOf_isLogical_stopC {q : Pos} (hd : q.dir = .out) :
    ticksOf isLogical q.lines (eventsFrom stopC [] q) =
      (if q.scl && q.lvl then [q.tick] else []) ++ (if q.scl then [] else [q.tick + 1]) ++ [q.tick + 2] := by
  obtain ⟨t, scl, lvl, rfl⟩ := Pos.eq_of_out hd
  cases scl <;> cases lvl <;> rfl

/-- DATA is low where a STOP raises CLOCK (R131). -/
theorem levelsAtRisingEdges_stopC {q : Pos} (hd : q.dir = .out) :
    levelsAtRisingEdges q.lines (eventsFrom stopC [] q) = if q.scl then [] else [false] := by
  obtain ⟨t, scl, lvl, rfl⟩ := Pos.eq_of_out hd
  cases scl <;> cases lvl <;> rfl

/-- Settles O44: the signatures of the two micro-programs, from whatever lines. -/
theorem oneSignatureEach : Obligations.OneSignatureEach := by
  intro s hb he hd hr
  constructor
  · obtain ⟨t, hexec, -, htrace, -⟩ := exec_start (accepted_of_out rfl hb he hd) hr
    exact ⟨t, _, hexec, htrace, fun _ => (ticksOf_signatures_startC (q := s.startPos) hd).1⟩
  · obtain ⟨t, hexec, -, htrace, -⟩ := exec_stop (accepted_of_out rfl hb he hd) hr
    exact ⟨t, _, hexec, htrace, (ticksOf_signatures_stopC (q := s.startPos) hd).2⟩

/-! ### START and then STOP (R146) -/

/-- Where a command entered with the bus idle and DATA an output starts. -/
theorem startPos_of_idle {s : State} (hd : s.dir = .out) (hl : s.lines = Lines.idle) :
    s.startPos = ⟨0, true, .out, true⟩ := by
  obtain ⟨hscl, hsda⟩ := Lines.mk.inj hl
  rw [sdaO_of_out s hd] at hsda
  rw [State.startPos, hscl, hd, hsda]

/-- Settles O45: STOP begins where START ends, with the lines low, and from there both traces are closed. -/
theorem startThenStopIsIdle : Obligations.StartThenStopIsIdle := by
  intro s ps hb he hd hr hps
  obtain ⟨a, hstart, hdone, hatrace, hapos, -⟩ := exec_start (accepted_of_out rfl hb he hd) hr
  obtain ⟨-, hadir, -⟩ := lines_of_pos hapos
  have ha : Accepted .stop { a with host := ps } :=
    accepted_of_out rfl hdone.busy (hdone.timerEn.trans he) hadir
  obtain ⟨b, hstop, -, hbtrace, hbpos, -⟩ := exec_stop ha hps
  refine ⟨a, b, hstart, hstop, lines_of_pos hbpos, fun hidle => ⟨_, _, hatrace, hbtrace, ?_⟩⟩
  have hentry : s.startPos = ⟨0, true, .out, true⟩ := startPos_of_idle hd hidle
  have hbetween : ({ a with host := ps } : State).startPos = ⟨0, false, .out, false⟩ :=
    congrArg (fun q : Pos => { q with tick := 0 }) hapos
  have halines : a.lines = ⟨false, false⟩ := congrArg Pos.lines hapos
  rw [hentry, hbetween, hidle, halines]
  exact ⟨by decide, by decide, by decide, congrArg Pos.tick hapos, by decide, by decide, by decide,
    congrArg Pos.tick hbpos⟩

/-! ### A trace read part by part

A transaction is conditions and bytes one after the other, and what a reading picks of it is what it picks of
each of them, begun where the one before it ends. -/

theorem pick_cons_append {f : Lines → Event → Bool} {l : Lines} {e : Event} {es es' fs : List Event}
    (h : pick f (linesAfter e) es = pick f (linesAfter e) es' ++ fs) :
    pick f l (e :: es) = pick f l (e :: es') ++ fs := by
  rw [pick_cons, h, ← List.append_assoc, ← pick_cons]

/-- Micro-ops and those after them, the `SMP`s of the first reading the first bits. -/
theorem pickFrom_append (f : Lines → Event → Bool) (a b : List MicroOp) (cs : List Bool) :
    ∀ (bs : List Bool) (q : Pos), bs.length = sampleCount a →
      pickFrom f (a ++ b) (bs ++ cs) q = pickFrom f a bs q ++ pickFrom f b cs (posAfter a q) := by
  induction a with
  | nil =>
    intro bs q h
    obtain rfl : bs = [] := List.length_eq_zero_iff.1 h
    rfl
  | cons op a ih =>
    intro bs q h
    cases op with
    | smp =>
      cases bs with
      | nil => exact absurd h (Nat.zero_ne_add_one _)
      | cons x bs => exact pick_cons_append (ih bs q (Nat.succ.inj h))
    | _ => exact pick_cons_append (ih bs _ h)

theorem posAfter_startC (q : Pos) : posAfter startC q = ⟨q.tick + 3, false, q.dir, false⟩ := rfl

theorem posAfter_wbyte (v : Byte) (q : Pos) : posAfter (wbyte v) q = ⟨q.tick + 19, true, .out, true⟩ := rfl

theorem posAfter_rbyte (q : Pos) : posAfter rbyte q = ⟨q.tick + 18, true, .out, true⟩ := rfl

theorem posAfter_stopC (q : Pos) : posAfter stopC q = ⟨q.tick + 3, true, q.dir, true⟩ := rfl

theorem pickFrom_startC_append (f : Lines → Event → Bool) (ops : List MicroOp) (bs : List Bool) {q : Pos}
    (hd : q.dir = .out) :
    pickFrom f (startC ++ ops) bs q =
      pickFrom f startC [] q ++ pickFrom f ops bs ⟨q.tick + 3, false, .out, false⟩ := by
  rw [← hd]
  exact pickFrom_append f startC ops bs [] q rfl

theorem pickFrom_wbyte_append (f : Lines → Event → Bool) (v : Byte) (ops : List MicroOp) (bs : List Bool)
    (q : Pos) :
    pickFrom f (wbyte v ++ ops) bs q =
      pickFrom f (wbyte v) [] q ++ pickFrom f ops bs ⟨q.tick + 19, true, .out, true⟩ :=
  pickFrom_append f (wbyte v) ops bs [] q rfl

theorem pickFrom_rbyte_append (f : Lines → Event → Bool) (ops : List MicroOp) {bs : List Bool}
    (hbs : bs.length = 8) (q : Pos) :
    pickFrom f (rbyte ++ ops) bs q =
      pickFrom f rbyte bs q ++ pickFrom f ops [] ⟨q.tick + 18, true, .out, true⟩ := by
  conv_lhs => rw [← List.append_nil bs]
  exact pickFrom_append f rbyte ops [] bs q hbs

/-- WRITE_REG: START, the three bytes, STOP (R140). -/
theorem pickFrom_wreg (f : Lines → Event → Bool) (base : BitVec 7) (r v : Byte) {q : Pos}
    (hd : q.dir = .out) :
    pickFrom f (wreg base r v) [] q =
      pickFrom f startC [] q ++
        (pickFrom f (wbyte (writeAddress base)) [] ⟨q.tick + 3, false, .out, false⟩ ++
          (pickFrom f (wbyte r) [] ⟨q.tick + 22, true, .out, true⟩ ++
            (pickFrom f (wbyte v) [] ⟨q.tick + 41, true, .out, true⟩ ++
              pickFrom f stopC [] ⟨q.tick + 60, true, .out, true⟩))) := by
  simp only [wreg, List.append_assoc, pickFrom_startC_append f _ _ hd, pickFrom_wbyte_append]

/-- READ_REG: START, two bytes, the restart, a byte, the byte read, STOP (R141). -/
theorem pickFrom_rreg (f : Lines → Event → Bool) (base : BitVec 7) (r : Byte) {bs : List Bool}
    (hbs : bs.length = 8) {q : Pos} (hd : q.dir = .out) :
    pickFrom f (rreg base r) bs q =
      pickFrom f startC [] q ++
        (pickFrom f (wbyte (writeAddress base)) [] ⟨q.tick + 3, false, .out, false⟩ ++
          (pickFrom f (wbyte r) [] ⟨q.tick + 22, true, .out, true⟩ ++
            (pickFrom f startC [] ⟨q.tick + 41, true, .out, true⟩ ++
              (pickFrom f (wbyte (readAddress base)) [] ⟨q.tick + 44, false, .out, false⟩ ++
                (pickFrom f rbyte bs ⟨q.tick + 63, true, .out, true⟩ ++
                  pickFrom f stopC [] ⟨q.tick + 81, true, .out, true⟩))))) := by
  simp only [rreg, List.append_assoc, pickFrom_startC_append, hd, pickFrom_wbyte_append,
    pickFrom_rbyte_append f _ hbs]

/-! ### The parts of a transaction (R132, R140, R141, R147) -/

theorem pick_eq_nil_of_imp {f g : Lines → Event → Bool} (hfg : ∀ l e, f l e = true → g l e = true)
    (es : List Event) : ∀ l : Lines, pick g l es = [] → pick f l es = [] := by
  induction es with
  | nil => exact fun _ _ => rfl
  | cons e es ih =>
    intro l h
    have hg : ¬ g l e = true := fun hg => by simp [pick, hg] at h
    have hf : ¬ f l e = true := fun hf => hg (hfg l e hf)
    rw [pick, if_neg hg] at h
    rw [pick, if_neg hf]
    exact ih _ h

/-- Where DATA does not change while CLOCK is high there is no signature (R132). -/
theorem ticksOf_signatures_of_no_dataChange {l : Lines} {es : List Event} (h : pick isDataChange l es = []) :
    ticksOf isStartSignature l es = [] ∧ ticksOf isStopSignature l es = [] := by
  have hstart : ∀ l e, isStartSignature l e = true → isDataChange l e = true := by
    simp +contextual [isStartSignature, isDataChange]
  have hstop : ∀ l e, isStopSignature l e = true → isDataChange l e = true := by
    simp +contextual [isStopSignature, isDataChange]
  exact ⟨congrArg _ (pick_eq_nil_of_imp hstart es l h), congrArg _ (pick_eq_nil_of_imp hstop es l h)⟩

theorem ticksOf_signatures_wbyte (v : Byte) {q : Pos} (hd : q.dir = .out) :
    ticksOf isStartSignature q.lines (eventsFrom (wbyte v) [] q) = [] ∧
      ticksOf isStopSignature q.lines (eventsFrom (wbyte v) [] q) = [] :=
  ticksOf_signatures_of_no_dataChange (pick_isDataChange_wbyte v q hd)

/-- A byte read with DATA released on entry does not change it while CLOCK is high (R113). -/
theorem ticksOf_signatures_rbyte {bs : List Bool} (hbs : bs.length = 8) {q : Pos} (hl : q.lvl = true) :
    ticksOf isStartSignature q.lines (eventsFrom rbyte bs q) = [] ∧
      ticksOf isStopSignature q.lines (eventsFrom rbyte bs q) = [] := by
  have hnone : pickFrom isDataChange rbyte bs q = [] := by
    rw [← List.append_nil rbyte, ← List.append_nil bs, pickFrom_rbyte onlyLogical_isDataChange hbs]
    simp [pick, isDataChange, Pos.lines, Pos.sdaO, hl, pickCycles, List.replicate]
  exact ticksOf_signatures_of_no_dataChange hnone

/-- DATA is released at the nine rising edges of a byte read (R113). -/
theorem levelsAtRisingEdges_rbyte {bs : List Bool} (hbs : bs.length = 8) (q : Pos) :
    levelsAtRisingEdges q.lines (eventsFrom rbyte bs q) = List.replicate 9 true := by
  show (pickFrom isRisingEdge rbyte bs q).map _ = _
  rw [← List.append_nil rbyte, ← List.append_nil bs, pickFrom_rbyte onlyLogical_isRisingEdge hbs]
  simp [pick, isRisingEdge, Pos.lines, pickCycles, List.replicate]

theorem length_isRisingEdge_wbyte (v : Byte) (q : Pos) (hd : q.dir = .out) :
    (pick isRisingEdge q.lines (eventsFrom (wbyte v) [] q)).length = 9 :=
  (length_pick _ _ _).trans (congrArg List.length (ticksOf_isRisingEdge_wbyte v q hd))

theorem length_isRisingEdge_rbyte {bs : List Bool} (hbs : bs.length = 8) (q : Pos) :
    (pick isRisingEdge q.lines (eventsFrom rbyte bs q)).length = 9 :=
  (length_pick _ _ _).trans (congrArg List.length (ticksOf_isRisingEdge_rbyte hbs q))

/-! ### A transaction (R132, R140, R141, R147) -/

/-! The picked events of a part, as the readings of the part's trace. -/

theorem map_t_pickFrom (f : Lines → Event → Bool) (ops : List MicroOp) (bs : List Bool) (q : Pos) :
    (pickFrom f ops bs q).map (·.t) = ticksOf f q.lines (eventsFrom ops bs q) := rfl

theorem map_sda_pickFrom (ops : List MicroOp) (bs : List Bool) (q : Pos) :
    (pickFrom isRisingEdge ops bs q).map (·.sda) = levelsAtRisingEdges q.lines (eventsFrom ops bs q) := rfl

theorem length_pickFrom (f : Lines → Event → Bool) (ops : List MicroOp) (bs : List Bool) (q : Pos) :
    (pickFrom f ops bs q).length = (pick f q.lines (eventsFrom ops bs q)).length := rfl

/-- On WRITE_REG's wire: START's own rising edge if CLOCK was low, then the three bytes (R140). -/
theorem levelsAtRisingEdges_wreg (base : BitVec 7) (r v : Byte) {q : Pos} (hd : q.dir = .out) :
    levelsAtRisingEdges q.lines (eventsFrom (wreg base r v) [] q) =
      (if q.scl then [] else [true]) ++ bitsOf (writeAddress base) ++ [true] ++ bitsOf r ++ [true] ++
        bitsOf v ++ [true] := by
  rw [← map_sda_pickFrom, pickFrom_wreg _ _ _ _ hd]
  simp only [List.map_append, map_sda_pickFrom, levelsAtRisingEdges_startC, hd, levelsAtRisingEdges_wbyte,
    levelsAtRisingEdges_stopC, if_true, List.append_assoc, List.append_nil]

/-- On READ_REG's wire: START's own rising edge if CLOCK was low, the two bytes written before the restart,
the one after it, and DATA released in the byte read (R141). -/
theorem levelsAtRisingEdges_rreg (base : BitVec 7) (r : Byte) {bs : List Bool} (hbs : bs.length = 8)
    {q : Pos} (hd : q.dir = .out) :
    levelsAtRisingEdges q.lines (eventsFrom (rreg base r) bs q) =
      (if q.scl then [] else [true]) ++ bitsOf (writeAddress base) ++ [true] ++ bitsOf r ++ [true] ++
        bitsOf (readAddress base) ++ [true] ++ List.replicate 9 true := by
  rw [← map_sda_pickFrom, pickFrom_rreg _ _ _ hbs hd]
  simp only [List.map_append, map_sda_pickFrom, levelsAtRisingEdges_startC, hd, levelsAtRisingEdges_wbyte,
    levelsAtRisingEdges_rbyte hbs, levelsAtRisingEdges_stopC, if_true, List.nil_append, List.append_assoc,
    List.append_nil]

/-- The edges of WRITE_REG entered with CLOCK high: nine cycles a byte (R140). -/
theorem length_edges_wreg (base : BitVec 7) (r v : Byte) {q : Pos} (hd : q.dir = .out) (hs : q.scl = true) :
    (pick isRisingEdge q.lines (eventsFrom (wreg base r v) [] q)).length = 27 ∧
      (pick isFallingEdge q.lines (eventsFrom (wreg base r v) [] q)).length = 27 := by
  simp only [← length_pickFrom, pickFrom_wreg _ _ _ _ hd, List.length_append]
  simp [length_pickFrom, length_edges_startC, length_isRisingEdge_wbyte, length_isFallingEdge_wbyte,
    length_edges_stopC, hd, hs]

/-- The edges of READ_REG entered with CLOCK high: nine cycles a byte (R141). -/
theorem length_edges_rreg (base : BitVec 7) (r : Byte) {bs : List Bool} (hbs : bs.length = 8) {q : Pos}
    (hd : q.dir = .out) (hs : q.scl = true) :
    (pick isRisingEdge q.lines (eventsFrom (rreg base r) bs q)).length = 36 ∧
      (pick isFallingEdge q.lines (eventsFrom (rreg base r) bs q)).length = 36 := by
  simp only [← length_pickFrom, pickFrom_rreg _ _ _ hbs hd, List.length_append]
  simp [length_pickFrom, length_edges_startC, length_isRisingEdge_wbyte, length_isFallingEdge_wbyte,
    length_isRisingEdge_rbyte hbs, length_isFallingEdge_rbyte hbs, length_edges_stopC, hd, hs]

/-- The signatures of WRITE_REG entered from idle are those of its START and of its STOP (R132, R140). -/
theorem ticksOf_signatures_wreg (base : BitVec 7) (r v : Byte) :
    let q : Pos := ⟨0, true, .out, true⟩
    ticksOf isStartSignature q.lines (eventsFrom (wreg base r v) [] q) = [1, 60] ∧
      ticksOf isStopSignature q.lines (eventsFrom (wreg base r v) [] q) = [62] := by
  dsimp only
  simp only [← map_t_pickFrom, pickFrom_wreg, List.map_append]
  simp only [map_t_pickFrom, ticksOf_signatures_startC, ticksOf_signatures_wbyte, ticksOf_signatures_stopC]
  decide

/-- The signatures of READ_REG entered from idle are those of its START, its restart and its STOP
(R132, R141). -/
theorem ticksOf_signatures_rreg (base : BitVec 7) (r : Byte) {bs : List Bool} (hbs : bs.length = 8) :
    let q : Pos := ⟨0, true, .out, true⟩
    ticksOf isStartSignature q.lines (eventsFrom (rreg base r) bs q) = [1, 42, 81] ∧
      ticksOf isStopSignature q.lines (eventsFrom (rreg base r) bs q) = [83] := by
  dsimp only
  simp only [← map_t_pickFrom, pickFrom_rreg _ _ _ hbs, List.map_append]
  simp only [map_t_pickFrom, ticksOf_signatures_startC, ticksOf_signatures_wbyte,
    ticksOf_signatures_rbyte hbs, ticksOf_signatures_stopC]
  decide

/-- The logical transitions of WRITE_REG: one at tick 0 unless the bus is idle, and after it at most one a
tick (R147). -/
theorem tickSpaced_wreg (base : BitVec 7) (r v : Byte) {q : Pos} (hd : q.dir = .out) (ht : q.tick = 0) :
    tickSpaced q.lines (eventsFrom (wreg base r v) [] q) = true := by
  rw [tickSpaced, ← map_t_pickFrom, pickFrom_wreg _ _ _ _ hd]
  simp only [List.map_append, map_t_pickFrom, ticksOf_isLogical_startC, ticksOf_isLogical_wbyte,
    ticksOf_isLogical_stopC, hd, ht]
  cases q.scl && q.lvl <;> decide

theorem tickSpaced_rreg (base : BitVec 7) (r : Byte) {bs : List Bool} (hbs : bs.length = 8) {q : Pos}
    (hd : q.dir = .out) (ht : q.tick = 0) :
    tickSpaced q.lines (eventsFrom (rreg base r) bs q) = true := by
  rw [tickSpaced, ← map_t_pickFrom, pickFrom_rreg _ _ _ hbs hd]
  simp only [List.map_append, map_t_pickFrom, ticksOf_isLogical_startC, ticksOf_isLogical_wbyte,
    ticksOf_isLogical_rbyte hbs, ticksOf_isLogical_stopC, hd, ht]
  cases q.scl && q.lvl <;> decide

/-! ### WRITE_REG and READ_REG (R140, R141, R144) -/

theorem length_wreg (base : BitVec 7) (r v : Byte) : (wreg base r v).length = 154 := by simp [wreg]

theorem length_rreg (base : BitVec 7) (r : Byte) : (rreg base r).length = 208 := by simp [rreg]

theorem posAfter_wreg (base : BitVec 7) (r v : Byte) (q : Pos) :
    posAfter (wreg base r v) q = ⟨q.tick + 63, true, .out, true⟩ := by
  simp only [wreg, posAfter_append, posAfter_startC, posAfter_wbyte, posAfter_stopC]

theorem posAfter_rreg (base : BitVec 7) (r : Byte) (q : Pos) :
    posAfter (rreg base r) q = ⟨q.tick + 84, true, .out, true⟩ := by
  simp only [rreg, posAfter_append, posAfter_startC, posAfter_wbyte, posAfter_rbyte, posAfter_stopC]

/-- What an accepted WRITE_REG leaves: the bus idle, 63 ticks later (R140, R144). -/
theorem exec_writeReg {r v : Byte} {s : State} (ha : Accepted (.writeReg r v) s) (hr : NoReset s.host) :
    ∃ t, exec (.writeReg r v) s = .next t ∧ CommandDone (.writeReg r v) s t ∧
      t.trace = s.trace ++ eventsFrom (wreg s.base r v) [] s.startPos ∧ t.pos = ⟨63, true, .out, true⟩ ∧
      t.rdata = s.rdata ∧ t.buf = s.buf := by
  obtain ⟨t, hexec, hdone, htrace, hpos, hrdata, hbuf, -⟩ := exec_accepted_of_no_sample ha hr rfl
  exact ⟨t, hexec, hdone, htrace, hpos.trans (posAfter_wreg ..), hrdata, hbuf⟩

/-- Eight bits shifted in overwrite the buffer (R94, 41_codec.md R114). -/
theorem foldl_shiftIn_eq_byteOf {bs : List Bool} (hbs : bs.length = 8) (v : Byte) :
    bs.foldl shiftIn v = byteOf bs := by
  obtain ⟨b7, b6, b5, b4, b3, b2, b1, b0, rfl⟩ := eq_of_length_eight hbs
  exact bitsOf_injective ((bitsOf_shiftIn ..).trans (bitsOf_shiftIn ..).symm)

/-- What an accepted READ_REG leaves: the bus idle, 84 ticks later, and the byte of its samples in the buffer
and in RDATA (R141, R144, 20_memory.md R59). -/
theorem exec_readReg {r : Byte} {s : State} (ha : Accepted (.readReg r) s) (hr : NoReset s.host) :
    ∃ t bs, bs.length = 8 ∧ exec (.readReg r) s = .next t ∧ CommandDone (.readReg r) s t ∧
      t.trace = s.trace ++ eventsFrom (rreg s.base r) bs s.startPos ∧ t.pos = ⟨84, true, .out, true⟩ ∧
      t.buf = byteOf bs ∧ t.rdata = t.buf := by
  obtain ⟨t, bs, hexec, hdone, -, hlen, htrace, hpos, hbuf, hrdata⟩ := exec_accepted ha hr
  have hbs : bs.length = 8 := hlen
  exact ⟨t, bs, hbs, hexec, hdone, htrace, hpos.trans (posAfter_rreg ..),
    hbuf.trans (foldl_shiftIn_eq_byteOf hbs s.buf), hrdata⟩

/-- Settles O46: the trace is that of `WREG(r, v)`, whose levels are its bytes'. -/
theorem writeRegCompletes : Obligations.WriteRegCompletes := by
  intro r v s hb he hd hr
  obtain ⟨t, hexec, hdone, htrace, hpos, hrdata, hbuf⟩ := exec_writeReg (accepted_of_out rfl hb he hd) hr
  exact ⟨t, _, hexec, hdone, htrace, (eventsFrom_length _ _ _).trans (length_wreg ..),
    congrArg Pos.tick hpos, lines_of_pos hpos, hrdata, hbuf, samples_eventsFrom _ [] _ rfl,
    levelsAtRisingEdges_wreg s.base r v (q := s.startPos) hd⟩

/-- Settles O47: the trace is that of `RREG(r)`, whose eight samples overwrite the buffer. -/
theorem readRegCompletes : Obligations.ReadRegCompletes := by
  intro r s hb he hd hr
  obtain ⟨t, bs, hbs, hexec, hdone, htrace, hpos, hbuf, hrdata⟩ :=
    exec_readReg (accepted_of_out rfl hb he hd) hr
  have hsamples : samples (eventsFrom (rreg s.base r) bs s.startPos) = bs := samples_eventsFrom _ bs _ hbs
  refine ⟨t, _, hexec, hdone, htrace, (eventsFrom_length _ _ _).trans (length_rreg ..),
    congrArg Pos.tick hpos, lines_of_pos hpos, ?_, ?_, hrdata.symm,
    levelsAtRisingEdges_rreg s.base r hbs (q := s.startPos) hd⟩
  · rw [hsamples, hbs]
  · rw [hsamples, hrdata, hbuf]

/-- Settles O48: the edges and the signatures are counted part by part. -/
theorem transactionShape : Obligations.TransactionShape := by
  intro s hb he ⟨hscl, hd, hlvl⟩ hr
  have hentry : s.startPos = ⟨0, true, .out, true⟩ := by rw [State.startPos, hscl, hd, hlvl]
  refine ⟨fun r v => ?writeReg, fun r => ?readReg⟩
  case writeReg =>
    obtain ⟨t, hexec, -, htrace, -⟩ := exec_writeReg (accepted_of_out rfl hb he hd) hr
    obtain ⟨hrise, hfall⟩ := length_edges_wreg s.base r v (q := s.startPos) hd hscl
    obtain ⟨hstart, hstop⟩ := ticksOf_signatures_wreg s.base r v
    rw [← hentry] at hstart hstop
    exact ⟨t, _, hexec, htrace, hrise, hfall, hstart, hstop⟩
  case readReg =>
    obtain ⟨t, bs, hbs, hexec, -, htrace, -⟩ := exec_readReg (accepted_of_out rfl hb he hd) hr
    obtain ⟨hrise, hfall⟩ := length_edges_rreg s.base r hbs (q := s.startPos) hd hscl
    obtain ⟨hstart, hstop⟩ := ticksOf_signatures_rreg s.base r hbs
    rw [← hentry] at hstart hstop
    exact ⟨t, _, hexec, htrace, hrise, hfall, hstart, hstop⟩

/-- Settles O49: part by part, the logical transitions are at most one a tick. -/
theorem transactionTickSpacing : Obligations.TransactionTickSpacing := by
  intro i s hi hb he hd hr
  obtain ⟨r, v, rfl⟩ | ⟨r, rfl⟩ := hi
  · obtain ⟨t, hexec, -, htrace, -⟩ := exec_writeReg (accepted_of_out rfl hb he hd) hr
    exact ⟨t, _, hexec, htrace, tickSpaced_wreg s.base r v (q := s.startPos) hd rfl⟩
  · obtain ⟨t, bs, hbs, hexec, -, htrace, -⟩ := exec_readReg (accepted_of_out rfl hb he hd) hr
    exact ⟨t, _, hexec, htrace, tickSpaced_rreg s.base r hbs (q := s.startPos) hd rfl⟩

/-! ### The transaction state (R143) -/

/-- A move of the transaction state: none, or along one edge (R143). -/
def MovesAlong (a b : TState) : Prop := b = a ∨ (a, b) ∈ tstateEdges

/-- One position on, where the state is `x` up to a position and `g` after it: only the move from `x` to what
follows it is to be looked at. -/
theorem movesAlong_ite {x : TState} {g : Nat → TState} {last k : Nat}
    (hlast : (x, g (last + 1)) ∈ tstateEdges) (hafter : MovesAlong (g k) (g (k + 1))) :
    MovesAlong (if k ≤ last then x else g k) (if k + 1 ≤ last then x else g (k + 1)) := by
  rcases lt_trichotomy k last with h | rfl | h
  · rw [if_pos (by omega), if_pos (by omega)]
    exact .inl rfl
  · rw [if_pos (by omega), if_neg (by omega)]
    exact .inr hlast
  · rw [if_neg (by omega), if_neg (by omega)]
    exact hafter

/-- One position on in a command: the same transaction state, or along one edge. -/
theorem tstate_next {s t : State} (hs : s.busy = true) (ht : t.busy = true) (hc : t.cmd = s.cmd)
    (hm : t.mpc = s.mpc + 1) : MovesAlong s.tstate t.tstate := by
  unfold State.tstate
  rw [hs, ht, hc, hm]
  generalize s.mpc = k
  split
  · exact .inl rfl
  · split
    · iterate 5 (apply movesAlong_ite; · decide)
      exact .inl rfl
    · iterate 7 (apply movesAlong_ite; · decide)
      exact .inl rfl
    · exact .inl rfl

theorem tstate_of_not_busy {s : State} (hb : s.busy = false) : s.tstate = .idle := by
  simp [State.tstate, hb]

/-- A command that is no transaction has no transaction state of its own. -/
theorem tstate_of_no_transaction {s : State} (hwrite : opcodeOf s.cmd ≠ 0x1#4)
    (hread : opcodeOf s.cmd ≠ 0x2#4) : s.tstate = .idle := by
  unfold State.tstate
  split
  · rfl
  · split
    · exact absurd (BitVec.eq_of_toNat_eq ‹_›) hwrite
    · exact absurd (BitVec.eq_of_toNat_eq ‹_›) hread
    · rfl

/-- A transaction whose micro-ops are used up has stopped. -/
theorem tstate_at_end {s : State} (hb : s.busy = true)
    (h : (opcodeOf s.cmd = 0x1#4 ∧ s.mpc = 154) ∨ (opcodeOf s.cmd = 0x2#4 ∧ s.mpc = 208)) :
    s.tstate = .stopped := by
  obtain ⟨hop, hm⟩ | ⟨hop, hm⟩ := h <;> simp [State.tstate, hb, hop, hm]

/-- The transaction state reads nothing the host can reach while BUSY = 1 (R60), so a cycle of a running
command moves it as the sequencer does. -/
theorem cycle_tstate {p : PortIn} {s : State} (hp : p.rstN = true) (hb : s.busy = true) :
    (cycle p s).tstate = (sequencerCycle s.remaining s).tstate :=
  (congrArg State.tstate (cycle_blockPart hp hb) :)

/-- A cycle of the sequencer, no `WAIT(0)` being next: the completion, or the same position, or the next one
(R58, R59). -/
theorem sequencerCycle_position {ops : List MicroOp} (h0 : .wait 0 ∉ ops) (s : State) :
    let t := sequencerCycle ops s
    (ops = [] ∧ t.busy = false) ∨ (t.busy = s.busy ∧ (t.mpc = s.mpc ∨ t.mpc = s.mpc + 1)) := by
  cases ops with
  | nil => exact .inl ⟨rfl, rfl⟩
  | cons op ops =>
    refine .inr ?_
    cases op with
    | wait n =>
      have hn : n ≠ 0 := fun hn => h0 (hn ▸ List.mem_cons_self)
      simp only [sequencerCycle, if_neg hn, waitCycle]
      split
      · split
        · exact ⟨rfl, .inr rfl⟩
        · exact ⟨rfl, .inl rfl⟩
      · exact ⟨rfl, .inl rfl⟩
    | _ => exact ⟨rfl, .inr rfl⟩

/-- A cycle of a running transaction, whose micro-program holds no `WAIT(0)`: the state of its end is the only
one left by its completion. -/
theorem cycle_tstate_of_transaction {p : PortIn} {s : State} (h : s.Inv) (hb : s.busy = true)
    (hp : p.rstN = true) (h0 : .wait 0 ∉ s.prog) (hend : s.mpc = s.prog.length → s.tstate = .stopped) :
    MovesAlong s.tstate (cycle p s).tstate := by
  have hcmd := (sequencerCycle_program s.remaining s).1
  rw [cycle_tstate hp hb]
  obtain ⟨hrem, hbusy⟩ | ⟨hbusy, hm | hm⟩ :=
    sequencerCycle_position (ops := s.remaining) (fun hw => h0 (List.mem_of_mem_drop hw)) s
  · have hmpc : s.mpc = s.prog.length := le_antisymm h.mpcBound (List.drop_eq_nil_iff.1 hrem)
    rw [tstate_of_not_busy hbusy, hend hmpc]
    exact .inr (by decide)
  · exact .inl (by rw [State.tstate, State.tstate, hbusy, hcmd, hm])
  · exact tstate_next hb (hbusy.trans hb) hcmd hm

theorem wait_zero_not_mem_wbyte (v : Byte) : .wait 0 ∉ wbyte v := by
  simp [wbyte, wbit, ninthWrite]

theorem wait_zero_not_mem_wreg (base : BitVec 7) (r v : Byte) : .wait 0 ∉ wreg base r v := by
  simp [wreg, wait_zero_not_mem_wbyte, startC, stopC]

theorem wait_zero_not_mem_rreg (base : BitVec 7) (r : Byte) : .wait 0 ∉ rreg base r := by
  simp [rreg, wait_zero_not_mem_wbyte, startC, rbyte, rbit, ninthRead, stopC]

/-- Settles O50: a cycle moves a transaction by a position at most, and no other command has a state to
move. -/
theorem transactionStateOrder : Obligations.TransactionStateOrder := by
  intro s p h hb hp
  obtain ⟨i, hd, hprog⟩ := h.progOfCmd hb
  have hop := opcodeOf_of_decode hd
  cases i with
  | writeReg r v =>
    refine cycle_tstate_of_transaction h hb hp (hprog ▸ wait_zero_not_mem_wreg s.base r v) fun hm => ?_
    rw [hprog] at hm
    exact tstate_at_end hb (.inl ⟨hop, hm.trans (length_wreg s.base r v)⟩)
  | readReg r =>
    refine cycle_tstate_of_transaction h hb hp (hprog ▸ wait_zero_not_mem_rreg s.base r) fun hm => ?_
    rw [hprog] at hm
    exact tstate_at_end hb (.inr ⟨hop, hm.trans (length_rreg s.base r)⟩)
  | _ =>
    have hidle : ∀ t : State, t.cmd = s.cmd → t.tstate = .idle := fun t ht =>
      tstate_of_no_transaction (by simp [ht, hop, Instr.opcode]) (by simp [ht, hop, Instr.opcode])
    exact .inl <| (cycle_tstate hp hb).trans <|
      (hidle _ (sequencerCycle_program s.remaining s).1).trans (hidle s rfl).symm

end Sys2Proof.Machine

/-! PROOFS of the statements of the family 60_exceptions.md: what a refused command and a refused write leave,
which check refuses a command, and that no step stops. -/

namespace Sys2Proof.Machine

/-! ### A refused command (R151, R155) -/

/-- A refused command is the idle cycle with the flag of its cause set. -/
theorem exec_refused {i : Instr} {s : State} {cause : Cause}
    (h : checkCommand (commandOf i s.base) s = some cause) :
    exec i s = .next (refuse cause (cycle PortIn.idle s)) := by
  rw [exec_eq, runCommand_refused h, refused_cycle]

/-! ### The rows of R153 -/

theorem needsTimer_commandOf (i : Instr) (base : BitVec 7) :
    (commandOf i base).needsTimer = timerCommands i := by
  cases i <;> rfl

theorem needDir_commandOf (i : Instr) (base : BitVec 7) :
    (commandOf i base).needDir =
      if outCommands i then some .out else if inpCommands i then some .inp else none := by
  cases i <;> rfl

/-- No command asks for both directions. -/
theorem outCommands_of_inpCommands {i : Instr} (h : inpCommands i = true) : outCommands i = false := by
  cases i with
  | readBit | sample => rfl
  | _ => cases h

/-- The direction check fails in the direction the command does not ask for. -/
theorem dirMeets_commandOf_eq_false {i : Instr} {d : Dir} (base : BitVec 7)
    (h : (outCommands i = true ∧ d = .inp) ∨ (inpCommands i = true ∧ d = .out)) :
    dirMeets (commandOf i base).needDir d = false := by
  rw [needDir_commandOf]
  obtain ⟨hout, rfl⟩ | ⟨hinp, rfl⟩ := h
  · rw [if_pos hout]
    rfl
  · rw [if_neg (by simp [outCommands_of_inpCommands hinp]), if_pos hinp]
    rfl

/-- A command asks for the timer exactly when its micro-program waits. -/
theorem needsTimer_eq_hasWait (i : Instr) (base : BitVec 7) :
    (commandOf i base).needsTimer = hasWait (commandOf i base).prog := by
  cases i <;> rfl

/-- Settles O20: the row's timer column is the program's having a `WAIT`, and its direction column is the
program's precondition. -/
theorem checksMatchThePrograms : Obligations.ChecksMatchThePrograms :=
  fun i base => ⟨needsTimer_eq_hasWait i base, fun d => (opsOk_commandOf i base d).symm⟩

/-! ### Which check refuses a command (R153) -/

/-- Settles O19: the busy check comes first. -/
theorem busyCommandRefused : Obligations.BusyCommandRefused :=
  fun _ _ hb => exec_refused (checkCommand_busy hb)

/-- Settles O17: the timer check comes before the direction's. -/
theorem timerStoppedRefused : Obligations.TimerStoppedRefused :=
  fun i s hi hb ht =>
    exec_refused (checkCommand_timer hb ((needsTimer_commandOf i s.base).trans hi) ht)

/-- Settles O18: with the first two checks passed the direction check refuses. -/
theorem wrongDirectionRefused : Obligations.WrongDirectionRefused := by
  intro i s hb ht hd
  rw [← needsTimer_commandOf i s.base] at ht
  exact exec_refused (checkCommand_state hb ht (dirMeets_commandOf_eq_false s.base hd))

/-! ### A refused write (R152) -/

/-- While BUSY = 1 a write to CTRL, DEV_ADDR or CMD is refused, whatever it writes. -/
theorem memWrite_busy {off : BitVec 5} (v : Word) {s : State} (hb : s.busy = true)
    (ho : wordIndex off = 0 ∨ wordIndex off = 2 ∨ wordIndex off = 3) :
    memWrite off v s = refuse .busy s := by
  unfold memWrite
  obtain ho | ho | ho := ho <;> rw [ho]
  · exact if_pos hb
  · exact if_pos hb
  · exact issueCommand_busy hb

/-- The cycle of a write: its effect, then the sequencer's part (R155). -/
theorem cycle_write (off : BitVec 5) (v : Word) (s : State) :
    cycle (PortIn.write off v) s =
      advance 1 s (sequencerPart s.busy (memWrite off v { s with pwdata := v })) := rfl

/-- The idle cycle neither reads nor changes the word on the write port: that is what a write of it to a
read-only word is. -/
theorem cycle_idle_pwdata (v : Word) (s : State) :
    cycle PortIn.idle { s with pwdata := v } = { cycle PortIn.idle s with pwdata := v } := by
  have ho : 4 ≤ wordIndex 0x10#5 := by decide
  rw [← cycle_write_readOnly ho v s, cycle_write, memWrite_readOnly ho]
  rfl

/-- The cycle of a write refused with ERR_BUSY is the idle cycle with that flag set. -/
theorem cycle_busy_write {off : BitVec 5} (v : Word) {s : State} (hb : s.busy = true)
    (ho : wordIndex off = 0 ∨ wordIndex off = 2 ∨ wordIndex off = 3) :
    cycle (PortIn.write off v) s = refuse .busy (cycle PortIn.idle { s with pwdata := v }) := by
  have hw : memWrite off v { s with pwdata := v } = refuse .busy { s with pwdata := v } :=
    memWrite_busy v hb ho
  rw [cycle_write, hw]
  exact refused_cycle .busy { s with pwdata := v }

/-- The step of such a write, be it a cycle or a CMD write of a command (log 21). -/
theorem step_busy_write {s : State} {ps : List PortIn} {off : BitVec 5} {v : Word}
    (hh : s.host = PortIn.write off v :: ps) (hb : s.busy = true)
    (ho : wordIndex off = 0 ∨ wordIndex off = 2 ∨ wordIndex off = 3) :
    step s = .next (refuse .busy (cycle PortIn.idle { s with host := ps, pwdata := v })) := by
  have hcycle := cycle_busy_write v (s := { s with host := ps }) hb ho
  by_cases hcmd : wordIndex off = 3
  · have hw : (PortIn.write off v).commandWrite = some v := by rw [commandWrite_write, if_pos hcmd]
    cases hd : decode v with
    | instr i => exact (step_of_commandWrite hh hw hd).trans (exec_refused (checkCommand_busy hb))
    | reservedOpcode opc => rw [step_of_reservedOpcode hh hw hd, hcycle]
  · rw [step_of_write hh hcmd, hcycle]

/-- Settles O15: the step is the refusal in the idle cycle, which the word on the write port does not reach. -/
theorem busyWritesRefused : Obligations.BusyWritesRefused := by
  intro s ps off v hh hb ho
  rw [step_busy_write hh hb ho, cycle_idle_pwdata v { s with host := ps }]
  rfl

/-! ### No step stops (R150) -/

/-- Settles O7: a step is a cycle or a command run, and both answer a next state. -/
theorem noStepStops : Obligations.NoStepStops := by
  intro s
  obtain ⟨p, ps, hstep⟩ | ⟨w, i, ps, -, hstep⟩ := step_cases s
  · exact ⟨_, hstep⟩
  · exact ⟨_, hstep.trans (exec_eq i _)⟩

end Sys2Proof.Machine

/-! PROOFS of the statements of the family 70_reset_and_hazards.md: how a command's acceptance shows, how long
a command takes, its cycles one by one, and a reset in any of them. -/

namespace Sys2Proof.Machine

/-! ### Acceptance as the host sees it (R180) -/

/-- Whatever its cause, a refusal sets one flag (R151). -/
theorem errorFlags_refuse {s : State} (h : errorFlags s = 0) (c : Cause) :
    errorFlags (refuse c s) = 1 := by
  have hzero : s.errBusy = false ∧ s.errOpcode = false ∧ s.errTimer = false ∧
      s.errState = false := by
    simpa [errorFlags, and_assoc] using h
  obtain ⟨hB, hO, hT, hS⟩ := hzero
  cases c <;> simp [errorFlags, refuse, hB, hO, hT, hS]

theorem errorFlags_cycle_idle (s : State) : errorFlags (cycle PortIn.idle s) = errorFlags s := by
  obtain ⟨hB, hO, hT, hS, -⟩ := cycle_idle_hostSide s
  simp only [errorFlags, hB, hO, hT, hS]

/-- A command begun with no command running and every flag clear: an accepted one ends with DONE, a refused
one leaves an error flag and nothing else to see (R59, R151). -/
theorem exec_shows_acceptance {i : Instr} {s : State} (hb : s.busy = false) (hd : s.done = false)
    (he : errorFlags s = 0) (hh : s.host = []) :
    ∃ b, exec i s = .next b ∧ ((b.busy = true ∨ b.done = true) ↔ Accepted i s) ∧
      (¬ Accepted i s → b.busy = false ∧ b.done = false ∧ errorFlags b = 1) := by
  cases hc : checkCommand (commandOf i s.base) s with
  | none =>
    have ha : Accepted i s := (accepted_iff i s).2 hc
    obtain ⟨b, -, hexec, hdone, -⟩ := exec_accepted ha (by simp [NoReset, hh])
    exact ⟨b, hexec, iff_of_true (.inr hdone.done) ha, fun hn => absurd ha hn⟩
  | some c =>
    have ha : ¬ Accepted i s := by simp [accepted_iff, hc]
    have hbusy : (cycle PortIn.idle s).busy = false := by simp [cycle_idle_of_not_busy hb, hb]
    have hdone : (cycle PortIn.idle s).done = false := by simp [cycle_idle_of_not_busy hb, hd]
    exact ⟨_, exec_refused hc, iff_of_false (by simp [hbusy, hdone]) ha, fun _ =>
      ⟨(refuse_busy _ c).trans hbusy, (refuse_done _ c).trans hdone,
        errorFlags_refuse ((errorFlags_cycle_idle s).trans he) c⟩⟩

/-- The STATUS write that clears bits 5:1, no command running: what a command's checks read stays (R55). -/
theorem step_clear_status {s : State} {ps : List PortIn} (hb : s.busy = false)
    (hh : s.host = PortIn.write 0x04#5 0x0000003E#32 :: ps) :
    ∃ a, step s = .next a ∧ a.host = ps ∧ a.busy = s.busy ∧ a.timerEn = s.timerEn ∧
      a.dir = s.dir ∧ a.done = false ∧ errorFlags a = 0 := by
  have hcycle := cycle_status_write_of_not_busy 0x0000003E#32 (s := { s with host := ps }) hb
  refine ⟨_, (step_of_write hh (by decide)).trans (congrArg _ hcycle), rfl, rfl, rfl, rfl, ?_, ?_⟩
  · simp
  · simp [errorFlags]

/-- Settles O21: the first step clears the flags and leaves what the checks read, so the second shows the
acceptance. -/
theorem acceptanceIsVisible : Obligations.AcceptanceIsVisible := by
  intro s i hb hh
  obtain ⟨a, hclear, hhost, hbusy, htimer, hdir, hdone, herr⟩ := step_clear_status hb hh
  have hcmd : (PortIn.write 0x0C#5 (encode i)).commandWrite = some (encode i) := by
    rw [commandWrite_write, if_pos (by decide)]
  obtain ⟨b, hexec, hshow⟩ :=
    exec_shows_acceptance (i := i) (s := { a with host := [], pwdata := encode i })
      (hbusy.trans hb) hdone herr rfl
  refine ⟨a, b, hclear, (step_of_commandWrite hhost hcmd (decode_encode i)).trans hexec, ?_⟩
  simpa only [Accepted, hbusy, htimer, hdir] using hshow

/-! ### How long a command takes (R186, R187) -/

/-- Settles O25: the host reaches neither the counters nor the cycle number, and with the port idle the cycles
are those of the micro-program. -/
theorem commandDuration : Obligations.CommandDuration := by
  intro i s ha hw hr
  obtain ⟨t, -, hexec, -, hblock, -⟩ := exec_accepted ha hr
  obtain ⟨hnow, htimer⟩ := time_of_blockPart hw hblock
  obtain ⟨-, hwcnt, -⟩ := completed_time i s hw
  exact ⟨t, hexec, hnow, (congrArg State.wcnt hblock).trans hwcnt, htimer⟩

/-! ### The port's activity to come (log 3)

A cycle neither reads it nor moves it on. -/

/-- The state with other port activity to come. -/
def State.withHost (s : State) (h : List PortIn) : State := { s with host := h }

theorem withHost_of_host_eq {s : State} {h : List PortIn} (hh : s.host = h) : s.withHost h = s := by
  rw [← hh]
  rfl

@[simp] theorem withHost_withHost (s : State) (g h : List PortIn) :
    (s.withHost g).withHost h = s.withHost h := rfl

theorem issueCommand_withHost (w : Word) (s : State) (h : List PortIn) :
    issueCommand w (s.withHost h) = (issueCommand w s).withHost h := by
  have hrefuse : ∀ c, refuse c (s.withHost h) = (refuse c s).withHost h := by
    intro c
    cases c <;> rfl
  cases hd : decode w with
  | reservedOpcode _ =>
    simp only [issueCommand, hd]
    exact hrefuse (checkReserved s)
  | instr i =>
    have hcheck : checkCommand (commandOf i (s.withHost h).base) (s.withHost h) =
        checkCommand (commandOf i s.base) s := rfl
    simp only [issueCommand, hd, hcheck]
    cases checkCommand (commandOf i s.base) s with
    | some c => exact hrefuse c
    | none => rfl

theorem memWrite_withHost (off : BitVec 5) (v : Word) (s : State) (h : List PortIn) :
    memWrite off v (s.withHost h) = (memWrite off v s).withHost h := by
  have hbusy : (s.withHost h).busy = s.busy := rfl
  unfold memWrite
  rw [hbusy]
  split
  · cases s.busy <;> rfl
  · rfl
  · cases s.busy <;> rfl
  · exact issueCommand_withHost v s h
  · rfl

theorem hostAccess_withHost (p : PortIn) (s : State) (h : List PortIn) :
    hostAccess p (s.withHost h) = (hostAccess p s).withHost h := by
  unfold hostAccess
  split
  · rfl
  · rfl
  · exact memWrite_withHost _ _ { s with pwdata := _ } h

theorem sequencerPart_withHost (b : Bool) (s : State) (h : List PortIn) :
    sequencerPart b (s.withHost h) = (sequencerPart b s).withHost h := by
  have hside := sequencerPart_withHostSide s.errBusy s.errOpcode s.errTimer s.errState h s.pwdata
    s.reads b s
  obtain ⟨hB, hO, hT, hS, -, hpw, hrd⟩ := sequencerPart_hostSide b s
  refine hside.trans ?_
  rw [State.withHostSide, ← hB, ← hO, ← hT, ← hS, ← hpw, ← hrd]
  rfl

theorem cycle_withHost (p : PortIn) (s : State) (h : List PortIn) :
    cycle p (s.withHost h) = (cycle p s).withHost h := by
  have hbusy : (s.withHost h).busy = s.busy := rfl
  unfold cycle
  rw [hostAccess_withHost, hbusy, sequencerPart_withHost]
  cases p.rstN <;> rfl

@[simp] theorem runCycles_nil (s : State) : runCycles [] s = s := rfl

@[simp] theorem runCycles_cons (p : PortIn) (ps : List PortIn) (s : State) :
    runCycles (p :: ps) s = runCycles ps (cycle p s) := rfl

theorem runCycles_withHost (ps : List PortIn) (h : List PortIn) : ∀ s : State,
    runCycles ps (s.withHost h) = (runCycles ps s).withHost h := by
  induction ps with
  | nil => exact fun _ => rfl
  | cons p ps ih => intro s; rw [runCycles_cons, cycle_withHost, ih, runCycles_cons]

theorem cycle_host (p : PortIn) (s : State) : (cycle p s).host = s.host :=
  (congrArg State.host (cycle_withHost p s s.host) :)

theorem runCycles_host (ps : List PortIn) (s : State) : (runCycles ps s).host = s.host :=
  (congrArg State.host (runCycles_withHost ps s.host s) :)

/-! ### Port activity without reset (R171) -/

theorem noReset_append_idle {ps : List PortIn} (hr : NoReset ps) (n : Nat) :
    NoReset (ps ++ List.replicate n PortIn.idle) := by
  intro p hp
  obtain hp | hp := List.mem_append.1 hp
  · exact hr p hp
  · rw [List.eq_of_mem_replicate hp]
    rfl

theorem noReset_take {ps : List PortIn} (hr : NoReset ps) (n : Nat) : NoReset (ps.take n) :=
  fun p hp => hr p (List.mem_of_mem_take hp)

/-! ### The model's record of a run (log 8) -/

theorem cycle_now (p : PortIn) (s : State) : (cycle p s).now = s.now + 1 := by
  unfold cycle
  cases p.rstN <;> rfl

theorem runCycles_now (ps : List PortIn) : ∀ s : State,
    (runCycles ps s).now = s.now + ps.length := by
  induction ps with
  | nil => exact fun _ => rfl
  | cons p ps ih => intro s; rw [runCycles_cons, ih, cycle_now, List.length_cons]; omega

/-- No host access writes the line trace (00_scope.md R11). -/
theorem hostAccess_trace (p : PortIn) (s : State) : (hostAccess p s).trace = s.trace := by
  unfold hostAccess
  split
  · rfl
  · rfl
  case _ off v _ =>
    obtain h | ⟨-, ⟨b, h⟩ | ⟨a, h⟩ | ⟨i, -, -, h⟩⟩ := memWrite_cases off v { s with pwdata := v }
    all_goals exact (congrArg State.trace h :)

theorem microOp_trace_grows (op : MicroOp) (s : State) : s.trace <+: (microOp op s).trace := by
  cases op <;> exact ⟨_, rfl⟩

theorem sequencerCycle_trace_grows (ops : List MicroOp) : ∀ s : State,
    s.trace <+: (sequencerCycle ops s).trace := by
  induction ops with
  | nil => exact fun _ => ⟨[], List.append_nil _⟩
  | cons op ops ih =>
    intro s
    cases op with
    | wait n =>
      simp only [sequencerCycle]
      split
      · exact (microOp_trace_grows (.wait 0) s).trans (ih _)
      · unfold waitCycle
        split <;> [split; skip]
        · exact microOp_trace_grows (.wait n) s
        · exact ⟨[], List.append_nil _⟩
        · exact ⟨[], List.append_nil _⟩
    | _ => exact microOp_trace_grows _ s

/-- A cycle takes nothing from the trace, a reset cycle included. -/
theorem cycle_trace_grows (p : PortIn) (s : State) : s.trace <+: (cycle p s).trace := by
  cases hp : p.rstN with
  | false => exact ⟨[], by simp [cycle, hp]⟩
  | true =>
    rw [cycle, if_pos hp, advance_trace, ← hostAccess_trace p s]
    cases s.busy with
    | false => exact ⟨[], List.append_nil _⟩
    | true => exact sequencerCycle_trace_grows _ _

theorem runCycles_trace_grows (ps : List PortIn) : ∀ s : State,
    s.trace <+: (runCycles ps s).trace := by
  induction ps with
  | nil => exact fun _ => ⟨[], List.append_nil _⟩
  | cons p ps ih => exact fun s => (cycle_trace_grows p s).trans (ih _)

theorem finish_trace_grows (s : State) : s.trace <+: (finish s).trace := by
  obtain ⟨bs, -, htrace, -⟩ := runOps_lines s.remaining s
  exact ⟨_, htrace.symm⟩

/-! ### A running command, counted in cycles (R187) -/

/-- The timer runs while a command with a `WAIT` still to run does (40_line_control.md R90). -/
def State.WaitsRun (s : State) : Prop :=
  s.busy = true → hasWait s.remaining = true → s.timerEn = true

theorem cyclesLeft_of_busy {s : State} (hb : s.busy = true) :
    s.cyclesLeft = (finish s).now - s.now := if_pos hb

theorem cyclesLeft_of_not_busy {s : State} (hb : s.busy = false) : s.cyclesLeft = 0 :=
  if_neg (by simp [hb])

theorem cyclesLeft_congr {s t : State} (h : s.blockPart = t.blockPart) :
    s.cyclesLeft = t.cyclesLeft := by
  have hbusy : s.busy = t.busy := (congrArg State.busy h :)
  have hnow : s.now = t.now := (congrArg State.now h :)
  have hend : (finish s).now = (finish t).now := (congrArg State.now (finish_congr h) :)
  rw [State.cyclesLeft, State.cyclesLeft, hbusy, hnow, hend]

@[simp] theorem cyclesLeft_withHost (s : State) (h : List PortIn) :
    (s.withHost h).cyclesLeft = s.cyclesLeft := cyclesLeft_congr rfl

/-- The command that runs has a cycle left at least: the completion's. -/
theorem busy_iff_cyclesLeft_pos {s : State} (hw : s.WaitsRun) :
    s.busy = true ↔ 0 < s.cyclesLeft := by
  cases hb : s.busy with
  | false => simp [cyclesLeft_of_not_busy hb]
  | true =>
    have hends : EndsWithin s.cyclesLeft s := fun _ =>
      ⟨hw hb, by rw [cyclesLeft_of_busy hb]; omega⟩
    exact iff_of_true rfl (hends.pos hb)

theorem not_busy_of_cyclesLeft {s : State} (hw : s.WaitsRun) (h : s.cyclesLeft = 0) :
    s.busy = false := by
  rw [← Bool.not_eq_true, busy_iff_cyclesLeft_pos hw]
  omega

theorem State.WaitsRun.of_blockPart {s t : State} (hs : s.WaitsRun)
    (h : t.blockPart = s.blockPart) : t.WaitsRun := by
  have hb : s.blockPart.WaitsRun := hs
  exact (h ▸ hb : t.blockPart.WaitsRun)

/-- One cycle of a running command, whatever the host does in it: one cycle fewer is left. -/
theorem cyclesLeft_cycle {p : PortIn} {s : State} (hp : p.rstN = true) (hb : s.busy = true)
    (hw : s.WaitsRun) : (cycle p s).WaitsRun ∧ (cycle p s).cyclesLeft + 1 = s.cyclesLeft := by
  have hblock := cycle_blockPart (p := p) hp hb
  have hnow : (advance 1 s (sequencerCycle s.remaining s)).now = s.now + 1 := rfl
  have hcase := finish_after_cycle s.remaining s rfl hb (hw hb)
  generalize advance 1 s (sequencerCycle s.remaining s) = t at *
  have hleft := cyclesLeft_congr hblock
  have hs := cyclesLeft_of_busy hb
  obtain ⟨hbusy, hfin, hten, hwait⟩ | ⟨hbusy, hfin⟩ := hcase
  · have hwt : t.WaitsRun := fun _ h => hten.trans (hw hb (hwait h))
    have hpos := (busy_iff_cyclesLeft_pos hwt).1 hbusy
    have ht := cyclesLeft_of_busy hbusy
    rw [hfin] at ht
    exact ⟨hwt.of_blockPart hblock, by omega⟩
  · have hwt : t.WaitsRun := fun h => absurd h (by simp [hbusy])
    have ht := cyclesLeft_of_not_busy hbusy
    rw [← hfin] at hs
    exact ⟨hwt.of_blockPart hblock, by omega⟩

/-- Cycles of a running command, no more than it has left: so many fewer are left. -/
theorem cyclesLeft_runCycles (ps : List PortIn) : ∀ s : State, NoReset ps → s.WaitsRun →
    ps.length ≤ s.cyclesLeft →
    (runCycles ps s).WaitsRun ∧ (runCycles ps s).cyclesLeft + ps.length = s.cyclesLeft := by
  induction ps with
  | nil => exact fun s _ hw _ => ⟨hw, rfl⟩
  | cons p ps ih =>
    intro s hr hw hlen
    obtain ⟨hp, hps⟩ := List.forall_mem_cons.1 hr
    rw [List.length_cons] at hlen ⊢
    have hb : s.busy = true := (busy_iff_cyclesLeft_pos hw).2 (by omega)
    obtain ⟨hwt, hleft⟩ := cyclesLeft_cycle hp hb hw
    obtain ⟨hwu, hrest⟩ := ih (cycle p s) hps hwt (by omega)
    exact ⟨hwu, by rw [runCycles_cons]; omega⟩

/-- A command has not completed before its last cycle. -/
theorem busy_runCycles {ps : List PortIn} {s : State} (hr : NoReset ps) (hw : s.WaitsRun)
    (hlen : ps.length < s.cyclesLeft) : (runCycles ps s).busy = true := by
  obtain ⟨hwt, hleft⟩ := cyclesLeft_runCycles ps s hr hw hlen.le
  exact (busy_iff_cyclesLeft_pos hwt).2 (by omega)

/-! ### `drain` is the block run cycle by cycle -/

theorem drain_cons_of_busy {p : PortIn} {ps : List PortIn} {s : State} (hb : s.busy = true) :
    drain (p :: ps) s = drain ps ((cycle p s).withHost ps) := by
  rw [drain, if_pos hb, ← cycle_withHost]
  rfl

/-- With the port idle, the rest of a command may be begun a cycle later. -/
theorem drain_nil_cycle_idle {s : State} (hb : s.busy = true) (hw : s.WaitsRun) :
    drain [] (cycle PortIn.idle s) = drain [] s := by
  have hcycle : cycle PortIn.idle s = advance 1 s (sequencerCycle s.remaining s) := by
    rw [cycle_idle, hb]
    rfl
  have hs : drain [] s = finish s := if_pos hb
  rw [hcycle, hs]
  obtain ⟨hbusy, hfin, -⟩ | ⟨hbusy, hfin⟩ := finish_after_cycle s.remaining s rfl hb (hw hb)
  · exact (if_pos hbusy).trans hfin
  · exact (drain_of_not_busy hbusy).trans hfin

/-- With the port idle, the rest of a command is its idle cycles. -/
theorem drain_nil_eq_runCycles (n : Nat) : ∀ s : State, s.WaitsRun → s.cyclesLeft = n →
    drain [] s = runCycles (List.replicate n PortIn.idle) s := by
  induction n with
  | zero =>
    intro s hw hn
    exact drain_of_not_busy (not_busy_of_cyclesLeft hw hn)
  | succ n ih =>
    intro s hw hn
    have hb : s.busy = true := (busy_iff_cyclesLeft_pos hw).2 (by omega)
    obtain ⟨hwt, hleft⟩ := cyclesLeft_cycle (p := PortIn.idle) rfl hb hw
    rw [← drain_nil_cycle_idle hb hw, ih _ hwt (by omega)]
    rfl

/-- The port's activity is taken cycle by cycle while the command runs; what is left of it is still to
come. -/
theorem drain_append (ps qs : List PortIn) : ∀ s : State, NoReset ps → s.WaitsRun →
    ps.length ≤ s.cyclesLeft →
    drain (ps ++ qs) (s.withHost (ps ++ qs)) = drain qs ((runCycles ps s).withHost qs) := by
  induction ps with
  | nil => exact fun _ _ _ _ => rfl
  | cons p ps ih =>
    intro s hr hw hlen
    obtain ⟨hp, hps⟩ := List.forall_mem_cons.1 hr
    rw [List.length_cons] at hlen
    have hb : s.busy = true := (busy_iff_cyclesLeft_pos hw).2 (by omega)
    obtain ⟨hwt, hleft⟩ := cyclesLeft_cycle hp hb hw
    have hb' : (s.withHost (p :: ps ++ qs)).busy = true := hb
    rw [List.cons_append] at hb' ⊢
    rw [drain_cons_of_busy hb', cycle_withHost, withHost_withHost, ih _ hps hwt (by omega),
      runCycles_cons]

/-- The rest of a command, reset kept high: its cycles with the host's activity in them, the port idle after
it (log 2). -/
theorem drain_eq_runCycles {ps : List PortIn} {s : State} (hr : NoReset ps) (hw : s.WaitsRun) :
    let n := s.cyclesLeft
    drain ps (s.withHost ps) =
      (runCycles ((ps ++ List.replicate n PortIn.idle).take n) s).withHost (ps.drop n) := by
  intro n
  rcases Nat.lt_or_ge ps.length n with hlen | hlen
  · obtain ⟨hwu, hleft⟩ := cyclesLeft_runCycles ps s hr hw hlen.le
    have htake : (ps ++ List.replicate n PortIn.idle).take n =
        ps ++ List.replicate (runCycles ps s).cyclesLeft PortIn.idle := by
      rw [List.take_append, List.take_of_length_le hlen.le, List.take_replicate]
      congr 2
      omega
    have happ := drain_append ps [] s hr hw hlen.le
    have hidle := drain_nil_eq_runCycles _ ((runCycles ps s).withHost []) hwu
      (cyclesLeft_withHost _ _)
    rw [List.append_nil] at happ
    rw [happ, hidle, htake, runCycles_append, runCycles_withHost, List.drop_of_length_le hlen.le]
  · have htaken : (ps.take n).length = n := List.length_take_of_le hlen
    have hrt := noReset_take hr n
    obtain ⟨hwu, hleft⟩ := cyclesLeft_runCycles _ s hrt hw htaken.le
    have happ := drain_append (ps.take n) (ps.drop n) s hrt hw htaken.le
    rw [List.take_append_drop] at happ
    have hb := not_busy_of_cyclesLeft hwu (by omega)
    rw [happ, List.take_append_of_le_length hlen]
    exact drain_of_not_busy hb

/-! ### A command, from its CMD write on -/

theorem exec_eq_drain {i : Instr} {s : State} (ha : Accepted i s) :
    exec i s = .next (drain s.host (accepted i (commandOf i s.base) s)) := by
  have hc := (accepted_iff i s).1 ha
  simp only [exec_eq, runCommand, hc, accepted]

/-- What R153 has checked: the timer runs if a micro-op of the command waits. -/
theorem waitsRun_accepted {i : Instr} {s : State} (ha : Accepted i s) :
    (accepted i (commandOf i s.base) s).WaitsRun := by
  obtain ⟨-, htimer, -⟩ := checkCommand_eq_none.1 ((accepted_iff i s).1 ha)
  exact fun _ hwait => htimer (hasWait_commandOf i s.base hwait)

/-- D of R187. -/
theorem cyclesLeft_accepted (i : Instr) {s : State} (hw : s.wcnt = 0) :
    (accepted i (commandOf i s.base) s).cyclesLeft = busyCycles i := by
  obtain ⟨hend, -⟩ := completed_time i s hw
  have hstart : (accepted i (commandOf i s.base) s).now = s.now + 1 := rfl
  rw [cyclesLeft_of_busy rfl, finish_accepted]
  omega

/-- The cycle of an accepted command's CMD write leaves the state its first micro-op runs in (R57). -/
theorem accepted_eq_cycle_command_write {w : Word} {i : Instr} {s : State} (hd : decode w = .instr i)
    (ha : Accepted i s) (ps : List PortIn) :
    accepted i (commandOf i s.base) { s with host := ps, pwdata := w } =
      (cycle (PortIn.write 0x0C#5 w) s).withHost ps := by
  have hc : checkCommand (commandOf i s.base) { s with pwdata := w } = none := (accepted_iff i s).1 ha
  have hword : commandWord i { s with host := ps, pwdata := w } = w := if_pos hd
  rw [cycle_of_not_busy rfl ha.1, hostAccess_write, memWrite_cmd, accepted, hword]
  simp only [issueCommand, hd, hc]
  rfl

/-- After the cycle of the CMD write, D cycles are left (R187). -/
theorem cyclesLeft_cycle_command_write {w : Word} {i : Instr} {s : State}
    (hd : decode w = .instr i) (ha : Accepted i s) (hw : s.wcnt = 0) :
    (cycle (PortIn.write 0x0C#5 w) s).WaitsRun ∧
      (cycle (PortIn.write 0x0C#5 w) s).cyclesLeft = busyCycles i := by
  have hstart := accepted_eq_cycle_command_write hd ha []
  have hwaits := waitsRun_accepted (s := { s with host := [], pwdata := w }) ha
  have hleft := cyclesLeft_accepted i (s := { s with host := [], pwdata := w }) hw
  rw [hstart] at hwaits hleft
  exact ⟨hwaits, (cyclesLeft_withHost _ []).symm.trans hleft⟩

/-- An accepted command in one step: the cycle of its CMD write, then D cycles with the host's activity in
them (R57 to R60, R187). -/
theorem exec_eq_runCycles {w : Word} {i : Instr} {s : State} {ps : List PortIn}
    (hd : decode w = .instr i) (ha : Accepted i s) (hw : s.wcnt = 0) (hr : NoReset ps) :
    exec i { s with host := ps, pwdata := w } =
      .next ((runCycles ((ps ++ List.replicate (busyCycles i) PortIn.idle).take (busyCycles i))
        (cycle (PortIn.write 0x0C#5 w) s)).withHost (ps.drop (busyCycles i))) := by
  obtain ⟨hwaits, hleft⟩ := cyclesLeft_cycle_command_write hd ha hw
  have hdrain := drain_eq_runCycles hr hwaits
  rw [hleft] at hdrain
  have hexec := exec_eq_drain (s := { s with host := ps, pwdata := w }) ha
  rw [hexec, accepted_eq_cycle_command_write hd ha ps, hdrain]

/-- Settles O26: the step is the cycles `exec_eq_runCycles` gives, and after fewer than D of them a cycle is
left. -/
theorem oneStepIsItsCycles : Obligations.OneStepIsItsCycles := by
  intro w i s ps hd ha hw hr hh
  obtain ⟨hwaits, hleft⟩ := cyclesLeft_cycle_command_write hd ha hw
  obtain ⟨t, -, hexec, hdone, -⟩ := exec_accepted (s := { s with host := ps, pwdata := w }) ha hr
  have ht := Host.Outcome.next.inj (hexec.symm.trans (exec_eq_runCycles hd ha hw hr))
  refine ⟨t, hexec, fun k hk => ?running, hdone.busy, ?cycles, congrArg State.host ht⟩
  case running =>
    have hlen := List.length_take_le k (ps ++ List.replicate (busyCycles i) PortIn.idle)
    exact busy_runCycles (noReset_take (noReset_append_idle hr _) k) hwaits (by omega)
  case cycles =>
    rw [ht]
    refine (withHost_of_host_eq ?_).symm
    rw [runCycles_host, cycle_host, hh]

/-! ### Reset (R170, R171) -/

theorem cycle_reset {p : PortIn} (hp : p.rstN = false) (s : State) : cycle p s = resetCycle s :=
  if_neg (by simp [hp])

/-- Host accesses have no effect in reset (R170). -/
theorem access_reset {p : PortIn} (hp : p.rstN = false) : p.access = none := by
  simp [PortIn.access, hp]

/-- A reset stops the running command, and the step with it (R171). -/
theorem drain_reset {qs : List PortIn} {s : State} (hb : s.busy = true) :
    drain (PortIn.reset :: qs) s = resetCycle (s.withHost qs) := by
  rw [drain_cons_of_busy hb, cycle_reset rfl]
  exact drain_of_not_busy rfl

/-- A reset in a cycle of an accepted command, its last one included: the step is the cycles before it and the
reset cycle. -/
theorem exec_reset {i : Instr} {s : State} {ps qs : List PortIn} (ha : Accepted i s)
    (hw : s.wcnt = 0) (hr : NoReset ps) (hlen : ps.length < busyCycles i)
    (hh : s.host = ps ++ PortIn.reset :: qs) :
    exec i s =
      .next (resetCycle ((runCycles ps (accepted i (commandOf i s.base) s)).withHost qs)) := by
  refine (exec_eq_drain ha).trans (congrArg _ ?_)
  have hhost : (accepted i (commandOf i s.base) s).host = s.host := rfl
  have hwaits := waitsRun_accepted ha
  have hleft := cyclesLeft_accepted i hw
  generalize accepted i (commandOf i s.base) s = u at *
  rw [← hleft] at hlen
  have hb : ((runCycles ps u).withHost (PortIn.reset :: qs)).busy = true :=
    busy_runCycles hr hwaits hlen
  calc drain s.host u
      = drain (ps ++ PortIn.reset :: qs) (u.withHost (ps ++ PortIn.reset :: qs)) := by
        rw [← hh, withHost_of_host_eq hhost]
    _ = drain (PortIn.reset :: qs) ((runCycles ps u).withHost (PortIn.reset :: qs)) :=
        drain_append ps _ u hr hwaits hlen.le
    _ = resetCycle ((runCycles ps u).withHost qs) := drain_reset hb

/-- What cycles of an accepted command have added to the trace: no more events than it has micro-ops, whatever
is left of it (R58). -/
theorem trace_runCycles_accepted {i : Instr} {s : State} {ps : List PortIn} (ha : Accepted i s)
    (hw : s.wcnt = 0) (hr : NoReset ps) (hlen : ps.length < busyCycles i) :
    ∃ evs, (runCycles ps (accepted i (commandOf i s.base) s)).trace = s.trace ++ evs ∧
      evs.length ≤ (commandOf i s.base).prog.length := by
  have ha' : Accepted i { s with host := ps } := ha
  obtain ⟨t, bs, hexec, -, -, -, hwhole, -⟩ := exec_accepted ha' hr
  have ht := Host.Outcome.next.inj (hexec.symm.trans (exec_eq_drain ha'))
  have hwaits := waitsRun_accepted ha
  have hleft := cyclesLeft_accepted i hw
  have hpart := drain_append ps [] (accepted i (commandOf i s.base) s) hr hwaits (by omega)
  have hb := busy_runCycles hr hwaits (hleft ▸ hlen)
  obtain ⟨evs, hevs⟩ := runCycles_trace_grows ps (accepted i (commandOf i s.base) s)
  generalize runCycles ps (accepted i (commandOf i s.base) s) = u at *
  have hfinish : t = finish (u.withHost []) := by
    rw [List.append_nil] at hpart
    exact ht.trans (hpart.trans (if_pos hb))
  obtain ⟨rest, hrest⟩ := finish_trace_grows (u.withHost [])
  rw [← hfinish, hwhole] at hrest
  have hsum : s.trace ++ (evs ++ rest) =
      s.trace ++ eventsFrom (commandOf i s.base).prog bs s.startPos := by
    rw [← List.append_assoc]
    exact (congrArg (· ++ rest) hevs).trans hrest
  refine ⟨evs, hevs.symm, ?_⟩
  calc evs.length ≤ (evs ++ rest).length := by simp
    _ = (commandOf i s.base).prog.length := by
      rw [List.append_cancel_left hsum, eventsFrom_length]

/-- Settles O57: a reset cycle leaves the reset state by definition, and a command that meets one has run its
cycles up to it. -/
theorem resetStopsACommand : Obligations.ResetStopsACommand := by
  refine ⟨fun s p hp => ⟨cycle_reset hp s, ?pins, ?prdata, fun ps hh => ?step⟩,
    fun i s ps qs ha hw hr hlen hh => ?command⟩
  case pins => simp [State.pinsDuring, hp, State.pins, State.reset, State.sdaOe]
  case prdata => simp [prdata, hp]
  case step => exact step_of_no_commandWrite hh (by simp [PortIn.commandWrite, access_reset hp])
  case command =>
    obtain ⟨evs, htrace, hevs⟩ := trace_runCycles_accepted ha hw hr hlen
    have hnow : (runCycles ps (accepted i (commandOf i s.base) s)).now + 1 =
        s.now + 2 + ps.length := by
      have hstart : (accepted i (commandOf i s.base) s).now = s.now + 1 := rfl
      rw [runCycles_now]
      omega
    refine ⟨_, evs, exec_reset ha hw hr hlen hh, htrace, hevs, rfl, ?_⟩
    rw [← hnow]
    rfl

end Sys2Proof.Machine
